-- ==== Sys2Proof/Word.lean ====
section
/-! DEFINITION. The word types of the field-ops CORE and nothing else: bytes (the host's view of a
space, 20_memory.md R75), 32-bit words (every memory space, R70) and 256-bit operand values
(10_state.md R31). -/

namespace Sys2Proof

/-- One byte, as the host sees a memory space (20_memory.md R75). -/
abbrev Byte := BitVec 8

/-- One word of a memory space, and one command word (20_memory.md R70, 30_encoding.md R100). -/
abbrev Word32 := BitVec 32

/-- The value of an operand register, a FixedWidthInt256 (10_state.md R31, R32). -/
abbrev Word256 := BitVec 256

/-- An operand-register number (3 bits, 10_state.md R31). -/
abbrev Reg := Fin 8

end Sys2Proof
end

