-- ==== Sys2Proof/Syntax.lean ====
section
/-! DEFINITION. The 34 commands of the field-ops CORE, one constructor for each row of the opcode map
(30_encoding.md R109), with the operand fields the row uses, in the order of R113. -/

namespace Sys2Proof

/-- A command. `rd`, `rs1`, `rs2` are operand-register numbers (30_encoding.md R102); `j` a limb
index and `imm16` a limb value (R103); `k4` a constant-ROM index and `off4` an input offset (R104);
`off16` a branch offset, read as a signed number (R105). -/
inductive Instr where
  /-- Compare (40_bigint.md R131). -/
  | cmp (rs1 rs2 : Reg)
  /-- 256-bit add with carry out (40_bigint.md R132). -/
  | add (rd rs1 rs2 : Reg)
  /-- 256-bit subtract with borrow out (40_bigint.md R133). -/
  | sub (rd rs1 rs2 : Reg)
  /-- 256 x 256 to 512-bit multiply; `rd` names an even/odd pair (40_bigint.md R134). -/
  | mulw (rd rs1 rs2 : Reg)
  /-- 256 to 512-bit square; `rd` names an even/odd pair (40_bigint.md R135). -/
  | sqrw (rd rs1 : Reg)
  /-- Conditional subtraction of `P` (41_bn254.md R151). -/
  | fred (rd rs1 : Reg)
  /-- BN254 field addition (41_bn254.md R152). -/
  | fadd (rd rs1 rs2 : Reg)
  /-- BN254 field subtraction (41_bn254.md R153). -/
  | fsub (rd rs1 rs2 : Reg)
  /-- BN254 field negation (41_bn254.md R154). -/
  | fneg (rd rs1 : Reg)
  /-- Montgomery CIOS multiplication (41_bn254.md R155). -/
  | fmul (rd rs1 rs2 : Reg)
  /-- Montgomery squaring (41_bn254.md R156). -/
  | fsqr (rd rs1 : Reg)
  /-- Montgomery reduction of the pair that `rs1` names (41_bn254.md R157). -/
  | fmred (rd rs1 : Reg)
  /-- Conversion to Montgomery form (41_bn254.md R158). -/
  | tomont (rd rs1 : Reg)
  /-- Conversion from Montgomery form (41_bn254.md R159). -/
  | frommont (rd rs1 : Reg)
  /-- Mersenne reduction (42_m31.md R181). -/
  | mred (rd rs1 : Reg)
  /-- Mersenne addition (42_m31.md R182). -/
  | madd (rd rs1 rs2 : Reg)
  /-- Mersenne multiplication (42_m31.md R183). -/
  | mmul (rd rs1 rs2 : Reg)
  /-- Register copy (43_datamove.md R191). -/
  | mov (rd rs1 : Reg)
  /-- 256-bit exclusive or (43_datamove.md R192). -/
  | xor (rd rs1 rs2 : Reg)
  /-- Low byte (43_datamove.md R193). -/
  | lowb (rd rs1 : Reg)
  /-- Low 32 bits of a 32 x 32 product (43_datamove.md R194). -/
  | mul32 (rd rs1 rs2 : Reg)
  /-- Zero guard (43_datamove.md R195). -/
  | zguard (rd rs1 : Reg)
  /-- XOR fold of the limbs (43_datamove.md R196). -/
  | xfold (rd rs1 : Reg)
  /-- Read the flags (43_datamove.md R197). -/
  | rdf (rd : Reg)
  /-- Load one limb (43_datamove.md R198). -/
  | ldi (rd : Reg) (j : Fin 16) (imm16 : BitVec 16)
  /-- Load a ROM constant (43_datamove.md R199). -/
  | ldk (rd : Reg) (k4 : Fin 16)
  /-- Load an input word (43_datamove.md R200). -/
  | ldin (rd : Reg) (off4 : Fin 16)
  /-- Load the thread id (43_datamove.md R201). -/
  | ldtid (rd : Reg)
  /-- Load the seed (43_datamove.md R202). -/
  | ldseed (rd : Reg)
  /-- Load the loop counter (44_loop_control.md R211). -/
  | ldlc
  /-- Loop-count branch (44_loop_control.md R212). -/
  | lcbz (off16 : BitVec 16)
  /-- Relative jump (44_loop_control.md R213). -/
  | jmp (off16 : BitVec 16)
  /-- Write the output word (44_loop_control.md R214). -/
  | stout (rs1 : Reg)
  /-- Finish the lane (44_loop_control.md R215). -/
  | halt
deriving DecidableEq, Repr

end Sys2Proof
end

