-- ==== Sys2Proof/WellFormed.lean ====
section
/-! DEFINITION. Which commands a legal word can stand for: the extra conditions of the opcode map
(30_encoding.md R108, R109). Every other bound is in the operand types. -/

namespace Sys2Proof

/-- A register number that names an even/odd pair (30_encoding.md R108). -/
def Reg.isPair (n : Reg) : Bool := n.val % 2 == 0

/-- A command that some legal word encodes (30_encoding.md R108, R109): an even pair number for MULW,
SQRW and FMRED, a ROM index of at most 3 for LDK. -/
def Instr.wellFormed : Instr → Bool
  | .mulw rd _ _ => Reg.isPair rd
  | .sqrw rd _ => Reg.isPair rd
  | .fmred _ rs1 => Reg.isPair rs1
  | .ldk _ k4 => decide (k4.val ≤ 3)
  | .cmp _ _ | .add _ _ _ | .sub _ _ _ => true
  | .fred _ _ | .fadd _ _ _ | .fsub _ _ _ | .fneg _ _ | .fmul _ _ _ | .fsqr _ _ => true
  | .tomont _ _ | .frommont _ _ => true
  | .mred _ _ | .madd _ _ _ | .mmul _ _ _ => true
  | .mov _ _ | .xor _ _ _ | .lowb _ _ | .mul32 _ _ _ | .zguard _ _ | .xfold _ _ | .rdf _ => true
  | .ldi _ _ _ | .ldin _ _ | .ldtid _ | .ldseed _ => true
  | .ldlc | .lcbz _ | .jmp _ | .stout _ | .halt => true

end Sys2Proof
end

