-- ==== Sys2Proof/Decode.lean ====
section
/-! DEFINITION. The command encoding (30_encoding.md): bit fields, the decoder from words and from
bytes (total, rejecting by name), the encoder, and the opcode map as a table. The decoder follows the
formats R102 to R106; the table follows the match and mask columns of R109. -/

namespace Sys2Proof

/-! ### Bit fields, sign extension, byte order -/

/-- `v[hi:lo]` (00_scope.md R11). -/
def bits (v hi lo : Nat) : Nat := v / 2 ^ lo % 2 ^ (hi - lo + 1)

/-- `sext_16(v)` (00_scope.md R12). -/
def sext16 (v : BitVec 16) : Int :=
  if bits v.toNat 15 15 = 0 then (v.toNat : Int) else (v.toNat : Int) - 65536

/-- Byte `k` of a word in the host's little-endian view (20_memory.md R75). -/
def byteOf (w : Word32) (k : Nat) : Byte := BitVec.ofNat 8 (bits w.toNat (8 * k + 7) (8 * k))

/-- The word that four bytes hold, lowest address first (20_memory.md R75). -/
def wordOfBytes (b0 b1 b2 b3 : Byte) : Word32 :=
  BitVec.ofNat 32 (b0.toNat + 2 ^ 8 * b1.toNat + 2 ^ 16 * b2.toNat + 2 ^ 24 * b3.toNat)

/-- The four bytes of a word, lowest address first (20_memory.md R75). -/
def bytesOf (w : Word32) : List Byte := [byteOf w 0, byteOf w 1, byteOf w 2, byteOf w 3]

/-! ### The decoder -/

/-- Why a word is illegal (30_encoding.md R111). Every reason raises the same fault, ILLEGAL_INSN. -/
inductive DecodeError where
  /-- R111 (a): the `op` field is not in the opcode map. -/
  | unassignedOp
  /-- R111 (b): a `zero` field or an unused register field is not zero. -/
  | reservedField
  /-- R111 (c): an odd pair number, or a ROM index above 3. -/
  | extraCondition
  /-- Fewer or more than four bytes: no command (R100); raised by `decodeBytes` alone. -/
  | notOneWord
deriving DecidableEq, Repr

/-- Field `rd`, bits 25..23 (30_encoding.md R102). -/
def fieldRd (w : Nat) : Reg := Fin.ofNat 8 (bits w 25 23)

/-- Field `rs1`, bits 22..20 (30_encoding.md R102). -/
def fieldRs1 (w : Nat) : Reg := Fin.ofNat 8 (bits w 22 20)

/-- Field `rs2`, bits 19..17 (30_encoding.md R102). -/
def fieldRs2 (w : Nat) : Reg := Fin.ofNat 8 (bits w 19 17)

/-- Field `j` or `k4`, bits 22..19 (30_encoding.md R103, R104). -/
def fieldK4 (w : Nat) : Fin 16 := Fin.ofNat 16 (bits w 22 19)

/-- Field `imm16` or `off16`, bits 15..0 (30_encoding.md R103, R105). -/
def fieldImm16 (w : Nat) : BitVec 16 := BitVec.ofNat 16 (bits w 15 0)

/-- `i` if the fields that must be zero are (30_encoding.md R109, R111). -/
def whenZero (z : Bool) (i : Instr) : Except DecodeError Instr :=
  if z then .ok i else .error .reservedField

/-- Format R with `rd`, `rs1`, `rs2` (30_encoding.md R102). -/
def formR3 (w : Nat) (i : Reg → Reg → Reg → Instr) : Except DecodeError Instr :=
  whenZero (bits w 16 0 == 0) (i (fieldRd w) (fieldRs1 w) (fieldRs2 w))

/-- Format R with `rd`, `rs1` and no `rs2` (30_encoding.md R102, R109). -/
def formR2 (w : Nat) (i : Reg → Reg → Instr) : Except DecodeError Instr :=
  whenZero (bits w 19 17 == 0 && bits w 16 0 == 0) (i (fieldRd w) (fieldRs1 w))

/-- Format R with `rd` alone (30_encoding.md R102, R109). -/
def formR1 (w : Nat) (i : Reg → Instr) : Except DecodeError Instr :=
  whenZero (bits w 22 20 == 0 && bits w 19 17 == 0 && bits w 16 0 == 0) (i (fieldRd w))

/-- Format K (30_encoding.md R104). -/
def formK (w : Nat) (i : Reg → Fin 16 → Instr) : Except DecodeError Instr :=
  whenZero (bits w 18 0 == 0) (i (fieldRd w) (fieldK4 w))

/-- Format B (30_encoding.md R105). -/
def formB (w : Nat) (i : BitVec 16 → Instr) : Except DecodeError Instr :=
  whenZero (bits w 25 16 == 0) (i (fieldImm16 w))

/-- Format N (30_encoding.md R106). -/
def formN (w : Nat) (i : Instr) : Except DecodeError Instr := whenZero (bits w 25 0 == 0) i

/-- The fields of a word, by its `op` (30_encoding.md R101, R109), before the extra conditions. -/
def decodeFields (w : Nat) : Except DecodeError Instr :=
  match bits w 31 26 with
  | 0x01 => whenZero (bits w 25 23 == 0 && bits w 16 0 == 0) (.cmp (fieldRs1 w) (fieldRs2 w))
  | 0x02 => formR3 w .add
  | 0x03 => formR3 w .sub
  | 0x04 => formR3 w .mulw
  | 0x05 => formR2 w .sqrw
  | 0x08 => formR2 w .fred
  | 0x09 => formR3 w .fadd
  | 0x0A => formR3 w .fsub
  | 0x0B => formR2 w .fneg
  | 0x0C => formR3 w .fmul
  | 0x0D => formR2 w .fsqr
  | 0x0E => formR2 w .fmred
  | 0x0F => formR2 w .tomont
  | 0x10 => formR2 w .frommont
  | 0x14 => formR2 w .mred
  | 0x15 => formR3 w .madd
  | 0x16 => formR3 w .mmul
  | 0x18 => formR2 w .mov
  | 0x19 => formR3 w .xor
  | 0x1A => formR2 w .lowb
  | 0x1B => formR3 w .mul32
  | 0x1C => formR2 w .zguard
  | 0x1D => formR2 w .xfold
  | 0x1E => formR1 w .rdf
  | 0x20 => whenZero (bits w 18 16 == 0) (.ldi (fieldRd w) (fieldK4 w) (fieldImm16 w))
  | 0x21 => formK w .ldk
  | 0x22 => formK w .ldin
  | 0x23 => formR1 w .ldtid
  | 0x24 => formR1 w .ldseed
  | 0x28 => formN w .ldlc
  | 0x29 => formB w .lcbz
  | 0x2A => formB w .jmp
  | 0x2B => whenZero (bits w 25 23 == 0 && bits w 19 17 == 0 && bits w 16 0 == 0)
      (.stout (fieldRs1 w))
  | 0x2C => formN w .halt
  | _ => .error .unassignedOp

/-- The command a word stands for, or why it is illegal (30_encoding.md R111). -/
def decode (w : Word32) : Except DecodeError Instr :=
  match decodeFields w.toNat with
  | .error e => .error e
  | .ok i => if i.wellFormed then .ok i else .error .extraCondition

/-- The decoder on bytes: exactly one little-endian word (20_memory.md R75, 30_encoding.md R100). -/
def decodeBytes : List Byte → Except DecodeError Instr
  | [b0, b1, b2, b3] => decode (wordOfBytes b0 b1 b2 b3)
  | _ => .error .notOneWord

/-- What the decoder reads from an instruction whose bits, numbered as spec/opcode_table.json numbers
them, are `w`: the low `nbits` bits of `w`, every bit above them 0, laid out as bytes and decoded. -/
def decodeTableWord (nbits w : Nat) : Option Instr :=
  match decodeBytes (bytesOf (BitVec.ofNat 32 (w % 2 ^ nbits))) with
  | .ok i => some i
  | .error _ => none

/-! ### The encoder -/

/-- Format R (30_encoding.md R102). -/
def packR (op rd rs1 rs2 : Nat) : Nat := op * 2 ^ 26 + rd * 2 ^ 23 + rs1 * 2 ^ 20 + rs2 * 2 ^ 17

/-- Format I (30_encoding.md R103). -/
def packI (op rd j imm16 : Nat) : Nat := op * 2 ^ 26 + rd * 2 ^ 23 + j * 2 ^ 19 + imm16

/-- Format K (30_encoding.md R104). -/
def packK (op rd k4 : Nat) : Nat := op * 2 ^ 26 + rd * 2 ^ 23 + k4 * 2 ^ 19

/-- Format B (30_encoding.md R105). -/
def packB (op off16 : Nat) : Nat := op * 2 ^ 26 + off16

/-- Format N (30_encoding.md R106). -/
def packN (op : Nat) : Nat := op * 2 ^ 26

/-- The word of a command as a number (30_encoding.md R102 to R109). -/
def encodeNat : Instr → Nat
  | .cmp rs1 rs2 => packR 0x01 0 rs1 rs2
  | .add rd rs1 rs2 => packR 0x02 rd rs1 rs2
  | .sub rd rs1 rs2 => packR 0x03 rd rs1 rs2
  | .mulw rd rs1 rs2 => packR 0x04 rd rs1 rs2
  | .sqrw rd rs1 => packR 0x05 rd rs1 0
  | .fred rd rs1 => packR 0x08 rd rs1 0
  | .fadd rd rs1 rs2 => packR 0x09 rd rs1 rs2
  | .fsub rd rs1 rs2 => packR 0x0A rd rs1 rs2
  | .fneg rd rs1 => packR 0x0B rd rs1 0
  | .fmul rd rs1 rs2 => packR 0x0C rd rs1 rs2
  | .fsqr rd rs1 => packR 0x0D rd rs1 0
  | .fmred rd rs1 => packR 0x0E rd rs1 0
  | .tomont rd rs1 => packR 0x0F rd rs1 0
  | .frommont rd rs1 => packR 0x10 rd rs1 0
  | .mred rd rs1 => packR 0x14 rd rs1 0
  | .madd rd rs1 rs2 => packR 0x15 rd rs1 rs2
  | .mmul rd rs1 rs2 => packR 0x16 rd rs1 rs2
  | .mov rd rs1 => packR 0x18 rd rs1 0
  | .xor rd rs1 rs2 => packR 0x19 rd rs1 rs2
  | .lowb rd rs1 => packR 0x1A rd rs1 0
  | .mul32 rd rs1 rs2 => packR 0x1B rd rs1 rs2
  | .zguard rd rs1 => packR 0x1C rd rs1 0
  | .xfold rd rs1 => packR 0x1D rd rs1 0
  | .rdf rd => packR 0x1E rd 0 0
  | .ldi rd j imm16 => packI 0x20 rd j imm16.toNat
  | .ldk rd k4 => packK 0x21 rd k4
  | .ldin rd off4 => packK 0x22 rd off4
  | .ldtid rd => packR 0x23 rd 0 0
  | .ldseed rd => packR 0x24 rd 0 0
  | .ldlc => packN 0x28
  | .lcbz off16 => packB 0x29 off16.toNat
  | .jmp off16 => packB 0x2A off16.toNat
  | .stout rs1 => packR 0x2B 0 rs1 0
  | .halt => packN 0x2C

/-- The word of a command (one word, 30_encoding.md R100). -/
def encode (i : Instr) : Word32 := BitVec.ofNat 32 (encodeNat i)

/-- The bytes of a command in the host's view of IMEM (20_memory.md R75). -/
def encodeBytes (i : Instr) : List Byte := bytesOf (encode i)

/-! ### The opcode map -/

/-- The extra condition of a row of the opcode map (30_encoding.md R109). -/
inductive ExtraCondition where
  /-- No extra condition. -/
  | always
  /-- `rd` even. -/
  | rdEven
  /-- `rs1` even. -/
  | rs1Even
  /-- `k4 <= 3`. -/
  | k4AtMost3
deriving DecidableEq, Repr

/-- A row of the opcode map: mnemonic, match, mask, extra condition (30_encoding.md R109). -/
structure OpcodeRow where
  /-- The row's mnemonic. -/
  mnemonic : String
  /-- The fixed bits' values. -/
  pattern : Word32
  /-- The fixed bits' places. -/
  mask : Word32
  /-- The row's extra condition. -/
  extra : ExtraCondition
deriving DecidableEq, Repr

/-- The extra condition on a word (30_encoding.md R109). -/
def ExtraCondition.holds (e : ExtraCondition) (w : Word32) : Bool :=
  match e with
  | .always => true
  | .rdEven => bits w.toNat 23 23 == 0
  | .rs1Even => bits w.toNat 20 20 == 0
  | .k4AtMost3 => decide (bits w.toNat 22 19 ≤ 3)

/-- `w & mask = match` (30_encoding.md R109). -/
def OpcodeRow.fits (row : OpcodeRow) (w : Word32) : Bool := w &&& row.mask == row.pattern

/-- The row's command is what the word encodes: it fits and the extra condition holds
(30_encoding.md R109). -/
def OpcodeRow.accepts (row : OpcodeRow) (w : Word32) : Bool := row.fits w && row.extra.holds w

/-- The opcode map, families 0x01 to 0x13 (30_encoding.md R109, R110). -/
def arithmeticRows : List OpcodeRow :=
  [⟨"CMP", 0x04000000#32, 0xFF81FFFF#32, .always⟩,
   ⟨"ADD", 0x08000000#32, 0xFC01FFFF#32, .always⟩,
   ⟨"SUB", 0x0C000000#32, 0xFC01FFFF#32, .always⟩,
   ⟨"MULW", 0x10000000#32, 0xFC01FFFF#32, .rdEven⟩,
   ⟨"SQRW", 0x14000000#32, 0xFC0FFFFF#32, .rdEven⟩,
   ⟨"FRED", 0x20000000#32, 0xFC0FFFFF#32, .always⟩,
   ⟨"FADD", 0x24000000#32, 0xFC01FFFF#32, .always⟩,
   ⟨"FSUB", 0x28000000#32, 0xFC01FFFF#32, .always⟩,
   ⟨"FNEG", 0x2C000000#32, 0xFC0FFFFF#32, .always⟩,
   ⟨"FMUL", 0x30000000#32, 0xFC01FFFF#32, .always⟩,
   ⟨"FSQR", 0x34000000#32, 0xFC0FFFFF#32, .always⟩,
   ⟨"FMRED", 0x38000000#32, 0xFC0FFFFF#32, .rs1Even⟩,
   ⟨"TOMONT", 0x3C000000#32, 0xFC0FFFFF#32, .always⟩,
   ⟨"FROMMONT", 0x40000000#32, 0xFC0FFFFF#32, .always⟩]

/-- The opcode map, families 0x14 to 0x2F (30_encoding.md R109, R110). -/
def movementRows : List OpcodeRow :=
  [⟨"MRED", 0x50000000#32, 0xFC0FFFFF#32, .always⟩,
   ⟨"MADD", 0x54000000#32, 0xFC01FFFF#32, .always⟩,
   ⟨"MMUL", 0x58000000#32, 0xFC01FFFF#32, .always⟩,
   ⟨"MOV", 0x60000000#32, 0xFC0FFFFF#32, .always⟩,
   ⟨"XOR", 0x64000000#32, 0xFC01FFFF#32, .always⟩,
   ⟨"LOWB", 0x68000000#32, 0xFC0FFFFF#32, .always⟩,
   ⟨"MUL32", 0x6C000000#32, 0xFC01FFFF#32, .always⟩,
   ⟨"ZGUARD", 0x70000000#32, 0xFC0FFFFF#32, .always⟩,
   ⟨"XFOLD", 0x74000000#32, 0xFC0FFFFF#32, .always⟩,
   ⟨"RDF", 0x78000000#32, 0xFC7FFFFF#32, .always⟩,
   ⟨"LDI", 0x80000000#32, 0xFC070000#32, .always⟩,
   ⟨"LDK", 0x84000000#32, 0xFC07FFFF#32, .k4AtMost3⟩,
   ⟨"LDIN", 0x88000000#32, 0xFC07FFFF#32, .always⟩,
   ⟨"LDTID", 0x8C000000#32, 0xFC7FFFFF#32, .always⟩,
   ⟨"LDSEED", 0x90000000#32, 0xFC7FFFFF#32, .always⟩,
   ⟨"LDLC", 0xA0000000#32, 0xFFFFFFFF#32, .always⟩,
   ⟨"LCBZ", 0xA4000000#32, 0xFFFF0000#32, .always⟩,
   ⟨"JMP", 0xA8000000#32, 0xFFFF0000#32, .always⟩,
   ⟨"STOUT", 0xAC000000#32, 0xFF8FFFFF#32, .always⟩,
   ⟨"HALT", 0xB0000000#32, 0xFFFFFFFF#32, .always⟩]

/-- The complete opcode map (30_encoding.md R109). -/
def opcodeMap : List OpcodeRow := arithmeticRows ++ movementRows

/-- A command's mnemonic (30_encoding.md R109). -/
def Instr.mnemonic : Instr → String
  | .cmp _ _ => "CMP" | .add _ _ _ => "ADD" | .sub _ _ _ => "SUB"
  | .mulw _ _ _ => "MULW" | .sqrw _ _ => "SQRW"
  | .fred _ _ => "FRED" | .fadd _ _ _ => "FADD" | .fsub _ _ _ => "FSUB" | .fneg _ _ => "FNEG"
  | .fmul _ _ _ => "FMUL" | .fsqr _ _ => "FSQR" | .fmred _ _ => "FMRED"
  | .tomont _ _ => "TOMONT" | .frommont _ _ => "FROMMONT"
  | .mred _ _ => "MRED" | .madd _ _ _ => "MADD" | .mmul _ _ _ => "MMUL"
  | .mov _ _ => "MOV" | .xor _ _ _ => "XOR" | .lowb _ _ => "LOWB" | .mul32 _ _ _ => "MUL32"
  | .zguard _ _ => "ZGUARD" | .xfold _ _ => "XFOLD" | .rdf _ => "RDF"
  | .ldi _ _ _ => "LDI" | .ldk _ _ => "LDK" | .ldin _ _ => "LDIN"
  | .ldtid _ => "LDTID" | .ldseed _ => "LDSEED"
  | .ldlc => "LDLC" | .lcbz _ => "LCBZ" | .jmp _ => "JMP" | .stout _ => "STOUT" | .halt => "HALT"

end Sys2Proof
end

