-- ==== Sys2Proof/Config.lean ====
section
/-! DEFINITION. What is fixed for this hardware: the constant ROM (10_state.md R50 to R54), the
limb parameters (00_scope.md R7) and the bounds of the two open parameters (R9). The machine has no
free value: no command of the spec has an undefined result. -/

namespace Sys2Proof.Config

/-- The BN254 base-field modulus `P` (10_state.md R50). PRESUMED by the spec itself, which takes the
number from general knowledge (93 G1); log 13. -/
def p : Nat := 0x30644e72e131a029b85045b68181585d97816a916871ca8d3c208c16d87cfd47

/-- The Montgomery inverse `MINV`, `-P⁻¹ mod 2^16` (10_state.md R51); log 13. -/
def minv : Nat := 0x6389

/-- `R = 2^256` (00_scope.md R13). -/
def r : Nat := 2 ^ 256

/-- `R2 = R^2 mod P` (10_state.md R52); log 13. -/
def r2 : Nat := 0x06d89f71cab8351f47ab1eff0a417ff6b5e71911d44501fbf32cfc5b538afa89

/-- The Mersenne prime `Q31 = 2^31 - 1` (10_state.md R53). -/
def q31 : Nat := 0x7FFFFFFF

/-- `2^16`: the limb width is 16 bits (00_scope.md R7). -/
def limbBase : Nat := 65536

/-- The number of limbs of a FixedWidthInt256 (00_scope.md R7). -/
def nLimbs : Nat := 16

/-- The largest number of command words of a program memory (00_scope.md R9). -/
def maxImemWords : Nat := 65536

/-- The largest number of lanes of a launch (00_scope.md R9). -/
def maxLanes : Nat := 2 ^ 32

/-- The constant ROM, by the index LDK names (10_state.md R54): `P`, `R2`, `Q31`, `MINV`; an index
above 3 names nothing. -/
def rom : Nat → Option Nat
  | 0 => some p
  | 1 => some r2
  | 2 => some q31
  | 3 => some minv
  | _ => none

end Sys2Proof.Config
end

