-- ==== Sys2Proof/Machine/State.lean ====
section
/-! DEFINITION. The state of the field-ops CORE as plain data: the lanes (10_state.md R30), the spaces
they share (20_memory.md R70), which lane moves next, and the launch (70_reset_and_hazards.md R271). -/

namespace Sys2Proof.Machine

/-- Result of the last CMP, register `CMPF` (10_state.md R37). The code `0b11` is never written, so no
constructor stands for it (log 14). -/
inductive Cmpf where
  /-- Code `0b00`. -/
  | equal
  /-- Code `0b01`. -/
  | less
  /-- Code `0b10`. -/
  | greater
deriving DecidableEq, Repr

/-- Register `STATE` (10_state.md R40). The code `0b11` is never written (log 14). -/
inductive RunState where
  /-- Code `0b00`: the lane may step. -/
  | run
  /-- Code `0b01`: HALT completed. -/
  | done
  /-- Code `0b10`: the lane raised a fault. -/
  | faulted
deriving DecidableEq, Repr

/-- The causes of a lane fault (60_exceptions.md R247). A lane fault is a NEXT state of the machine. -/
inductive Cause where
  /-- Code 1: the fetched word is illegal (R242). -/
  | illegalInsn
  /-- Code 2: no word at `pc` (R243 (a)). -/
  | fetchOob
  /-- Code 3: a register that holds no value is read (R243 (b)). -/
  | unwrittenReg
  /-- Code 4: an operand outside its domain (R244). -/
  | precond
  /-- Code 5: a second STOUT (R245 (a)). -/
  | outTwice
  /-- Code 6: HALT without STOUT (R245 (b)). -/
  | noOutput
deriving DecidableEq, Repr

/-- The state of one lane (10_state.md R30). -/
structure Lane where
  /-- `X0` to `X7`; `none` is the spec's own value ⊥, "no value" (10_state.md R31, log 7). -/
  x : Vector (Option Word256) 8
  /-- `CF`, carry/borrow (10_state.md R36). -/
  cf : Bool
  /-- `CMPF`, compare result (10_state.md R37). -/
  cmpf : Cmpf
  /-- `LC`, loop counter (10_state.md R38). -/
  lc : Word32
  /-- `pc`, index of a command word (10_state.md R35). -/
  pc : BitVec 16
  /-- `OUT`, the lane's word of OUTBUF; `none` is the spec's "no value" (10_state.md R39,
  20_memory.md R73, log 6). -/
  out : Option Word32
  /-- `OUTW`: OUT has been written (10_state.md R39). -/
  outw : Bool
  /-- `STATE` (10_state.md R40). -/
  state : RunState
  /-- `FAULT`; `none` is code 0 NONE (10_state.md R41). -/
  fault : Option Cause
  /-- `FAULTPC` (10_state.md R42). -/
  faultpc : BitVec 16
  /-- `TID` (10_state.md R43). -/
  tid : Word32
deriving DecidableEq, Repr

/-- A sparse memory of bytes: strictly rising addresses, no listed byte equal to what an unlisted
address reads as (`Memory.wf`, Ops.lean; log 4, log 8). -/
abbrev Memory := List Host.Cell

/-- What every lane reads and no lane writes (20_memory.md R70); the constant ROM is in Config. -/
structure Shared where
  /-- `IMEM_WORDS`, an open parameter (00_scope.md R9; log 3). -/
  imemWords : Nat
  /-- IMEM in the host's byte view: word `i` at bytes `4i` to `4i+3` (20_memory.md R70, R75; log 8). -/
  imem : Memory
  /-- INPUT (20_memory.md R71). -/
  input : Vector Word32 16
  /-- PARAMS: iterations, seed and two reserved words (20_memory.md R72). -/
  params : Vector Word32 4
deriving DecidableEq, Repr

/-- The whole block. The lanes in TID order are `before ++ lane :: after`; `lane` is the one in front,
on which `exec` runs a command (log 1). -/
structure State where
  /-- The shared spaces. -/
  shared : Shared
  /-- The lanes below the one in front, in TID order. -/
  before : List Lane
  /-- The lane in front. -/
  lane : Lane
  /-- The lanes above the one in front, in TID order. -/
  after : List Lane
  /-- The model's own: the numbers of the lanes that move next, oldest first (20_memory.md R84;
  log 1). -/
  sched : List Nat
deriving DecidableEq, Repr

/-- Why a step of the model answers no next state. No command ends in one: a command's faults are lane
faults (`Cause`), which are next states. -/
inductive Fault where
  /-- Raised by `step` alone, when no lane is in RUN: the run has ended and no lane takes a step
  (20_memory.md R88, 70_reset_and_hazards.md R280). Safe: the hardware does nothing there (log 9). -/
  | runEnded
deriving DecidableEq, Repr

/-- Why a command is refused. No command of this model is. -/
inductive Refusal where
  /-- Raised by an arm of `exec` that has no meaning yet; there is none. Safe. -/
  | notModelled (mnemonic : String)
deriving DecidableEq, Repr

/-- The launch state of the lane with thread id `tid` (10_state.md R56, 70_reset_and_hazards.md R271). -/
def Lane.launch (tid : Word32) : Lane where
  x := Vector.replicate 8 none
  cf := false
  cmpf := .equal
  lc := 0
  pc := 0
  out := none
  outw := false
  state := .run
  fault := none
  faultpc := 0
  tid := tid

/-- The launch of `nLanes` lanes over shared spaces that the host wrote (20_memory.md R86,
70_reset_and_hazards.md R270, R271): thread ids 0 to `nLanes - 1`, lane 0 in front, and a schedule
(log 1). R9 asks for `1 ≤ nLanes ≤ 2^32`. DESIGN CHOICE outside it: 0 launches one lane, and beyond 2^32
lanes the thread ids wrap (log 17). -/
def State.launch (nLanes : Nat) (shared : Shared) (sched : List Nat) : State where
  shared := shared
  before := []
  lane := Lane.launch 0
  after := (List.range (nLanes - 1)).map fun i => Lane.launch (BitVec.ofNat 32 (i + 1))
  sched := sched

/-- The shared spaces of `State.reset`: what the host has not written yet. DESIGN CHOICE: IMEM lists
nothing, `IMEM_WORDS` is the largest R9 allows, INPUT and PARAMS hold zeros (log 3, log 4, log 5). -/
def Shared.reset : Shared where
  imemWords := Config.maxImemWords
  imem := []
  input := Vector.replicate 16 0
  params := Vector.replicate 4 0

/-- The machine right after reset, which is the launch (70_reset_and_hazards.md R270). DESIGN CHOICE:
one lane, an empty schedule (log 1, log 2). -/
def State.reset : State := State.launch 1 Shared.reset []

end Sys2Proof.Machine
end

