-- ==== Sys2Proof/Machine/Datapath.lean ====
section
/-! DEFINITION. The datapaths of the engines, limb by limb as the spec's pseudocode has them: the
big-integer adder, subtractor, comparator, multiplier and squarer (40_bigint.md R131 to R135), the
Montgomery engine (41_bn254.md R151 to R159), the Mersenne engine (42_m31.md R181 to R183) and the
fold (43_datamove.md R196). A limb list holds the least significant limb first. The closed forms that
the spec derives are lemmas of Laws/Limbs.lean and Laws/Field.lean. -/

namespace Sys2Proof.Machine

open Config

/-! ### Limbs -/

/-- The `n` low limbs of a value (00_scope.md R11). -/
def limbs : Nat → Nat → List Nat
  | 0, _ => []
  | n + 1, v => v % limbBase :: limbs n (v / limbBase)

/-- `val(l_0 .. l_{n-1})` (00_scope.md R11). -/
def val : List Nat → Nat
  | [] => 0
  | l :: ls => l + limbBase * val ls

/-- The 16 limbs of an operand value (10_state.md R32). -/
def limbs16 (v : Nat) : List Nat := limbs nLimbs v

/-! ### Big-integer engine -/

/-- The comparator on limbs, most significant limb first: the first limb that differs decides
(40_bigint.md R131). -/
def compareLimbs : List Nat → List Nat → Cmpf
  | a :: as, b :: bs => if a ≠ b then (if a < b then .less else .greater) else compareLimbs as bs
  | _, _ => .equal

/-- `CMP(a, b)` (40_bigint.md R131). -/
def compareValues (a b : Nat) : Cmpf := compareLimbs (limbs16 a).reverse (limbs16 b).reverse

/-- The adder on limbs, with the carry that enters limb 0: the sum's limbs and the carry out
(40_bigint.md R132). -/
def addLimbs : List Nat → List Nat → Nat → List Nat × Nat
  | a :: as, b :: bs, c =>
    let s := a + b + c
    let rest := addLimbs as bs (s / limbBase)
    (s % limbBase :: rest.1, rest.2)
  | _, _, c => ([], c)

/-- `ADD(a, b)`: the sum mod 2^256 and the carry out of limb 15 (40_bigint.md R132). -/
def addValues (a b : Nat) : Nat × Nat :=
  let r := addLimbs (limbs16 a) (limbs16 b) 0
  (val r.1, r.2)

/-- The subtractor on limbs, with the borrow that enters limb 0: the difference's limbs and the
borrow out (40_bigint.md R133). -/
def subLimbs : List Nat → List Nat → Nat → List Nat × Nat
  | a :: as, b :: bs, br =>
    if a ≥ b + br then
      let rest := subLimbs as bs 0
      ((a - b - br) :: rest.1, rest.2)
    else
      let rest := subLimbs as bs 1
      ((a + limbBase - b - br) :: rest.1, rest.2)
  | _, _, br => ([], br)

/-- `SUB(a, b)`: the difference mod 2^256 and the borrow out of limb 15 (40_bigint.md R133). -/
def subValues (a b : Nat) : Nat × Nat :=
  let r := subLimbs (limbs16 a) (limbs16 b) 0
  (val r.1, r.2)

/-- One multiply-accumulate row, `t[j] + m * b_j + c` limb by limb: the new limbs and the carry out
(the inner loop of 40_bigint.md R134 and of 41_bn254.md R155, R157). -/
def macRow (m : Nat) : List Nat → List Nat → Nat → List Nat × Nat
  | b :: bs, t :: ts, c =>
    let s := t + m * b + c
    let rest := macRow m bs ts (s / limbBase)
    (s % limbBase :: rest.1, rest.2)
  | _, _, c => ([], c)

/-- The schoolbook rows (40_bigint.md R134). `w` is the window `t[i .. i+15]` of the accumulator, the
only limbs of row `i`; after the row limb `i` is final and the carry becomes limb `i+16`. -/
def mulRows (b : List Nat) : List Nat → List Nat → List Nat
  | [], w => w
  | a :: as, w =>
    let r := macRow a b w 0
    match r.1 ++ [r.2] with
    | t :: ts => t :: mulRows b as ts
    | [] => []

/-- The 32 limbs of `a * b` (40_bigint.md R134). -/
def mulLimbs (a b : Nat) : List Nat := mulRows (limbs16 b) (limbs16 a) (List.replicate nLimbs 0)

/-- `MULW(a, b)`: the low and the high half (40_bigint.md R134). -/
def mulValues (a b : Nat) : Nat × Nat :=
  let t := mulLimbs a b
  (val (t.take nLimbs), val (t.drop nLimbs))

/-- The off-diagonal rows `a_i * a_j`, `i < j` (40_bigint.md R135). `w` is the window
`t[2i .. i+15]`; row `i` leaves limb `2i`, works on the limbs above it, and puts its carry in limb
`i+16`; limbs `2i` and `2i+1` are then final. -/
def offDiagonal : List Nat → List Nat → List Nat
  | a :: as, t :: ts =>
    let r := macRow a as ts 0
    match r.1 ++ [r.2] with
    | u :: us => t :: u :: offDiagonal as us
    | [] => []
  | _, _ => []

/-- The doubling pass: a shift left by one bit across the limbs (40_bigint.md R135). -/
def doubleLimbs : List Nat → Nat → List Nat
  | t :: ts, c =>
    let s := (t <<< 1) ||| c
    s % limbBase :: doubleLimbs ts (s >>> 16)
  | [], _ => []

/-- The diagonal pass: `a_i^2` added at limb `2i` (40_bigint.md R135). -/
def addDiagonal : List Nat → List Nat → Nat → List Nat
  | a :: as, t :: u :: ts, c =>
    let d := a * a
    let s := t + d % limbBase + c
    let s' := u + d / limbBase + s / limbBase
    s % limbBase :: s' % limbBase :: addDiagonal as ts (s' / limbBase)
  | _, ts, _ => ts

/-- The 32 limbs of `a * a` (40_bigint.md R135). -/
def sqrLimbs (a : Nat) : List Nat :=
  addDiagonal (limbs16 a) (doubleLimbs (offDiagonal (limbs16 a) (List.replicate nLimbs 0)) 0) 0

/-- `SQRW(a)`: the low and the high half (40_bigint.md R135). -/
def sqrValues (a : Nat) : Nat × Nat :=
  let t := sqrLimbs a
  (val (t.take nLimbs), val (t.drop nLimbs))

/-! ### Montgomery engine -/

/-- `if CMP(a, P) != LESS: a <- SUB(a, P)`: FOB's `reduce` (41_bn254.md R151). -/
def reduceOnce (a : Nat) : Nat :=
  match compareValues a p with
  | .less => a
  | .equal | .greater => (subValues a p).1

/-- Field addition (41_bn254.md R152): both triggers, the carry and the magnitude, are checked. -/
def fieldAdd (a b : Nat) : Nat :=
  let r := addValues a b
  if r.2 = 1 ∨ compareValues r.1 p ≠ .less then (subValues r.1 p).1 else r.1

/-- Field subtraction (41_bn254.md R153). -/
def fieldSub (a b : Nat) : Nat :=
  let r := subValues a b
  if r.2 = 1 then (addValues r.1 p).1 else r.1

/-- Field negation (41_bn254.md R154). -/
def fieldNeg (a : Nat) : Nat := if a = 0 then 0 else (subValues p a).1

/-- The final conditional subtraction of the Montgomery datapaths (41_bn254.md R155, R157). -/
def subtractP (u : Nat) : Nat := if u ≥ p then u - p else u

/-- One round of CIOS for limb `ai` (41_bn254.md R155, steps 1 to 4). Between rounds the 18-limb
accumulator is the limbs `t[0..15]` and `t[16]`; `t[17]` is 0 there, and within the round it is
`t17`. The accumulator exists only within one step (10_state.md R45). -/
def ciosRound (b : List Nat) (t : List Nat × Nat) (ai : Nat) : List Nat × Nat :=
  -- (1) multiply-accumulate a_i * b
  let r := macRow ai b t.1 0
  let s := t.2 + r.2
  let t16 := s % limbBase
  let t17 := s / limbBase
  -- (2) the reduction multiplier
  let m := (r.1.headD 0 * minv) % limbBase
  -- (3) accumulate m * P, which makes limb 0 zero
  let r' := macRow m (limbs16 p) r.1 0
  let s' := t16 + r'.2
  -- (4) shift down by one limb, discarding limb 0
  (r'.1.tail ++ [s' % limbBase], t17 + s' / limbBase)

/-- The accumulator after the rounds of all limbs of `a` (41_bn254.md R155). -/
def ciosRounds (a b : List Nat) : List Nat × Nat :=
  a.foldl (ciosRound b) (List.replicate nLimbs 0, 0)

/-- `mont_mul_cios(a, b)` (41_bn254.md R155). -/
def montMul (a b : Nat) : Nat :=
  let t := ciosRounds (limbs16 a) (limbs16 b)
  subtractP (val (t.1 ++ [t.2]))

/-- The carry that runs up through the remaining limbs (41_bn254.md R157). -/
def ripple : List Nat → Nat → List Nat
  | t :: ts, c =>
    let s := t + c
    s % limbBase :: ripple ts (s / limbBase)
  | [], _ => []

/-- The rounds of the classic reduction on the limbs `L[i .. 32]`; each makes limb `i` zero, and the
next round works above it (41_bn254.md R157). -/
def reduceRounds : Nat → List Nat → List Nat
  | 0, l => l
  | n + 1, l =>
    let q := (l.headD 0 * minv) % limbBase
    let r := macRow q (limbs16 p) (l.take nLimbs) 0
    reduceRounds n (r.1 ++ ripple (l.drop nLimbs) r.2).tail

/-- `mont_reduce` on 32 limbs and the extra overflow limb (41_bn254.md R157). -/
def montReduceLimbs (l : List Nat) : Nat := subtractP (val (reduceRounds nLimbs (l ++ [0])))

/-- `mont_reduce(T)` of a 512-bit value (41_bn254.md R157). -/
def montReduce (t : Nat) : Nat := montReduceLimbs (limbs (2 * nLimbs) t)

/-- `sqr(a)`: the full square, then the classic reduction (41_bn254.md R156). -/
def montSqr (a : Nat) : Nat := montReduceLimbs (sqrLimbs a)

/-! ### Mersenne engine -/

/-- The shift-add reduction with one conditional subtraction (42_m31.md R181). -/
def mersenneReduce (x : Nat) : Nat :=
  let r := (x &&& q31) + (x >>> 31)
  if r ≥ q31 then r - q31 else r

/-- Mersenne addition (42_m31.md R182). -/
def mersenneAdd (a b : Nat) : Nat := mersenneReduce (a + b)

/-- Mersenne multiplication: three chunks of the product, summed, then two passes of the reduction
(42_m31.md R183, 90_conflicts.md C4). -/
def mersenneMul (a b : Nat) : Nat :=
  let y := a * b
  let s := bits y 30 0 + bits y 61 31 + bits y 63 62
  mersenneReduce (mersenneReduce s)

/-! ### Fold -/

/-- The XOR of the 16 limbs (43_datamove.md R196). -/
def foldLimbs (a : Nat) : Nat := (limbs16 a).foldl (fun f l => f ^^^ l) 0

end Sys2Proof.Machine
end

