-- ==== Sys2Proof/Machine/Ops.lean ====
section
/-! DEFINITION. The named operations over memory, registers and the program counter, the fetch, and
the one exception mechanism, the lane fault (60_exceptions.md R240, R241). There is no return from a
lane fault (R248): only a new launch leaves FAULTED (`State.hostLaunch`, HostOps.lean). -/

namespace Sys2Proof.Machine

/-! ### Byte memory -/

/-- What an unlisted address reads as. DESIGN CHOICE (log 4). -/
def Memory.unlisted : Byte := 0

/-- The byte at an address. -/
def Memory.read : Memory → Nat → Byte
  | [], _ => Memory.unlisted
  | (k, v) :: m, a => if k = a then v else Memory.read m a

/-- Writing a byte, in the canonical form: a byte equal to what an unlisted address reads as leaves
the list. -/
def Memory.write : Memory → Nat → Byte → Memory
  | [], a, v => if v = Memory.unlisted then [] else [(a, v)]
  | (k, u) :: m, a, v =>
    if a < k then (if v = Memory.unlisted then (k, u) :: m else (a, v) :: (k, u) :: m)
    else if a = k then (if v = Memory.unlisted then m else (a, v) :: m)
    else (k, u) :: Memory.write m a v

/-- The canonical form: addresses strictly rising, no byte equal to what an unlisted address reads
as. -/
abbrev Memory.wf (m : Memory) : Prop :=
  m.Pairwise (fun c d => c.1 < d.1) ∧ ∀ c ∈ m, c.2 ≠ Memory.unlisted

/-- Word `i` of a space in the host's byte view (20_memory.md R75). -/
def Memory.readWord (m : Memory) (i : Nat) : Word32 :=
  wordOfBytes (m.read (4 * i)) (m.read (4 * i + 1)) (m.read (4 * i + 2)) (m.read (4 * i + 3))

/-- Writing word `i` of a space in the host's byte view (20_memory.md R75). -/
def Memory.writeWord (m : Memory) (i : Nat) (w : Word32) : Memory :=
  (((m.write (4 * i) (byteOf w 0)).write (4 * i + 1) (byteOf w 1)).write (4 * i + 2)
    (byteOf w 2)).write (4 * i + 3) (byteOf w 3)

/-! ### Shared spaces -/

/-- `MemRead(IMEM, i)`, if the program memory has a word `i` (20_memory.md R70, R78). -/
def Shared.imemWord (sh : Shared) (i : Nat) : Option Word32 :=
  if i < sh.imemWords then some (sh.imem.readWord i) else none

/-- `MemRead(INPUT, i mod 16)` (20_memory.md R71). -/
def Shared.inputWord (sh : Shared) (i : Nat) : Word32 := sh.input[Fin.ofNat 16 i]

/-- `MemRead(PARAMS, 0)`, the iteration count (20_memory.md R72). -/
def Shared.iterations (sh : Shared) : Word32 := sh.params[0]

/-- `MemRead(PARAMS, 1)`, the seed (20_memory.md R72). -/
def Shared.seed (sh : Shared) : Word32 := sh.params[1]

/-! ### Registers and the program counter of a lane -/

/-- Reading an operand register; ⊥ raises UNWRITTEN_REG (00_scope.md R12, 60_exceptions.md R243). -/
def Lane.readReg (l : Lane) (n : Reg) : Except Cause Word256 :=
  match l.x[n] with
  | some v => .ok v
  | none => .error .unwrittenReg

/-- Writing an operand register (00_scope.md R12); no write faults (60_exceptions.md R243). -/
def Lane.writeReg (l : Lane) (n : Reg) (v : Nat) : Lane :=
  { l with x := l.x.set n (some (BitVec.ofNat 256 v)) }

/-- `pc <- (pc + 1) mod 2^16` (10_state.md R35). -/
def Lane.advance (l : Lane) : Lane := { l with pc := l.pc + 1 }

/-- `pc <- (pc + sext_16(off16)) mod 2^16` (10_state.md R35, 44_loop_control.md R212, R213). -/
def Lane.branch (l : Lane) (off16 : BitVec 16) : Lane :=
  { l with pc := BitVec.ofInt 16 ((l.pc.toNat : Int) + sext16 off16) }

/-- `X[rd] <- v`, then the next command: how most commands end (41_bn254.md R150, 42_m31.md R180,
43_datamove.md R190). -/
def Lane.result (l : Lane) (rd : Reg) (v : Nat) : Lane := (l.writeReg rd v).advance

/-! ### Taking the exception: the lane fault -/

/-- Raising a fault writes `FAULT`, `FAULTPC` and `STATE` and nothing else (60_exceptions.md R241). -/
def Lane.raise (l : Lane) (c : Cause) : Lane :=
  { l with fault := some c, faultpc := l.pc, state := .faulted }

/-- The lane in front raises a fault (60_exceptions.md R241). -/
def State.fail (s : State) (c : Cause) : State := { s with lane := s.lane.raise c }

/-- Ends a command: the lane in front becomes what its checks and writes gave, or raises the fault of
the first check that failed, with nothing written (60_exceptions.md R241, R246). -/
def State.commit (s : State) (m : Except Cause Lane) : Host.Outcome State Fault Refusal :=
  match m with
  | .ok l => .next { s with lane := l }
  | .error c => .next (s.fail c)

/-! ### Fetch -/

/-- Fetch and decode for the lane in front (70_reset_and_hazards.md R280; the order of the two checks
is 60_exceptions.md R246). -/
def State.fetchInstr (s : State) : Except Cause Instr :=
  match s.shared.imemWord s.lane.pc.toNat with
  | none => .error .fetchOob
  | some w =>
    match decode w with
    | .ok i => .ok i
    | .error _ => .error .illegalInsn

end Sys2Proof.Machine
end

