-- ==== Sys2Proof/Machine/Flags.lean ====
section
/-! DEFINITION. The two flags (10_state.md R36, R37), the word RDF reads them as (43_datamove.md
R197), and the codes of the other status fields (10_state.md R40, R41). -/

namespace Sys2Proof.Machine

/-- Writing `CF` from the carry or borrow that leaves limb 15 (10_state.md R36, 40_bigint.md R132,
R133). -/
def Lane.setCf (l : Lane) (c : Nat) : Lane := { l with cf := decide (c = 1) }

/-- Writing `CMPF` (10_state.md R37, 40_bigint.md R131). -/
def Lane.setCmpf (l : Lane) (r : Cmpf) : Lane := { l with cmpf := r }

/-- The code of `CMPF` (10_state.md R37). -/
def Cmpf.code : Cmpf → Nat
  | .equal => 0
  | .less => 1
  | .greater => 2

/-- `CMPF * 2 + CF`, what RDF reads (43_datamove.md R197). -/
def Lane.flagWord (l : Lane) : Nat := l.cmpf.code * 2 + l.cf.toNat

/-- The code of `STATE` (10_state.md R40). -/
def RunState.code : RunState → BitVec 2
  | .run => 0
  | .done => 1
  | .faulted => 2

/-- The code of a cause (60_exceptions.md R247). -/
def Cause.code : Cause → BitVec 4
  | .illegalInsn => 1
  | .fetchOob => 2
  | .unwrittenReg => 3
  | .precond => 4
  | .outTwice => 5
  | .noOutput => 6

/-- The code of `FAULT`, 0 for no fault (10_state.md R41, 60_exceptions.md R247). -/
def Lane.faultCode (l : Lane) : BitVec 4 :=
  match l.fault with
  | none => 0
  | some c => c.code

end Sys2Proof.Machine
end

