-- ==== Sys2Proof/Machine/Operands.lean ====
section
/-! DEFINITION. The operand forms: one source, two sources, a source pair, a destination pair, an
immediate limb (00_scope.md R12, 10_state.md R33, 30_encoding.md R107, R108), and the domain check
(60_exceptions.md R244). Sources are read in the order rs1, rs1+1, rs2 (R246). -/

namespace Sys2Proof.Machine

/-- `a = x[rs1]` (00_scope.md R12). -/
def Lane.source (l : Lane) (rs1 : Reg) : Except Cause Nat := do
  let a ← l.readReg rs1
  return a.toNat

/-- `a = x[rs1]`, `b = x[rs2]` (00_scope.md R12, 60_exceptions.md R246). -/
def Lane.sources (l : Lane) (rs1 rs2 : Reg) : Except Cause (Nat × Nat) := do
  let a ← l.readReg rs1
  let b ← l.readReg rs2
  return (a.toNat, b.toNat)

/-- The second register of the pair that `n` names (10_state.md R33). The wrap of `Fin` is never met:
`n` is even. -/
def Reg.high (n : Reg) : Reg := n + 1

/-- An odd pair number is no legal word and raises ILLEGAL_INSN (30_encoding.md R108). -/
def checkPair (n : Reg) : Except Cause Unit :=
  if n.isPair then .ok () else .error .illegalInsn

/-- The 512-bit value of a register pair, `x[n] + x[n+1] * 2^256` (10_state.md R33). -/
def Lane.sourcePair (l : Lane) (n : Reg) : Except Cause Nat := do
  let lo ← l.readReg n
  let hi ← l.readReg (Reg.high n)
  return lo.toNat + 2 ^ 256 * hi.toNat

/-- Writing a 512-bit value to a register pair, both halves in one step (10_state.md R33,
70_reset_and_hazards.md R282). -/
def Lane.writePair (l : Lane) (n : Reg) (lo hi : Nat) : Lane :=
  (l.writeReg n lo).writeReg (Reg.high n) hi

/-- A check of one step: the fault `c` unless `ok` holds (60_exceptions.md R246). -/
def require (ok : Bool) (c : Cause) : Except Cause Unit := if ok then .ok () else .error c

/-- The domain check: PRECOND unless the operands are in the command's domain (60_exceptions.md
R244). -/
def domain (ok : Bool) : Except Cause Unit := require ok .precond

/-- `imm16 * 2^(16*j)`, one limb set (30_encoding.md R107). -/
def limbImmediate (j : Fin 16) (imm16 : BitVec 16) : Nat := imm16.toNat * 2 ^ (16 * j.val)

end Sys2Proof.Machine
end

