-- ==== Sys2Proof/Machine/BigInt.lean ====
section
/-! DEFINITION. The big-integer commands (40_bigint.md R130 to R135). They are total on their operand
values: no PRECOND. -/

namespace Sys2Proof.Machine

/-- CMP (40_bigint.md R131). -/
def execCmp (rs1 rs2 : Reg) (s : State) : Host.Outcome State Fault Refusal :=
  s.commit do
    let (a, b) ← s.lane.sources rs1 rs2
    return (s.lane.setCmpf (compareValues a b)).advance

/-- ADD (40_bigint.md R132). -/
def execAdd (rd rs1 rs2 : Reg) (s : State) : Host.Outcome State Fault Refusal :=
  s.commit do
    let (a, b) ← s.lane.sources rs1 rs2
    let r := addValues a b
    return (s.lane.setCf r.2).result rd r.1

/-- SUB (40_bigint.md R133). -/
def execSub (rd rs1 rs2 : Reg) (s : State) : Host.Outcome State Fault Refusal :=
  s.commit do
    let (a, b) ← s.lane.sources rs1 rs2
    let r := subValues a b
    return (s.lane.setCf r.2).result rd r.1

/-- MULW (40_bigint.md R134). -/
def execMulw (rd rs1 rs2 : Reg) (s : State) : Host.Outcome State Fault Refusal :=
  s.commit do
    checkPair rd
    let (a, b) ← s.lane.sources rs1 rs2
    let y := mulValues a b
    return (s.lane.writePair rd y.1 y.2).advance

/-- SQRW (40_bigint.md R135). -/
def execSqrw (rd rs1 : Reg) (s : State) : Host.Outcome State Fault Refusal :=
  s.commit do
    checkPair rd
    let a ← s.lane.source rs1
    let y := sqrValues a
    return (s.lane.writePair rd y.1 y.2).advance

end Sys2Proof.Machine
end

