-- ==== Sys2Proof/Machine/Bn254.lean ====
section
/-! DEFINITION. The BN254 field commands (41_bn254.md R150 to R159). Each checks its domain (60_exceptions.md
R244), writes one register and no flag. The laws of the family (R161) are laws of these meanings: FieldLaws,
FieldResultsBelowP, MontgomeryRoundTrip, MontgomeryFormMultiplies and FsqrIsMontgomerySquare state them. -/

namespace Sys2Proof.Machine

open Config

/-- FRED (41_bn254.md R151). -/
def execFred (rd rs1 : Reg) (s : State) : Host.Outcome State Fault Refusal :=
  s.commit do
    let a ← s.lane.source rs1
    domain (decide (a < 2 * p))
    return s.lane.result rd (reduceOnce a)

/-- FADD (41_bn254.md R152). -/
def execFadd (rd rs1 rs2 : Reg) (s : State) : Host.Outcome State Fault Refusal :=
  s.commit do
    let (a, b) ← s.lane.sources rs1 rs2
    domain (decide (a < p ∧ b < p))
    return s.lane.result rd (fieldAdd a b)

/-- FSUB (41_bn254.md R153). -/
def execFsub (rd rs1 rs2 : Reg) (s : State) : Host.Outcome State Fault Refusal :=
  s.commit do
    let (a, b) ← s.lane.sources rs1 rs2
    domain (decide (a < p ∧ b < p))
    return s.lane.result rd (fieldSub a b)

/-- FNEG (41_bn254.md R154). -/
def execFneg (rd rs1 : Reg) (s : State) : Host.Outcome State Fault Refusal :=
  s.commit do
    let a ← s.lane.source rs1
    domain (decide (a < p))
    return s.lane.result rd (fieldNeg a)

/-- FMUL (41_bn254.md R155). -/
def execFmul (rd rs1 rs2 : Reg) (s : State) : Host.Outcome State Fault Refusal :=
  s.commit do
    let (a, b) ← s.lane.sources rs1 rs2
    domain (decide (a < p ∧ b < p))
    return s.lane.result rd (montMul a b)

/-- FSQR (41_bn254.md R156). -/
def execFsqr (rd rs1 : Reg) (s : State) : Host.Outcome State Fault Refusal :=
  s.commit do
    let a ← s.lane.source rs1
    domain (decide (a < p))
    return s.lane.result rd (montSqr a)

/-- FMRED (41_bn254.md R157). -/
def execFmred (rd rs1 : Reg) (s : State) : Host.Outcome State Fault Refusal :=
  s.commit do
    checkPair rs1
    let t ← s.lane.sourcePair rs1
    domain (decide (t < p * r))
    return s.lane.result rd (montReduce t)

/-- TOMONT: the multiplication by `R2` (41_bn254.md R158). -/
def execTomont (rd rs1 : Reg) (s : State) : Host.Outcome State Fault Refusal :=
  s.commit do
    let a ← s.lane.source rs1
    domain (decide (a < p))
    return s.lane.result rd (montMul a r2)

/-- FROMMONT: the reduction of the zero-extended value (41_bn254.md R159). -/
def execFrommont (rd rs1 : Reg) (s : State) : Host.Outcome State Fault Refusal :=
  s.commit do
    let a ← s.lane.source rs1
    domain (decide (a < p))
    return s.lane.result rd (montReduce a)

end Sys2Proof.Machine
end

