-- ==== Sys2Proof/Machine/DataMove.lean ====
section
/-! DEFINITION. Data movement, operand derivation and the fold (43_datamove.md R190 to R202). They are
total and write no flag. -/

namespace Sys2Proof.Machine

/-- MOV (43_datamove.md R191). -/
def execMov (rd rs1 : Reg) (s : State) : Host.Outcome State Fault Refusal :=
  s.commit do
    let a ← s.lane.source rs1
    return s.lane.result rd a

/-- XOR (43_datamove.md R192). -/
def execXor (rd rs1 rs2 : Reg) (s : State) : Host.Outcome State Fault Refusal :=
  s.commit do
    let (a, b) ← s.lane.sources rs1 rs2
    return s.lane.result rd (a ^^^ b)

/-- LOWB (43_datamove.md R193). -/
def execLowb (rd rs1 : Reg) (s : State) : Host.Outcome State Fault Refusal :=
  s.commit do
    let a ← s.lane.source rs1
    return s.lane.result rd (bits a 7 0)

/-- MUL32 (43_datamove.md R194). -/
def execMul32 (rd rs1 rs2 : Reg) (s : State) : Host.Outcome State Fault Refusal :=
  s.commit do
    let (a, b) ← s.lane.sources rs1 rs2
    return s.lane.result rd (bits a 31 0 * bits b 31 0 % 2 ^ 32)

/-- ZGUARD (43_datamove.md R195). -/
def execZguard (rd rs1 : Reg) (s : State) : Host.Outcome State Fault Refusal :=
  s.commit do
    let a ← s.lane.source rs1
    return s.lane.result rd (if a = 0 then 1 else a)

/-- XFOLD (43_datamove.md R196). -/
def execXfold (rd rs1 : Reg) (s : State) : Host.Outcome State Fault Refusal :=
  s.commit do
    let a ← s.lane.source rs1
    return s.lane.result rd (foldLimbs a)

/-- RDF (43_datamove.md R197). -/
def execRdf (rd : Reg) (s : State) : Host.Outcome State Fault Refusal :=
  s.commit (.ok (s.lane.result rd s.lane.flagWord))

/-- LDI (43_datamove.md R198). -/
def execLdi (rd : Reg) (j : Fin 16) (imm16 : BitVec 16) (s : State) :
    Host.Outcome State Fault Refusal :=
  s.commit (.ok (s.lane.result rd (limbImmediate j imm16)))

/-- LDK; an index above 3 is no legal word and raises ILLEGAL_INSN (43_datamove.md R199, 10_state.md
R54). -/
def execLdk (rd : Reg) (k4 : Fin 16) (s : State) : Host.Outcome State Fault Refusal :=
  match Config.rom k4.val with
  | some c => s.commit (.ok (s.lane.result rd c))
  | none => s.commit (.error .illegalInsn)

/-- LDIN (43_datamove.md R200, 20_memory.md R71). -/
def execLdin (rd : Reg) (off4 : Fin 16) (s : State) : Host.Outcome State Fault Refusal :=
  s.commit (.ok (s.lane.result rd (s.shared.inputWord (s.lane.tid.toNat + off4.val)).toNat))

/-- LDTID (43_datamove.md R201). -/
def execLdtid (rd : Reg) (s : State) : Host.Outcome State Fault Refusal :=
  s.commit (.ok (s.lane.result rd s.lane.tid.toNat))

/-- LDSEED (43_datamove.md R202). -/
def execLdseed (rd : Reg) (s : State) : Host.Outcome State Fault Refusal :=
  s.commit (.ok (s.lane.result rd s.shared.seed.toNat))

end Sys2Proof.Machine
end

