-- ==== Sys2Proof/Machine/LoopControl.lean ====
section
/-! DEFINITION. The accumulation loop controller (44_loop_control.md R210 to R215). -/

namespace Sys2Proof.Machine

/-- LDLC (44_loop_control.md R211). -/
def execLdlc (s : State) : Host.Outcome State Fault Refusal :=
  s.commit (.ok { s.lane.advance with lc := s.shared.iterations })

/-- LCBZ (44_loop_control.md R212). -/
def execLcbz (off16 : BitVec 16) (s : State) : Host.Outcome State Fault Refusal :=
  s.commit (.ok
    (if s.lane.lc = 0 then s.lane.branch off16 else { s.lane.advance with lc := s.lane.lc - 1 }))

/-- JMP (44_loop_control.md R213). -/
def execJmp (off16 : BitVec 16) (s : State) : Host.Outcome State Fault Refusal :=
  s.commit (.ok (s.lane.branch off16))

/-- STOUT (44_loop_control.md R214); the operand is read before OUTW is checked (60_exceptions.md
R246). -/
def execStout (rs1 : Reg) (s : State) : Host.Outcome State Fault Refusal :=
  s.commit do
    let v ← s.lane.source rs1
    require (!s.lane.outw) .outTwice
    return { s.lane.advance with out := some (BitVec.ofNat 32 (bits v 31 0)), outw := true }

/-- HALT; `pc` keeps its own index (44_loop_control.md R215). -/
def execHalt (s : State) : Host.Outcome State Fault Refusal :=
  s.commit do
    require s.lane.outw .noOutput
    return { s.lane with state := .done }

end Sys2Proof.Machine
end

