-- ==== Sys2Proof/Machine/Mersenne.lean ====
section
/-! DEFINITION. The Mersenne field commands (42_m31.md R180 to R183). The domain is checked on the
whole 256-bit value (10_state.md R34). -/

namespace Sys2Proof.Machine

open Config

/-- MRED (42_m31.md R181). -/
def execMred (rd rs1 : Reg) (s : State) : Host.Outcome State Fault Refusal :=
  s.commit do
    let a ← s.lane.source rs1
    domain (decide (a < 2 ^ 32))
    return s.lane.result rd (mersenneReduce a)

/-- MADD (42_m31.md R182). -/
def execMadd (rd rs1 rs2 : Reg) (s : State) : Host.Outcome State Fault Refusal :=
  s.commit do
    let (a, b) ← s.lane.sources rs1 rs2
    domain (decide (a < q31 ∧ b < q31))
    return s.lane.result rd (mersenneAdd a b)

/-- MMUL (42_m31.md R183). -/
def execMmul (rd rs1 rs2 : Reg) (s : State) : Host.Outcome State Fault Refusal :=
  s.commit do
    let (a, b) ← s.lane.sources rs1 rs2
    domain (decide (a < q31 ∧ b < q31))
    return s.lane.result rd (mersenneMul a b)

end Sys2Proof.Machine
end

