-- ==== Sys2Proof/Machine/Dispatch.lean ====
section
/-! DEFINITION. The meaning of each command, on the lane in front (one arm a constructor). -/

namespace Sys2Proof.Machine

def exec (i : Instr) (s : State) : Host.Outcome State Fault Refusal :=
  match i with
  -- 40_bigint.md
  | .cmp rs1 rs2 => Sys2Proof.Machine.execCmp rs1 rs2 s
  | .add rd rs1 rs2 => Sys2Proof.Machine.execAdd rd rs1 rs2 s
  | .sub rd rs1 rs2 => Sys2Proof.Machine.execSub rd rs1 rs2 s
  | .mulw rd rs1 rs2 => Sys2Proof.Machine.execMulw rd rs1 rs2 s
  | .sqrw rd rs1 => Sys2Proof.Machine.execSqrw rd rs1 s
  -- 41_bn254.md
  | .fred rd rs1 => Sys2Proof.Machine.execFred rd rs1 s
  | .fadd rd rs1 rs2 => Sys2Proof.Machine.execFadd rd rs1 rs2 s
  | .fsub rd rs1 rs2 => Sys2Proof.Machine.execFsub rd rs1 rs2 s
  | .fneg rd rs1 => Sys2Proof.Machine.execFneg rd rs1 s
  | .fmul rd rs1 rs2 => Sys2Proof.Machine.execFmul rd rs1 rs2 s
  | .fsqr rd rs1 => Sys2Proof.Machine.execFsqr rd rs1 s
  | .fmred rd rs1 => Sys2Proof.Machine.execFmred rd rs1 s
  | .tomont rd rs1 => Sys2Proof.Machine.execTomont rd rs1 s
  | .frommont rd rs1 => Sys2Proof.Machine.execFrommont rd rs1 s
  -- 42_m31.md
  | .mred rd rs1 => Sys2Proof.Machine.execMred rd rs1 s
  | .madd rd rs1 rs2 => Sys2Proof.Machine.execMadd rd rs1 rs2 s
  | .mmul rd rs1 rs2 => Sys2Proof.Machine.execMmul rd rs1 rs2 s
  -- 43_datamove.md
  | .mov rd rs1 => Sys2Proof.Machine.execMov rd rs1 s
  | .xor rd rs1 rs2 => Sys2Proof.Machine.execXor rd rs1 rs2 s
  | .lowb rd rs1 => Sys2Proof.Machine.execLowb rd rs1 s
  | .mul32 rd rs1 rs2 => Sys2Proof.Machine.execMul32 rd rs1 rs2 s
  | .zguard rd rs1 => Sys2Proof.Machine.execZguard rd rs1 s
  | .xfold rd rs1 => Sys2Proof.Machine.execXfold rd rs1 s
  | .rdf rd => Sys2Proof.Machine.execRdf rd s
  | .ldi rd j imm16 => Sys2Proof.Machine.execLdi rd j imm16 s
  | .ldk rd k4 => Sys2Proof.Machine.execLdk rd k4 s
  | .ldin rd off4 => Sys2Proof.Machine.execLdin rd off4 s
  | .ldtid rd => Sys2Proof.Machine.execLdtid rd s
  | .ldseed rd => Sys2Proof.Machine.execLdseed rd s
  -- 44_loop_control.md
  | .ldlc => Sys2Proof.Machine.execLdlc s
  | .lcbz off16 => Sys2Proof.Machine.execLcbz off16 s
  | .jmp off16 => Sys2Proof.Machine.execJmp off16 s
  | .stout rs1 => Sys2Proof.Machine.execStout rs1 s
  | .halt => Sys2Proof.Machine.execHalt s

end Sys2Proof.Machine
end

