-- ==== Sys2Proof/Machine/Lanes.lean ====
section
/-! DEFINITION. The lanes of the block and which of them moves next (20_memory.md R84,
70_reset_and_hazards.md R280, 60_exceptions.md R258). -/

namespace Sys2Proof.Machine

/-- The lane may step (10_state.md R40). -/
def Lane.running (l : Lane) : Bool :=
  match l.state with
  | .run => true
  | .done | .faulted => false

/-- All lanes in TID order (20_memory.md R84). -/
def State.lanes (s : State) : List Lane := s.before ++ s.lane :: s.after

/-- `N_LANES` (00_scope.md R9). -/
def State.nLanes (s : State) : Nat := s.lanes.length

/-- Lane `k` is a lane of the block and in RUN. -/
def State.canStep (s : State) (k : Nat) : Bool :=
  match s.lanes[k]? with
  | some l => l.running
  | none => false

/-- The lane that moves when the schedule names none: the lane in front while it is in RUN, else the
lowest lane in RUN, if any. DESIGN CHOICE (log 1). -/
def State.defaultLane (s : State) : Option Nat :=
  if s.lane.running then some s.before.length else s.lanes.findIdx? Lane.running

/-- The lane that moves next: the one the schedule names, if it is in RUN; any lane in RUN may be named
(20_memory.md R84, 70_reset_and_hazards.md R280). -/
def State.nextLane (s : State) : Option Nat :=
  match s.sched with
  | [] => s.defaultLane
  | k :: _ => if s.canStep k then some k else s.defaultLane

/-- Lane `k` comes to the front; no lane changes. -/
def State.focus (s : State) (k : Nat) : Option State :=
  match s.lanes.drop k with
  | [] => none
  | l :: rest => some { s with before := s.lanes.take k, lane := l, after := rest }

/-- The state in which the lane that moves next is in front and the schedule has advanced; none when no
lane is in RUN. -/
def State.select (s : State) : Option State :=
  match s.nextLane with
  | none => none
  | some k => ({ s with sched := s.sched.tail } : State).focus k

/-- The index of the command word that the next step fetches; when no lane is in RUN, the `pc` of the
lane in front. -/
def State.fetchPc (s : State) : BitVec 16 :=
  match s.select with
  | none => s.lane.pc
  | some t => t.lane.pc

end Sys2Proof.Machine
end

