-- ==== Sys2Proof/Machine/Step.lean ====
section
/-! DEFINITION. One step of the block: one step of one lane in RUN (70_reset_and_hazards.md R280). -/

namespace Sys2Proof.Machine

/-- One step of the lane in front, which is in RUN: fetch, decode, execute (70_reset_and_hazards.md
R280). -/
def State.stepFront (s : State) : Host.Outcome State Fault Refusal :=
  match s.fetchInstr with
  | .error c => .next (s.fail c)
  | .ok i => exec i s

/-- One step of the block: the lane that moves next takes its step. When no lane is in RUN the run has
ended and there is no step (20_memory.md R88; log 9). -/
def step (s : State) : Host.Outcome State Fault Refusal :=
  match s.select with
  | none => .fault .runEnded
  | some t => t.stepFront

/-- `s` with the instruction whose bits are the low `nbits` bits of `w` in the word of IMEM that the
next step fetches; IMEM_WORDS grows if that word lies beyond it (log 11). -/
def State.withFetchWord (s : State) (nbits w : Nat) : State :=
  { s with
    shared :=
      { s.shared with
        imemWords := max s.shared.imemWords (s.fetchPc.toNat + 1)
        imem := s.shared.imem.writeWord s.fetchPc.toNat (BitVec.ofNat 32 (w % 2 ^ nbits)) } }

end Sys2Proof.Machine
end

