-- ==== Sys2Proof/Machine/HostOps.lean ====
section
/-! DEFINITION. The host interface (20_memory.md R84 to R89, 70_reset_and_hazards.md R270 to R274): what
the host does before a launch and after a run. None of it is part of `step`: during a run the host has
no move (R87), so every action here is refused (`none`) while a lane is in RUN. Abandoning a dispatch
(R89) has no meaning (log 12). -/

namespace Sys2Proof.Machine

/-! ### The end of a run -/

/-- A run has ended when every lane is DONE or FAULTED (20_memory.md R88). -/
def State.runEnded (s : State) : Bool := s.lanes.all fun l => !l.running

/-- The run succeeded when every lane is DONE (20_memory.md R88). -/
def State.runSucceeded (s : State) : Bool := s.lanes.all fun l => decide (l.state = .done)

/-! ### The memory spaces by name -/

/-- The four memory spaces (20_memory.md R70). -/
inductive Space where
  /-- Program memory. -/
  | imem
  /-- Input buffer. -/
  | input
  /-- Parameter record. -/
  | params
  /-- Output words, one a lane. -/
  | outbuf
deriving DecidableEq, Repr

/-- How many words a space has (20_memory.md R70). -/
def State.spaceWords (s : State) : Space → Nat
  | .imem => s.shared.imemWords
  | .input => 16
  | .params => 4
  | .outbuf => s.nLanes

/-- `MemRead(space, i)` (20_memory.md R70). Word `t` of OUTBUF is the OUT register of lane `t` (R73); it
has no value before that lane's STOUT (70_reset_and_hazards.md R272). -/
def State.memRead (s : State) (sp : Space) (i : Nat) : Option Word32 :=
  match sp with
  | .imem => s.shared.imemWord i
  | .input => s.shared.input[i]?
  | .params => s.shared.params[i]?
  | .outbuf => s.lanes[i]?.bind Lane.out

/-- A space as the host sees it in bytes, each word little-endian (20_memory.md R75). -/
def State.hostByte (s : State) (sp : Space) (a : Nat) : Option Byte :=
  (s.memRead sp (a / 4)).map fun w => byteOf w (a % 4)

/-! ### Before the launch -/

/-- The program written into IMEM from word `i` on (20_memory.md R85). -/
def writeProgram (m : Memory) (i : Nat) : List Word32 → Memory
  | [] => m
  | w :: ws => writeProgram (m.writeWord i w) (i + 1) ws

/-- The shared spaces after the host wrote a program, the input words and the parameter record
(20_memory.md R85, 70_reset_and_hazards.md R274 steps 1 to 3). IMEM_WORDS is the program's length.
DESIGN CHOICE: a program of 0 or of more than 65536 words, outside R9 and R70, is loaded all the same
(log 17). -/
def Shared.load (program : List Word32) (input : Vector Word32 16) (params : Vector Word32 4) :
    Shared where
  imemWords := program.length
  imem := writeProgram [] 0 program
  input := input
  params := params

/-- A parameter record (20_memory.md R72). -/
def paramRecord (iterations seed reserved0 reserved1 : Word32) : Vector Word32 4 :=
  #v[iterations, seed, reserved0, reserved1]

/-- The boot: steps 1 to 4 (70_reset_and_hazards.md R274). DESIGN CHOICE: neither the program's length nor
`nLanes` is checked against R9 (log 17). -/
def State.boot (program : List Word32) (input : Vector Word32 16) (params : Vector Word32 4)
    (nLanes : Nat) (sched : List Nat) : State :=
  State.launch nLanes (Shared.load program input params) sched

/-! ### After a run, before the next launch -/

/-- Rewriting the shared spaces, between runs only (20_memory.md R85, R87). DESIGN CHOICE: IMEM_WORDS is
not checked against R9 and R70 (log 17). -/
def State.hostLoad (s : State) (shared : Shared) : Option State :=
  if s.runEnded then some { s with shared := shared } else none

/-- Writing one word of IMEM, between runs only (20_memory.md R85, R87). -/
def State.hostWriteImem (s : State) (i : Nat) (w : Word32) : Option State :=
  if s.runEnded ∧ i < s.shared.imemWords then
    some { s with shared := { s.shared with imem := s.shared.imem.writeWord i w } }
  else none

/-- Launching again after the end of a run: every lane starts in the launch state and nothing but the
shared spaces survives (70_reset_and_hazards.md R270, R273). DESIGN CHOICE: an N_LANES outside R9 is
refused (log 17). -/
def State.hostLaunch (s : State) (nLanes : Nat) (sched : List Nat) : Option State :=
  if s.runEnded ∧ 1 ≤ nLanes ∧ nLanes ≤ Config.maxLanes then
    some (State.launch nLanes s.shared sched)
  else none

/-! ### After a run -/

/-- The outputs of a run that succeeded, word `t` of lane `t`; a dispatch with a faulted lane has none
(20_memory.md R88). -/
def State.outputs (s : State) : Option (List Word32) :=
  if s.runSucceeded then s.lanes.mapM Lane.out else none

/-- What the host reads of a lane after a run: STATE, FAULT, FAULTPC and OUTW (10_state.md R44). -/
structure LaneStatus where
  /-- The code of STATE. -/
  state : BitVec 2
  /-- The code of FAULT. -/
  fault : BitVec 4
  /-- FAULTPC. -/
  faultpc : BitVec 16
  /-- OUTW. -/
  outw : Bool
deriving DecidableEq, Repr

/-- The status of lane `t`, once the run has ended (10_state.md R44, 20_memory.md R88). -/
def State.laneStatus (s : State) (t : Nat) : Option LaneStatus :=
  if s.runEnded then
    s.lanes[t]?.map fun l => ⟨l.state.code, l.faultCode, l.faultpc, l.outw⟩
  else none

end Sys2Proof.Machine
end

