-- ==== Sys2Proof/Safety.lean ====
section
/-! DEFINITION. What claims mean by a consistent block and by a safe run: the relations between fields
that every launch sets up and every step keeps, and a run without a lane fault (60_exceptions.md R249:
faults exist for programs that break the caller contract). -/

namespace Sys2Proof.Machine

/-- The relations between the status registers of one lane (10_state.md R39 to R42, 44_loop_control.md
R215, 60_exceptions.md R241): OUT holds a value exactly when OUTW is set; the lane is FAULTED exactly
when FAULT is not NONE; FAULTPC is 0 without a fault and the lane's pc with one; a DONE lane has
written its output word. -/
abbrev Lane.Consistent (l : Lane) : Prop :=
  l.outw = l.out.isSome ∧ (l.state = .faulted ↔ l.fault.isSome = true) ∧
    (l.fault = none → l.faultpc = 0) ∧ (l.fault.isSome = true → l.faultpc = l.pc) ∧
    (l.state = .done → l.outw = true)

/-- The shared spaces are within their bounds (00_scope.md R9) and IMEM is in its canonical form. -/
abbrev Shared.Consistent (sh : Shared) : Prop :=
  1 ≤ sh.imemWords ∧ sh.imemWords ≤ Config.maxImemWords ∧ Memory.wf sh.imem ∧
    ∀ c ∈ sh.imem, c.1 < 4 * sh.imemWords

/-- Lane `t` has `TID = t`, for `t = 0 .. N_LANES - 1`, and N_LANES is in its bounds (00_scope.md R9,
10_state.md R43, 60_exceptions.md R258). -/
abbrev State.LanesNumbered (s : State) : Prop :=
  s.nLanes ≤ Config.maxLanes ∧
    s.lanes.map Lane.tid = (List.range s.nLanes).map (BitVec.ofNat 32)

/-- The invariant of the block: it holds at reset and after every launch, and every step keeps it. -/
abbrev State.Inv (s : State) : Prop :=
  s.shared.Consistent ∧ s.LanesNumbered ∧ ∀ l ∈ s.lanes, l.Consistent

/-- No lane has faulted: the dispatch can still succeed (20_memory.md R88). -/
def State.NoFault (s : State) : Prop := ∀ l ∈ s.lanes, l.state ≠ .faulted

end Sys2Proof.Machine
end

