-- ==== Sys2Proof/Certificates/Slice0/Obligations.lean ====
section
/-! DEFINITION. The statements for the provers, from the numbered rules of spec/. The small definitions
of `Sys2Proof.Claims` say in plain state updates what a rule says; they do not call the model's own
operations. -/

namespace Sys2Proof.Claims

open Sys2Proof.Machine

/-- `s` with the value `v` in `X[rd]` of the lane in front and its pc at the next command; every other
part of the block, flags, special registers, other lanes and every memory space included, as before. -/
def wrote (s : State) (rd : Reg) (v : Nat) : State :=
  { s with
    lane := { s.lane with x := s.lane.x.set rd (some (BitVec.ofNat 256 v)), pc := s.lane.pc + 1 } }

/-- `s` after a step of the lane in front that raised the fault `c`: FAULT, FAULTPC and STATE are
written and every other part of the block is as before (60_exceptions.md R241). -/
def faulted (s : State) (c : Cause) : State :=
  { s with lane := { s.lane with fault := some c, faultpc := s.lane.pc, state := .faulted } }

/-- The words that decode to `i` are exactly the number `n`. -/
def EncodedBy (i : Instr) (n : Nat) : Prop := ∀ w : Word32, decode w = .ok i ↔ w.toNat = n

/-- Format R as a number (30_encoding.md R102). -/
def formatR (op rd rs1 rs2 : Nat) : Nat := op * 2 ^ 26 + rd * 2 ^ 23 + rs1 * 2 ^ 20 + rs2 * 2 ^ 17

/-- Format K as a number (30_encoding.md R104). -/
def formatK (op rd k4 : Nat) : Nat := op * 2 ^ 26 + rd * 2 ^ 23 + k4 * 2 ^ 19

/-- `Rinv`: the integer in `[0, P)` with `R * Rinv mod P = 1` (41_bn254.md introduction). -/
def IsRinv (rinv : Nat) : Prop := rinv < Config.p ∧ 2 ^ 256 * rinv % Config.p = 1

/-- The state after `n` steps of the block, if all of them exist. -/
def after : Nat → State → Option State
  | 0, s => some s
  | n + 1, s =>
    match step s with
    | .next t => after n t
    | .fault _ => none
    | .refused _ => none

/-- The operand registers a command reads (60_exceptions.md R243, R246). -/
def readsOf : Instr → List Reg
  | .cmp rs1 rs2 => [rs1, rs2]
  | .add _ rs1 rs2 | .sub _ rs1 rs2 | .mulw _ rs1 rs2 => [rs1, rs2]
  | .fadd _ rs1 rs2 | .fsub _ rs1 rs2 | .fmul _ rs1 rs2 => [rs1, rs2]
  | .madd _ rs1 rs2 | .mmul _ rs1 rs2 | .xor _ rs1 rs2 | .mul32 _ rs1 rs2 => [rs1, rs2]
  | .sqrw _ rs1 | .fred _ rs1 | .fneg _ rs1 | .fsqr _ rs1 | .tomont _ rs1 | .frommont _ rs1 => [rs1]
  | .mred _ rs1 | .mov _ rs1 | .lowb _ rs1 | .zguard _ rs1 | .xfold _ rs1 | .stout rs1 => [rs1]
  | .fmred _ rs1 => [rs1, rs1 + 1]
  | .rdf _ | .ldi _ _ _ | .ldk _ _ | .ldin _ _ | .ldtid _ | .ldseed _ => []
  | .ldlc | .lcbz _ | .jmp _ | .halt => []

/-- The number an operand register holds (0 for ⊥, which no clause of a claim uses). -/
def valueOf (s : State) (n : Reg) : Nat := (s.lane.x[n].getD 0).toNat

/-- The domain table (60_exceptions.md R244). -/
def inDomain (i : Instr) (s : State) : Prop :=
  match i with
  | .fred _ rs1 => valueOf s rs1 < 2 * Config.p
  | .fadd _ rs1 rs2 | .fsub _ rs1 rs2 | .fmul _ rs1 rs2 =>
    valueOf s rs1 < Config.p ∧ valueOf s rs2 < Config.p
  | .fneg _ rs1 | .fsqr _ rs1 | .tomont _ rs1 | .frommont _ rs1 => valueOf s rs1 < Config.p
  | .fmred _ rs1 => valueOf s rs1 + 2 ^ 256 * valueOf s (rs1 + 1) < Config.p * 2 ^ 256
  | .mred _ rs1 => valueOf s rs1 < 2 ^ 32
  | .madd _ rs1 rs2 | .mmul _ rs1 rs2 => valueOf s rs1 < Config.q31 ∧ valueOf s rs2 < Config.q31
  | _ => True

/-- The output-protocol faults (60_exceptions.md R245). -/
def protocolFault (i : Instr) (s : State) : Option Cause :=
  match i with
  | .stout _ => if s.lane.outw then some .outTwice else none
  | .halt => if s.lane.outw then none else some .noOutput
  | _ => none

/-- `s` with the carry/borrow flag of the lane in front set to `c`. -/
def withCf (s : State) (c : Bool) : State := { s with lane := { s.lane with cf := c } }

/-- `s` with the compare result of the lane in front set to `r`. -/
def withCmpf (s : State) (r : Cmpf) : State := { s with lane := { s.lane with cmpf := r } }

/-- `s` with the loop counter of the lane in front set to `n`. -/
def withLc (s : State) (n : Word32) : State := { s with lane := { s.lane with lc := n } }

end Sys2Proof.Claims

open Sys2Proof Sys2Proof.Machine Sys2Proof.Claims

/-! ### Encoding -/

/-- The worked encodings of 30_encoding.md R115, in both directions. -/
def Obligations.WorkedWordsDecode : Prop :=
  ∀ c ∈ ([(.add 2 0 1, 0x09020000#32), (.cmp 1 2, 0x04140000#32), (.mulw 4 0 0, 0x12000000#32),
      (.ldi 3 1 0x9E37#16, 0x81889E37#32), (.ldin 1 1, 0x88880000#32), (.lcbz 6#16, 0xA4000006#32),
      (.jmp 0xFFFB#16, 0xA800FFFB#32), (.stout 0, 0xAC000000#32), (.halt, 0xB0000000#32)] :
      List (Instr × Word32)),
    encode c.1 = c.2 ∧ decode c.2 = .ok c.1

/-- Decode after encode gives every well-formed command back, every operand at every value the
encoding admits, from the word and from its bytes (30_encoding.md R100 to R109). -/
def Obligations.DecodeEncodeRoundTrip : Prop :=
  ∀ i : Instr, i.wellFormed = true →
    decode (encode i) = .ok i ∧ decodeBytes (encodeBytes i) = .ok i

/-- Encode after decode gives every legal word back: no bit of a legal word is ignored
(30_encoding.md R111, R112). -/
def Obligations.DecodedWordReencodes : Prop :=
  ∀ (w : Word32) (i : Instr), decode w = .ok i → encode i = w ∧ i.wellFormed = true

/-- A word is illegal exactly when (a) its op is not in the opcode map, (b) the mask and match test of
its op's row fails, or (c) that row's extra condition fails (30_encoding.md R111); and the row that
accepts a legal word names the decoded command. -/
def Obligations.IllegalWordsExactly : Prop :=
  (∀ w : Word32, (∃ e, decode w = .error e) ↔
    (∀ row ∈ opcodeMap, w.toNat / 2 ^ 26 ≠ row.pattern.toNat / 2 ^ 26) ∨
      (∃ row ∈ opcodeMap, w.toNat / 2 ^ 26 = row.pattern.toNat / 2 ^ 26 ∧
        w &&& row.mask ≠ row.pattern) ∨
      ∃ row ∈ opcodeMap, w.toNat / 2 ^ 26 = row.pattern.toNat / 2 ^ 26 ∧
        row.extra.holds w = false) ∧
    (∀ (w : Word32) (i : Instr), decode w = .ok i →
      ∃ row ∈ opcodeMap, row.accepts w = true ∧ row.mnemonic = i.mnemonic) ∧
    (∀ w : Word32, w.toNat / 2 ^ 26 ∈
        [0x00, 0x06, 0x07, 0x11, 0x12, 0x13, 0x17, 0x1F, 0x25, 0x26, 0x27] ∨
          0x2D ≤ w.toNat / 2 ^ 26 →
      ∃ e, decode w = .error e)

/-! ### The step -/

/-- A step runs the decoded command: with `t` the state in which the lane that moves next is in front,
a word at its pc that decodes to `i` makes the step `exec i t` (70_reset_and_hazards.md R280). With no
schedule, a lane in front that is in RUN stays in front (the model's choice, log 1). -/
def Obligations.StepRunsDecoded : Prop :=
  (∀ (s t : State) (w : Word32) (i : Instr), s.select = some t →
    t.shared.imemWord t.lane.pc.toNat = some w → decode w = .ok i → step s = exec i t) ∧
    ∀ s : State, s.sched = [] → s.lane.running = true → s.select = some s

/-- The two faults before a command runs: no word at pc raises FETCH_OOB, an illegal word raises
ILLEGAL_INSN, with the index of the word in FAULTPC (60_exceptions.md R242, R243 (a)). -/
def Obligations.FetchAndDecodeFaults : Prop :=
  (∀ s t : State, s.select = some t → t.shared.imemWords ≤ t.lane.pc.toNat →
    step s = .next (faulted t .fetchOob)) ∧
    ∀ (s t : State) (w : Word32) (e : DecodeError), s.select = some t →
      t.lane.pc.toNat < t.shared.imemWords → t.shared.imem.readWord t.lane.pc.toNat = w →
      decode w = .error e → step s = .next (faulted t .illegalInsn)

/-- Progress: while some lane is in RUN the block has a next state, and when none is it has no step
(20_memory.md R88, 70_reset_and_hazards.md R280). That the model calls the latter `runEnded` is its own
choice (log 9). -/
def Obligations.BlockStepsUntilRunEnds : Prop :=
  ∀ s : State,
    ((∃ l ∈ s.lanes, l.state = .run) → ∃ t, step s = .next t) ∧
      ((∀ l ∈ s.lanes, l.state ≠ .run) → step s = .fault .runEnded)

/-- Raising a fault: a step that leaves its lane FAULTED writes FAULT, FAULTPC (the pc) and STATE of
that lane and nothing else, and a lane that is FAULTED keeps its whole state through every later step
(60_exceptions.md R241). -/
def Obligations.FaultIsPreciseAndFinal : Prop :=
  (∀ s t u : State, s.select = some t → step s = .next u → u.lane.state = .faulted →
    ∃ c, u = faulted t c) ∧
    ∀ (s u : State) (k : Nat) (l : Lane), step s = .next u → s.lanes[k]? = some l →
      l.state = .faulted → u.lanes[k]? = some l

/-- The faults of a command, in their order: an operand register without a value, then the domain, then
the output protocol; a command that passes them all completes without a fault. All 34 commands
(60_exceptions.md R243 (b), R244, R245, R246). -/
def Obligations.CommandFaultsInOrder : Prop :=
  ∀ (i : Instr) (s : State), i.wellFormed = true →
    ((∃ n ∈ readsOf i, s.lane.x[n] = none) → exec i s = .next (faulted s .unwrittenReg)) ∧
      ((∀ n ∈ readsOf i, s.lane.x[n] ≠ none) →
        (¬ inDomain i s → exec i s = .next (faulted s .precond)) ∧
          (inDomain i s →
            (∀ c, protocolFault i s = some c → exec i s = .next (faulted s c)) ∧
              (protocolFault i s = none →
                ∃ t, exec i s = .next t ∧ t.lane.fault = s.lane.fault ∧
                  (t.lane.state = s.lane.state ∨ t.lane.state = .done))))

/-- A command that no legal word encodes (an odd pair, a ROM index above 3) is no command: no word
decodes to it (30_encoding.md R108, R109, R111). That `exec` of such a term raises ILLEGAL_INSN, as the
step of its word does, is the model's own reading (log 10). -/
def Obligations.IllFormedCommandIsIllegal : Prop :=
  ∀ (i : Instr) (s : State), i.wellFormed = false →
    exec i s = .next (faulted s .illegalInsn) ∧ ∀ w, decode w ≠ .ok i

/-- STATE: a step moves one lane that was in RUN; a lane in DONE or FAULTED keeps its whole state
(10_state.md R40, 60_exceptions.md R248). -/
def Obligations.OnlyRunningLanesMove : Prop :=
  ∀ (s t : State) (k : Nat) (l : Lane), step s = .next t → s.lanes[k]? = some l → l.state ≠ .run →
    t.lanes[k]? = some l

/-! ### Lanes and shared spaces -/

/-- A step changes at most one lane, and that lane was in RUN; every word and every byte of IMEM, INPUT
and PARAMS reads as before, and so does every word of OUTBUF but that lane's (20_memory.md R73, R79,
R82; 60_exceptions.md R252). -/
def Obligations.StepChangesOneLane : Prop :=
  ∀ s t : State, step s = .next t →
    t.shared = s.shared ∧ (∀ a, t.shared.imem.read a = s.shared.imem.read a) ∧
      t.lanes.length = s.lanes.length ∧
      ∃ k l, s.lanes[k]? = some l ∧ l.state = .run ∧
        (∀ j, j ≠ k → t.lanes[j]? = s.lanes[j]?) ∧
        ∀ j, j ≠ k → t.memRead .outbuf j = s.memRead .outbuf j

/-- What a lane's step makes of the lane depends on the lane, on IMEM, INPUT, PARAMS[0] and PARAMS[1]
alone: not on another lane, not on the schedule, not on the reserved words of PARAMS (20_memory.md R72,
R79; 44_loop_control.md R225). -/
def Obligations.LaneSeesOnlyItsOwnState : Prop :=
  ∀ s s' t : State, s'.lane = s.lane → s'.shared.imemWords = s.shared.imemWords →
    s'.shared.imem = s.shared.imem → s'.shared.input = s.shared.input →
    s'.shared.params[0] = s.shared.params[0] → s'.shared.params[1] = s.shared.params[1] →
    s.stepFront = .next t → ∃ t', s'.stepFront = .next t' ∧ t'.lane = t.lane

/-- Every interleaving of lane steps that ends the run ends it in the same state of every lane: from one
state, under any two schedules (20_memory.md R79). That schedules stand for interleavings is the model's
choice (log 1). -/
def Obligations.InterleavingsReachOneEnd : Prop :=
  ∀ (s u v : State) (a b : List Nat) (n m : Nat),
    after n { s with sched := a } = some u → after m { s with sched := b } = some v →
    u.runEnded = true → v.runEnded = true → u.lanes = v.lanes ∧ u.shared = v.shared

/-! ### Invariant -/

/-- The invariant holds at reset. The reset values it speaks of are the spec's but for the model's own
choices (log 2, log 3, log 4, log 5). -/
def Obligations.ResetMeetsInvariant : Prop := State.reset.Inv

/-- Every launch the spec allows meets the invariant (00_scope.md R9, 20_memory.md R86). -/
def Obligations.LaunchMeetsInvariant : Prop :=
  ∀ (n : Nat) (sh : Shared) (sched : List Nat), 1 ≤ n → n ≤ Config.maxLanes → sh.Consistent →
    (State.launch n sh sched).Inv

/-- Every step keeps the invariant: IMEM canonical and in bounds, lane `t` with TID `t`, OUT and OUTW
together, FAULT, FAULTPC and STATE together, no DONE lane without its output word. -/
def Obligations.StepKeepsInvariant : Prop :=
  ∀ s t : State, s.Inv → step s = .next t → t.Inv

/-! ### Launch and host -/

/-- The launch state of every lane (10_state.md R56): lane `k` of `n` lanes, over the shared spaces that
the host wrote, and the constant ROM. Beyond the 2^32 lanes of R9 the wrap of TID is the model's choice
(log 17). -/
def Obligations.LaunchStateOfEveryLane : Prop :=
  ∀ (n : Nat) (sh : Shared) (sched : List Nat) (k : Nat), k < n →
    (State.launch n sh sched).lanes.length = n ∧ (State.launch n sh sched).shared = sh ∧
      ∃ l, (State.launch n sh sched).lanes[k]? = some l ∧ (∀ r : Reg, l.x[r] = none) ∧
        l.cf = false ∧ l.cmpf = .equal ∧ l.lc = 0 ∧ l.pc = 0 ∧ l.out = none ∧ l.outw = false ∧
        l.state = .run ∧ l.fault = none ∧ l.faultpc = 0 ∧ l.tid = BitVec.ofNat 32 k ∧
        Config.rom 0 = some 0x30644e72e131a029b85045b68181585d97816a916871ca8d3c208c16d87cfd47 ∧
        Config.rom 1 = some 0x06d89f71cab8351f47ab1eff0a417ff6b5e71911d44501fbf32cfc5b538afa89 ∧
        Config.rom 2 = some 0x7FFFFFFF ∧ Config.rom 3 = some 0x6389

/-- A new launch is possible exactly after the end of a run, and nothing but the shared spaces survives
it (70_reset_and_hazards.md R270, R273; 20_memory.md R87). -/
def Obligations.RelaunchKeepsOnlySharedSpaces : Prop :=
  ∀ (s : State) (n : Nat) (sched : List Nat), 1 ≤ n → n ≤ 2 ^ 32 →
    ((∀ l ∈ s.lanes, l.state ≠ .run) →
      ∃ t, s.hostLaunch n sched = some t ∧ t.shared = s.shared ∧ t.lanes.length = n ∧
        ∀ l ∈ t.lanes, ∃ k < n, l = Lane.launch (BitVec.ofNat 32 k)) ∧
      ((∃ l ∈ s.lanes, l.state = .run) → s.hostLaunch n sched = none)

/-- The program the host loads is the program the lanes fetch: word `k` at index `k`, and no word at or
beyond IMEM_WORDS, which is the program's length (20_memory.md R70, R85). That programs of 0 and of more
than 65536 words load is the model's choice (log 17). -/
def Obligations.LoadedProgramIsFetched : Prop :=
  ∀ (program : List Word32) (input : Vector Word32 16) (params : Vector Word32 4) (k : Nat),
    (Shared.load program input params).imemWord k = program[k]? ∧
      Memory.wf (Shared.load program input params).imem

/-- The host's byte view is little-endian in all four spaces, and a word written to IMEM changes exactly
its own four bytes (20_memory.md R75, R77). -/
def Obligations.HostBytesAreLittleEndian : Prop :=
  (∀ (s : State) (sp : Space) (i k : Nat), k < 4 →
    s.hostByte sp (4 * i + k) =
      (s.memRead sp i).map fun w => BitVec.ofNat 8 (w.toNat / 2 ^ (8 * k))) ∧
    ∀ (m : Memory) (i : Nat) (w : Word32), m.wf →
      (∀ k < 4, (m.writeWord i w).read (4 * i + k) = BitVec.ofNat 8 (w.toNat / 2 ^ (8 * k))) ∧
        (∀ a, a < 4 * i ∨ 4 * i + 4 ≤ a → (m.writeWord i w).read a = m.read a) ∧
        (m.writeWord i w).readWord i = w

/-! ### Flags and special registers -/

/-- CF: written only by ADD and SUB, read only by RDF, 0 at launch (10_state.md R36). -/
def Obligations.CarryFlagWrittenByAddSubReadByRdf : Prop :=
  (∀ (i : Instr) (s t : State), exec i s = .next t → (∀ rd rs1 rs2, i ≠ .add rd rs1 rs2) →
    (∀ rd rs1 rs2, i ≠ .sub rd rs1 rs2) → t.lane.cf = s.lane.cf) ∧
    (∀ (s : State) (rd rs1 rs2 : Reg) (a b : Word256), s.lane.x[rs1] = some a →
      s.lane.x[rs2] = some b →
      (∃ t, exec (.add rd rs1 rs2) s = .next t ∧
        t.lane.cf = decide (2 ^ 256 ≤ a.toNat + b.toNat)) ∧
        ∃ t, exec (.sub rd rs1 rs2) s = .next t ∧ t.lane.cf = decide (a.toNat < b.toNat)) ∧
    (∀ (i : Instr) (s t : State) (c : Bool), exec i s = .next t → (∀ rd, i ≠ .rdf rd) →
      ∃ c', exec i (withCf s c) = .next (withCf t c')) ∧
    ∀ tid, (Lane.launch tid).cf = false

/-- CMPF: written only by CMP, with the code of its result, read only by RDF, EQUAL at launch
(10_state.md R37). -/
def Obligations.CompareFlagWrittenByCmpReadByRdf : Prop :=
  (∀ (i : Instr) (s t : State), exec i s = .next t → (∀ rs1 rs2, i ≠ .cmp rs1 rs2) →
    t.lane.cmpf = s.lane.cmpf) ∧
    (∀ (s : State) (rs1 rs2 : Reg) (a b : Word256), s.lane.x[rs1] = some a →
      s.lane.x[rs2] = some b → ∃ t, exec (.cmp rs1 rs2) s = .next t ∧
        t.lane.cmpf = if a.toNat = b.toNat then .equal
          else if a.toNat < b.toNat then .less else .greater) ∧
    (∀ (i : Instr) (s t : State) (r : Cmpf), exec i s = .next t → (∀ rd, i ≠ .rdf rd) →
      ∃ r', exec i (withCmpf s r) = .next (withCmpf t r')) ∧
    (∀ tid, (Lane.launch tid).cmpf = .equal) ∧
    Cmpf.code .equal = 0 ∧ Cmpf.code .less = 1 ∧ Cmpf.code .greater = 2 ∧
    ∀ r : Cmpf, r.code ≠ 3

/-- LC: written only by LDLC, with PARAMS.iterations, and by LCBZ not taken, with LC - 1; read only by
LCBZ; not written by the host; 0 at launch (10_state.md R38). -/
def Obligations.LoopCounterWrittenByLdlcLcbz : Prop :=
  (∀ (i : Instr) (s t : State), exec i s = .next t → i ≠ .ldlc → (∀ off, i ≠ .lcbz off) →
    t.lane.lc = s.lane.lc) ∧
    (∀ s t : State, exec .ldlc s = .next t → t.lane.lc = s.shared.params[0]) ∧
    (∀ (s t : State) (off : BitVec 16), exec (.lcbz off) s = .next t →
      t.lane.lc = if s.lane.lc = 0 then 0 else s.lane.lc - 1) ∧
    (∀ (i : Instr) (s t : State) (n : Word32), exec i s = .next t → (∀ off, i ≠ .lcbz off) →
      ∃ n', exec i (withLc s n) = .next (withLc t n')) ∧
    (∀ (s t : State) (sh : Shared), s.hostLoad sh = some t → t.lanes = s.lanes) ∧
    (∀ (s t : State) (k : Nat) (w : Word32), s.hostWriteImem k w = some t → t.lanes = s.lanes) ∧
    ∀ tid, (Lane.launch tid).lc = 0

/-- OUT and OUTW: only STOUT writes them, and once OUTW is set no command changes either
(10_state.md R39, 20_memory.md R73). -/
def Obligations.OutputWordIsWrittenOnce : Prop :=
  ∀ (i : Instr) (s t : State), exec i s = .next t →
    ((∀ rs1, i ≠ .stout rs1) → t.lane.out = s.lane.out ∧ t.lane.outw = s.lane.outw) ∧
      (s.lane.outw = true → t.lane.out = s.lane.out ∧ t.lane.outw = true)

/-- TID is read-only: no step changes any lane's TID, and lane `k` of a launch has TID `k` (10_state.md
R43). Beyond the 2^32 lanes of
R9 the wrap of TID is the model's choice (log 17). -/
def Obligations.ThreadIdIsReadOnly : Prop :=
  (∀ s t : State, step s = .next t → t.lanes.map Lane.tid = s.lanes.map Lane.tid) ∧
    ∀ (n : Nat) (sh : Shared) (sched : List Nat), 1 ≤ n →
      (State.launch n sh sched).lanes.map Lane.tid = (List.range n).map (BitVec.ofNat 32)

/-- The constants meet their defining equations and the range facts of 10_state.md R51, R52, R53, R55.
The number `P` itself is the spec's, from general knowledge (log 13). -/
def Obligations.ConstantsMeetTheirDefinitions : Prop :=
  (Config.p % 2 ^ 16 * Config.minv + 1) % 2 ^ 16 = 0 ∧ Config.minv = 0x6389 ∧
    Config.r2 = (2 ^ 256) ^ 2 % Config.p ∧
    Config.r2 = 0x06d89f71cab8351f47ab1eff0a417ff6b5e71911d44501fbf32cfc5b538afa89 ∧
    Config.p < 2 ^ 256 ∧ Config.q31 = 2 ^ 31 - 1 ∧ Config.p % 2 = 1 ∧
    Config.p < 2 ^ 254 ∧ 2 ^ 253 ≤ Config.p ∧ 2 * Config.p < 2 ^ 255 ∧ 4 * Config.p < 2 ^ 256 ∧
    Config.p * 2 ^ 256 < 2 ^ 510

/-! ### Big-integer commands -/

/-- CMP (40_bigint.md R131): its word, its result for every pair of values, UNWRITTEN_REG, and nothing
else written. -/
def Obligations.CmpComparesUnsigned : Prop :=
  ∀ (s : State) (rs1 rs2 : Reg),
    EncodedBy (.cmp rs1 rs2) (formatR 0x01 0 rs1 rs2) ∧
      (∀ a b : Word256, s.lane.x[rs1] = some a → s.lane.x[rs2] = some b →
        exec (.cmp rs1 rs2) s = .next
          { s with
            lane :=
              { s.lane with
                cmpf := if a.toNat = b.toNat then .equal
                  else if a.toNat < b.toNat then .less else .greater
                pc := s.lane.pc + 1 } }) ∧
      (s.lane.x[rs1] = none ∨ s.lane.x[rs2] = none →
        exec (.cmp rs1 rs2) s = .next (faulted s .unwrittenReg))

/-- ADD (40_bigint.md R132): its word, the sum mod 2^256 with the carry in CF, UNWRITTEN_REG, and
nothing else written. -/
def Obligations.AddGivesSumAndCarry : Prop :=
  ∀ (s : State) (rd rs1 rs2 : Reg),
    EncodedBy (.add rd rs1 rs2) (formatR 0x02 rd rs1 rs2) ∧
      (∀ a b : Word256, s.lane.x[rs1] = some a → s.lane.x[rs2] = some b →
        exec (.add rd rs1 rs2) s = .next
          (withCf (wrote s rd ((a.toNat + b.toNat) % 2 ^ 256))
            (decide ((a.toNat + b.toNat) / 2 ^ 256 = 1)))) ∧
      (s.lane.x[rs1] = none ∨ s.lane.x[rs2] = none →
        exec (.add rd rs1 rs2) s = .next (faulted s .unwrittenReg))

/-- SUB (40_bigint.md R133): its word, the difference mod 2^256 with the borrow in CF, UNWRITTEN_REG,
and nothing else written. -/
def Obligations.SubGivesDifferenceAndBorrow : Prop :=
  ∀ (s : State) (rd rs1 rs2 : Reg),
    EncodedBy (.sub rd rs1 rs2) (formatR 0x03 rd rs1 rs2) ∧
      (∀ a b : Word256, s.lane.x[rs1] = some a → s.lane.x[rs2] = some b →
        exec (.sub rd rs1 rs2) s = .next
          (withCf (wrote s rd ((2 ^ 256 + a.toNat - b.toNat) % 2 ^ 256))
            (decide (a.toNat < b.toNat)))) ∧
      (s.lane.x[rs1] = none ∨ s.lane.x[rs2] = none →
        exec (.sub rd rs1 rs2) s = .next (faulted s .unwrittenReg))

/-- MULW (40_bigint.md R134): its word, both halves of the exact product in the pair (read before
written), UNWRITTEN_REG, nothing else written; a word with an odd pair is illegal. -/
def Obligations.MulwGivesExactProduct : Prop :=
  ∀ (s : State) (rd hi rs1 rs2 : Reg),
    (rd.val % 2 = 0 → EncodedBy (.mulw rd rs1 rs2) (formatR 0x04 rd rs1 rs2)) ∧
      (∀ a b : Word256, rd.val % 2 = 0 → hi.val = rd.val + 1 → s.lane.x[rs1] = some a →
        s.lane.x[rs2] = some b →
        exec (.mulw rd rs1 rs2) s = .next
          { s with
            lane :=
              { s.lane with
                x := (s.lane.x.set rd (some (BitVec.ofNat 256 (a.toNat * b.toNat % 2 ^ 256)))).set hi
                  (some (BitVec.ofNat 256 (a.toNat * b.toNat / 2 ^ 256)))
                pc := s.lane.pc + 1 } }) ∧
      (rd.val % 2 = 0 → s.lane.x[rs1] = none ∨ s.lane.x[rs2] = none →
        exec (.mulw rd rs1 rs2) s = .next (faulted s .unwrittenReg)) ∧
      ∀ w : Word32, w.toNat / 2 ^ 26 = 0x04 → w.toNat / 2 ^ 23 % 2 = 1 → ∃ e, decode w = .error e

/-- SQRW (40_bigint.md R135): its word, both halves of the exact square in the pair, UNWRITTEN_REG,
nothing else written; a word with an odd pair or a non-zero rs2 field is illegal; and it is MULW of the
register with itself in every state (R135, R136). -/
def Obligations.SqrwGivesExactSquare : Prop :=
  ∀ (s : State) (rd hi rs1 : Reg),
    (rd.val % 2 = 0 → EncodedBy (.sqrw rd rs1) (formatR 0x05 rd rs1 0)) ∧
      (∀ a : Word256, rd.val % 2 = 0 → hi.val = rd.val + 1 → s.lane.x[rs1] = some a →
        exec (.sqrw rd rs1) s = .next
          { s with
            lane :=
              { s.lane with
                x := (s.lane.x.set rd (some (BitVec.ofNat 256 (a.toNat * a.toNat % 2 ^ 256)))).set hi
                  (some (BitVec.ofNat 256 (a.toNat * a.toNat / 2 ^ 256)))
                pc := s.lane.pc + 1 } }) ∧
      (rd.val % 2 = 0 → s.lane.x[rs1] = none →
        exec (.sqrw rd rs1) s = .next (faulted s .unwrittenReg)) ∧
      (∀ w : Word32, w.toNat / 2 ^ 26 = 0x05 →
        w.toNat / 2 ^ 23 % 2 = 1 ∨ w.toNat / 2 ^ 17 % 2 ^ 3 ≠ 0 → ∃ e, decode w = .error e) ∧
      exec (.sqrw rd rs1) s = exec (.mulw rd rs1 rs1) s

/-! ### BN254 commands -/

/-- FRED (41_bn254.md R151): its word, `a mod P` for `a < 2P`, PRECOND above, UNWRITTEN_REG. -/
def Obligations.FredReducesOnce : Prop :=
  ∀ (s : State) (rd rs1 : Reg),
    EncodedBy (.fred rd rs1) (formatR 0x08 rd rs1 0) ∧
      (∀ a : Word256, s.lane.x[rs1] = some a → a.toNat < 2 * Config.p →
        exec (.fred rd rs1) s = .next (wrote s rd (a.toNat % Config.p))) ∧
      (∀ a : Word256, s.lane.x[rs1] = some a → 2 * Config.p ≤ a.toNat →
        exec (.fred rd rs1) s = .next (faulted s .precond)) ∧
      (s.lane.x[rs1] = none → exec (.fred rd rs1) s = .next (faulted s .unwrittenReg))

/-- FADD (41_bn254.md R152): its word, `(a + b) mod P` in the domain, PRECOND outside it,
UNWRITTEN_REG. -/
def Obligations.FaddAddsModP : Prop :=
  ∀ (s : State) (rd rs1 rs2 : Reg),
    EncodedBy (.fadd rd rs1 rs2) (formatR 0x09 rd rs1 rs2) ∧
      (∀ a b : Word256, s.lane.x[rs1] = some a → s.lane.x[rs2] = some b →
        (a.toNat < Config.p → b.toNat < Config.p →
          exec (.fadd rd rs1 rs2) s = .next (wrote s rd ((a.toNat + b.toNat) % Config.p))) ∧
          (Config.p ≤ a.toNat ∨ Config.p ≤ b.toNat →
            exec (.fadd rd rs1 rs2) s = .next (faulted s .precond))) ∧
      (s.lane.x[rs1] = none ∨ s.lane.x[rs2] = none →
        exec (.fadd rd rs1 rs2) s = .next (faulted s .unwrittenReg))

/-- FSUB (41_bn254.md R153): its word, the least non-negative residue of `a - b` in the domain, PRECOND
outside it, UNWRITTEN_REG. -/
def Obligations.FsubSubtractsModP : Prop :=
  ∀ (s : State) (rd rs1 rs2 : Reg),
    EncodedBy (.fsub rd rs1 rs2) (formatR 0x0A rd rs1 rs2) ∧
      (∀ a b : Word256, s.lane.x[rs1] = some a → s.lane.x[rs2] = some b →
        (a.toNat < Config.p → b.toNat < Config.p →
          exec (.fsub rd rs1 rs2) s = .next
            (wrote s rd (((a.toNat : Int) - (b.toNat : Int)) % (Config.p : Int)).toNat)) ∧
          (Config.p ≤ a.toNat ∨ Config.p ≤ b.toNat →
            exec (.fsub rd rs1 rs2) s = .next (faulted s .precond))) ∧
      (s.lane.x[rs1] = none ∨ s.lane.x[rs2] = none →
        exec (.fsub rd rs1 rs2) s = .next (faulted s .unwrittenReg))

/-- FNEG (41_bn254.md R154): its word, `(P - a) mod P` in the domain, PRECOND outside it,
UNWRITTEN_REG. -/
def Obligations.FnegNegatesModP : Prop :=
  ∀ (s : State) (rd rs1 : Reg),
    EncodedBy (.fneg rd rs1) (formatR 0x0B rd rs1 0) ∧
      (∀ a : Word256, s.lane.x[rs1] = some a → a.toNat < Config.p →
        exec (.fneg rd rs1) s = .next (wrote s rd ((Config.p - a.toNat) % Config.p))) ∧
      (∀ a : Word256, s.lane.x[rs1] = some a → Config.p ≤ a.toNat →
        exec (.fneg rd rs1) s = .next (faulted s .precond)) ∧
      (s.lane.x[rs1] = none → exec (.fneg rd rs1) s = .next (faulted s .unwrittenReg))

/-- FMUL (41_bn254.md R155): its word, and the limb-by-limb CIOS datapath gives `(a * b * Rinv) mod P`
in the domain; PRECOND outside it, UNWRITTEN_REG. -/
def Obligations.FmulIsMontgomeryProduct : Prop :=
  ∀ (s : State) (rd rs1 rs2 : Reg) (rinv : Nat), IsRinv rinv →
    EncodedBy (.fmul rd rs1 rs2) (formatR 0x0C rd rs1 rs2) ∧
      (∀ a b : Word256, s.lane.x[rs1] = some a → s.lane.x[rs2] = some b →
        (a.toNat < Config.p → b.toNat < Config.p →
          exec (.fmul rd rs1 rs2) s = .next
            (wrote s rd (a.toNat * b.toNat * rinv % Config.p))) ∧
          (Config.p ≤ a.toNat ∨ Config.p ≤ b.toNat →
            exec (.fmul rd rs1 rs2) s = .next (faulted s .precond))) ∧
      (s.lane.x[rs1] = none ∨ s.lane.x[rs2] = none →
        exec (.fmul rd rs1 rs2) s = .next (faulted s .unwrittenReg))

/-- FSQR (41_bn254.md R156): its word, the square-then-reduce datapath gives `(a * a * Rinv) mod P` in
the domain, its faults; and it is FMUL of the register with itself in every state. -/
def Obligations.FsqrIsMontgomerySquare : Prop :=
  ∀ (s : State) (rd rs1 : Reg) (rinv : Nat), IsRinv rinv →
    EncodedBy (.fsqr rd rs1) (formatR 0x0D rd rs1 0) ∧
      (∀ a : Word256, s.lane.x[rs1] = some a → a.toNat < Config.p →
        exec (.fsqr rd rs1) s = .next (wrote s rd (a.toNat * a.toNat * rinv % Config.p))) ∧
      (∀ a : Word256, s.lane.x[rs1] = some a → Config.p ≤ a.toNat →
        exec (.fsqr rd rs1) s = .next (faulted s .precond)) ∧
      (s.lane.x[rs1] = none → exec (.fsqr rd rs1) s = .next (faulted s .unwrittenReg)) ∧
      exec (.fsqr rd rs1) s = exec (.fmul rd rs1 rs1) s

/-- FMRED (41_bn254.md R157): its word, the classic reduction gives `(T * Rinv) mod P` of the pair's
value `T < P * R`, PRECOND outside, UNWRITTEN_REG; a word with an odd pair is illegal. -/
def Obligations.FmredReducesPair : Prop :=
  ∀ (s : State) (rd rs1 hi : Reg) (rinv : Nat), IsRinv rinv →
    (rs1.val % 2 = 0 → EncodedBy (.fmred rd rs1) (formatR 0x0E rd rs1 0)) ∧
      (∀ a b : Word256, rs1.val % 2 = 0 → hi.val = rs1.val + 1 → s.lane.x[rs1] = some a →
        s.lane.x[hi] = some b →
        (a.toNat + 2 ^ 256 * b.toNat < Config.p * 2 ^ 256 →
          exec (.fmred rd rs1) s = .next
            (wrote s rd ((a.toNat + 2 ^ 256 * b.toNat) * rinv % Config.p))) ∧
          (Config.p * 2 ^ 256 ≤ a.toNat + 2 ^ 256 * b.toNat →
            exec (.fmred rd rs1) s = .next (faulted s .precond))) ∧
      (rs1.val % 2 = 0 → hi.val = rs1.val + 1 → s.lane.x[rs1] = none ∨ s.lane.x[hi] = none →
        exec (.fmred rd rs1) s = .next (faulted s .unwrittenReg)) ∧
      ∀ w : Word32, w.toNat / 2 ^ 26 = 0x0E → w.toNat / 2 ^ 20 % 2 = 1 → ∃ e, decode w = .error e

/-- TOMONT and FROMMONT (41_bn254.md R158, R159): their words, `(a * R) mod P` and `(a * Rinv) mod P`
in the domain, PRECOND outside it, UNWRITTEN_REG. -/
def Obligations.MontgomeryConversions : Prop :=
  ∀ (s : State) (rd rs1 : Reg) (rinv : Nat), IsRinv rinv →
    EncodedBy (.tomont rd rs1) (formatR 0x0F rd rs1 0) ∧
      EncodedBy (.frommont rd rs1) (formatR 0x10 rd rs1 0) ∧
      (∀ a : Word256, s.lane.x[rs1] = some a → a.toNat < Config.p →
        exec (.tomont rd rs1) s = .next (wrote s rd (2 ^ 256 * a.toNat % Config.p)) ∧
          exec (.frommont rd rs1) s = .next (wrote s rd (a.toNat * rinv % Config.p))) ∧
      (∀ a : Word256, s.lane.x[rs1] = some a → Config.p ≤ a.toNat →
        exec (.tomont rd rs1) s = .next (faulted s .precond) ∧
          exec (.frommont rd rs1) s = .next (faulted s .precond)) ∧
      (s.lane.x[rs1] = none →
        exec (.tomont rd rs1) s = .next (faulted s .unwrittenReg) ∧
          exec (.frommont rd rs1) s = .next (faulted s .unwrittenReg))

/-- The round trip: FROMMONT after TOMONT gives every `a < P` back (41_bn254.md R159, R161). -/
def Obligations.MontgomeryRoundTrip : Prop :=
  ∀ (s : State) (r0 r1 r2 : Reg) (a : Word256), s.lane.x[r0] = some a → a.toNat < Config.p →
    ∃ t u, exec (.tomont r1 r0) s = .next t ∧ exec (.frommont r2 r1) t = .next u ∧
      u.lane.x[r2] = some a

/-- Multiplication through Montgomery form is multiplication mod `P`: TOMONT of both operands, FMUL,
FROMMONT (41_bn254.md R161). -/
def Obligations.MontgomeryFormMultiplies : Prop :=
  ∀ (s : State) (ra rb m n rd : Reg) (a b : Word256), s.lane.x[ra] = some a → s.lane.x[rb] = some b →
    a.toNat < Config.p → b.toNat < Config.p → m ≠ rb → m ≠ n →
    ∃ t u v w, exec (.tomont m ra) s = .next t ∧ exec (.tomont n rb) t = .next u ∧
      exec (.fmul rd m n) u = .next v ∧ exec (.frommont rd rd) v = .next w ∧
      w.lane.x[rd] = some (BitVec.ofNat 256 (a.toNat * b.toNat % Config.p))

/-- Field laws: a value plus its negation is 0, a value minus itself is 0, FADD and FMUL do not depend
on the order of their operands, in any state, and FADD is associative (41_bn254.md R161). -/
def Obligations.FieldLaws : Prop :=
  (∀ (s : State) (r0 r1 r2 : Reg) (a : Word256), s.lane.x[r0] = some a → a.toNat < Config.p →
    r1 ≠ r0 →
    (∃ t u, exec (.fneg r1 r0) s = .next t ∧ exec (.fadd r2 r0 r1) t = .next u ∧
      u.lane.x[r2] = some 0) ∧
      ∃ t, exec (.fsub r2 r0 r0) s = .next t ∧ t.lane.x[r2] = some 0) ∧
    (∀ (s : State) (rd rs1 rs2 : Reg), exec (.fadd rd rs1 rs2) s = exec (.fadd rd rs2 rs1) s ∧
      exec (.fmul rd rs1 rs2) s = exec (.fmul rd rs2 rs1) s) ∧
    ∀ (s : State) (ra rb rc r1 r2 : Reg) (a b c : Word256), s.lane.x[ra] = some a →
      s.lane.x[rb] = some b → s.lane.x[rc] = some c → a.toNat < Config.p → b.toNat < Config.p →
      c.toNat < Config.p → r1 ≠ rc → r2 ≠ ra →
      ∃ t u t' u', exec (.fadd r1 ra rb) s = .next t ∧ exec (.fadd r1 r1 rc) t = .next u ∧
        exec (.fadd r2 rb rc) s = .next t' ∧ exec (.fadd r2 ra r2) t' = .next u' ∧
        u.lane.x[r1] = u'.lane.x[r2]

/-- The range law of 41_bn254.md R161 (R150): the result of every BN254 command on operands in its domain
is below P. -/
def Obligations.FieldResultsBelowP : Prop :=
  (∀ (s : State) (rd rs1 rs2 : Reg) (a b : Word256), s.lane.x[rs1] = some a →
    s.lane.x[rs2] = some b → a.toNat < Config.p → b.toNat < Config.p →
    ∀ i ∈ ([.fadd rd rs1 rs2, .fsub rd rs1 rs2, .fneg rd rs1, .fmul rd rs1 rs2, .fsqr rd rs1,
        .tomont rd rs1, .frommont rd rs1] : List Instr),
      ∃ t c, exec i s = .next t ∧ t.lane.x[rd] = some c ∧ c.toNat < Config.p) ∧
    (∀ (s : State) (rd rs1 : Reg) (a : Word256), s.lane.x[rs1] = some a →
      a.toNat < 2 * Config.p →
      ∃ t c, exec (.fred rd rs1) s = .next t ∧ t.lane.x[rd] = some c ∧ c.toNat < Config.p) ∧
    ∀ (s : State) (rd rs1 hi : Reg) (a b : Word256), rs1.val % 2 = 0 → hi.val = rs1.val + 1 →
      s.lane.x[rs1] = some a → s.lane.x[hi] = some b →
      a.toNat + 2 ^ 256 * b.toNat < Config.p * 2 ^ 256 →
      ∃ t c, exec (.fmred rd rs1) s = .next t ∧ t.lane.x[rd] = some c ∧ c.toNat < Config.p

/-! ### Mersenne commands -/

/-- MRED (42_m31.md R181): its word, `x mod Q31` for every `x < 2^32`, PRECOND above, UNWRITTEN_REG. -/
def Obligations.MredReducesModQ31 : Prop :=
  ∀ (s : State) (rd rs1 : Reg),
    EncodedBy (.mred rd rs1) (formatR 0x14 rd rs1 0) ∧
      (∀ a : Word256, s.lane.x[rs1] = some a → a.toNat < 2 ^ 32 →
        exec (.mred rd rs1) s = .next (wrote s rd (a.toNat % Config.q31))) ∧
      (∀ a : Word256, s.lane.x[rs1] = some a → 2 ^ 32 ≤ a.toNat →
        exec (.mred rd rs1) s = .next (faulted s .precond)) ∧
      (s.lane.x[rs1] = none → exec (.mred rd rs1) s = .next (faulted s .unwrittenReg))

/-- MADD (42_m31.md R182): its word, `(a + b) mod Q31` in the domain, PRECOND outside it,
UNWRITTEN_REG. -/
def Obligations.MaddAddsModQ31 : Prop :=
  ∀ (s : State) (rd rs1 rs2 : Reg),
    EncodedBy (.madd rd rs1 rs2) (formatR 0x15 rd rs1 rs2) ∧
      (∀ a b : Word256, s.lane.x[rs1] = some a → s.lane.x[rs2] = some b →
        (a.toNat < Config.q31 → b.toNat < Config.q31 →
          exec (.madd rd rs1 rs2) s = .next (wrote s rd ((a.toNat + b.toNat) % Config.q31))) ∧
          (Config.q31 ≤ a.toNat ∨ Config.q31 ≤ b.toNat →
            exec (.madd rd rs1 rs2) s = .next (faulted s .precond))) ∧
      (s.lane.x[rs1] = none ∨ s.lane.x[rs2] = none →
        exec (.madd rd rs1 rs2) s = .next (faulted s .unwrittenReg))

/-- MMUL (42_m31.md R183): its word, the chunked datapath gives `(a * b) mod Q31` in the domain,
PRECOND outside it, UNWRITTEN_REG. -/
def Obligations.MmulMultipliesModQ31 : Prop :=
  ∀ (s : State) (rd rs1 rs2 : Reg),
    EncodedBy (.mmul rd rs1 rs2) (formatR 0x16 rd rs1 rs2) ∧
      (∀ a b : Word256, s.lane.x[rs1] = some a → s.lane.x[rs2] = some b →
        (a.toNat < Config.q31 → b.toNat < Config.q31 →
          exec (.mmul rd rs1 rs2) s = .next (wrote s rd (a.toNat * b.toNat % Config.q31))) ∧
          (Config.q31 ≤ a.toNat ∨ Config.q31 ≤ b.toNat →
            exec (.mmul rd rs1 rs2) s = .next (faulted s .precond))) ∧
      (s.lane.x[rs1] = none ∨ s.lane.x[rs2] = none →
        exec (.mmul rd rs1 rs2) s = .next (faulted s .unwrittenReg))

/-- The laws of the Mersenne family (42_m31.md R184): every result is below Q31, MADD and MMUL do not
depend on the order of their operands, in any state, MADD is associative, and MMUL of two non-zero
operands in the domain is non-zero, because Q31 is prime. -/
def Obligations.MersenneLaws : Prop :=
  (∀ (s : State) (rd rs1 : Reg) (a : Word256), s.lane.x[rs1] = some a → a.toNat < 2 ^ 32 →
    ∃ t c, exec (.mred rd rs1) s = .next t ∧ t.lane.x[rd] = some c ∧ c.toNat < Config.q31) ∧
    (∀ (s : State) (rd rs1 rs2 : Reg) (a b : Word256), s.lane.x[rs1] = some a →
      s.lane.x[rs2] = some b → a.toNat < Config.q31 → b.toNat < Config.q31 →
      (∃ t c, exec (.madd rd rs1 rs2) s = .next t ∧ t.lane.x[rd] = some c ∧
        c.toNat < Config.q31) ∧
        ∃ t c, exec (.mmul rd rs1 rs2) s = .next t ∧ t.lane.x[rd] = some c ∧
          c.toNat < Config.q31 ∧ (a ≠ 0 → b ≠ 0 → c ≠ 0)) ∧
    (∀ (s : State) (rd rs1 rs2 : Reg), exec (.madd rd rs1 rs2) s = exec (.madd rd rs2 rs1) s ∧
      exec (.mmul rd rs1 rs2) s = exec (.mmul rd rs2 rs1) s) ∧
    ∀ (s : State) (ra rb rc r1 r2 : Reg) (a b c : Word256), s.lane.x[ra] = some a →
      s.lane.x[rb] = some b → s.lane.x[rc] = some c → a.toNat < Config.q31 →
      b.toNat < Config.q31 → c.toNat < Config.q31 → r1 ≠ rc → r2 ≠ ra →
      ∃ t u t' u', exec (.madd r1 ra rb) s = .next t ∧ exec (.madd r1 r1 rc) t = .next u ∧
        exec (.madd r2 rb rc) s = .next t' ∧ exec (.madd r2 ra r2) t' = .next u' ∧
        u.lane.x[r1] = u'.lane.x[r2]

/-! ### Data movement -/

/-- MOV, LOWB and ZGUARD (43_datamove.md R191, R193, R195): their words, the copy, the low byte, 1 for 0
and every other value unchanged; UNWRITTEN_REG. -/
def Obligations.OneSourceMoves : Prop :=
  ∀ (s : State) (rd rs1 : Reg),
    EncodedBy (.mov rd rs1) (formatR 0x18 rd rs1 0) ∧
      EncodedBy (.lowb rd rs1) (formatR 0x1A rd rs1 0) ∧
      EncodedBy (.zguard rd rs1) (formatR 0x1C rd rs1 0) ∧
      (∀ a : Word256, s.lane.x[rs1] = some a →
        exec (.mov rd rs1) s = .next (wrote s rd a.toNat) ∧
          exec (.lowb rd rs1) s = .next (wrote s rd (a.toNat % 256)) ∧
          exec (.zguard rd rs1) s = .next (wrote s rd (if a.toNat = 0 then 1 else a.toNat))) ∧
      (s.lane.x[rs1] = none →
        exec (.mov rd rs1) s = .next (faulted s .unwrittenReg) ∧
          exec (.lowb rd rs1) s = .next (faulted s .unwrittenReg) ∧
          exec (.zguard rd rs1) s = .next (faulted s .unwrittenReg))

/-- XOR and MUL32 (43_datamove.md R192, R194): their words, the exclusive or of all 256 bits, the low 32
bits of the product of the low 32 bits; UNWRITTEN_REG. -/
def Obligations.XorAndMul32 : Prop :=
  ∀ (s : State) (rd rs1 rs2 : Reg),
    EncodedBy (.xor rd rs1 rs2) (formatR 0x19 rd rs1 rs2) ∧
      EncodedBy (.mul32 rd rs1 rs2) (formatR 0x1B rd rs1 rs2) ∧
      (∀ a b : Word256, s.lane.x[rs1] = some a → s.lane.x[rs2] = some b →
        exec (.xor rd rs1 rs2) s = .next (wrote s rd (a ^^^ b).toNat) ∧
          exec (.mul32 rd rs1 rs2) s = .next
            (wrote s rd (a.toNat % 2 ^ 32 * (b.toNat % 2 ^ 32) % 2 ^ 32))) ∧
      (s.lane.x[rs1] = none ∨ s.lane.x[rs2] = none →
        exec (.xor rd rs1 rs2) s = .next (faulted s .unwrittenReg) ∧
          exec (.mul32 rd rs1 rs2) s = .next (faulted s .unwrittenReg))

/-- XFOLD (43_datamove.md R196): its word, the exclusive or of the 16 limbs, below 2^16; UNWRITTEN_REG.
-/
def Obligations.XfoldXorsTheLimbs : Prop :=
  ∀ (s : State) (rd rs1 : Reg),
    EncodedBy (.xfold rd rs1) (formatR 0x1D rd rs1 0) ∧
      (∀ a : Word256, s.lane.x[rs1] = some a →
        ∃ f < 2 ^ 16, exec (.xfold rd rs1) s = .next (wrote s rd f) ∧
          f = (List.range 16).foldl (fun f i => f ^^^ (a.toNat / 2 ^ (16 * i) % 2 ^ 16)) 0) ∧
      (s.lane.x[rs1] = none → exec (.xfold rd rs1) s = .next (faulted s .unwrittenReg))

/-- RDF (43_datamove.md R197): its word, `CMPF * 2 + CF` in every state. -/
def Obligations.RdfReadsFlags : Prop :=
  ∀ (s : State) (rd : Reg),
    EncodedBy (.rdf rd) (formatR 0x1E rd 0 0) ∧
      exec (.rdf rd) s = .next (wrote s rd
        ((match s.lane.cmpf with | .equal => 0 | .less => 1 | .greater => 2) * 2 +
          if s.lane.cf then 1 else 0))

/-- LDI and LDK (43_datamove.md R198, R199; 10_state.md R54): their words, the limb immediate, the ROM
constant of each index; a word with an index above 3 is illegal. -/
def Obligations.ImmediatesAndConstants : Prop :=
  ∀ (s : State) (rd : Reg),
    (∀ (j : Fin 16) (imm : BitVec 16),
      EncodedBy (.ldi rd j imm) (0x20 * 2 ^ 26 + rd * 2 ^ 23 + j * 2 ^ 19 + imm.toNat) ∧
        exec (.ldi rd j imm) s = .next (wrote s rd (imm.toNat * 2 ^ (16 * j.val)))) ∧
      (∀ k : Fin 16, k.val ≤ 3 → EncodedBy (.ldk rd k) (formatK 0x21 rd k)) ∧
      exec (.ldk rd 0) s = .next (wrote s rd
        0x30644e72e131a029b85045b68181585d97816a916871ca8d3c208c16d87cfd47) ∧
      exec (.ldk rd 1) s = .next (wrote s rd
        0x06d89f71cab8351f47ab1eff0a417ff6b5e71911d44501fbf32cfc5b538afa89) ∧
      exec (.ldk rd 2) s = .next (wrote s rd 0x7FFFFFFF) ∧
      exec (.ldk rd 3) s = .next (wrote s rd 0x6389) ∧
      ∀ w : Word32, w.toNat / 2 ^ 26 = 0x21 → 3 < w.toNat / 2 ^ 19 % 2 ^ 4 →
        ∃ e, decode w = .error e

/-- LDIN (43_datamove.md R200, 20_memory.md R71): its word, the input word `(TID + off4) mod 16`, in
every state. -/
def Obligations.LdinReadsPermutedInput : Prop :=
  ∀ (s : State) (rd : Reg) (off4 : Fin 16) (k : Nat) (hk : k < 16),
    EncodedBy (.ldin rd off4) (formatK 0x22 rd off4) ∧
      ((s.lane.tid.toNat + off4.val) % 16 = k →
        exec (.ldin rd off4) s = .next (wrote s rd s.shared.input[k].toNat))

/-- LDTID and LDSEED (43_datamove.md R201, R202): their words, the thread id and PARAMS[1], in every
state. -/
def Obligations.ThreadIdAndSeed : Prop :=
  ∀ (s : State) (rd : Reg),
    EncodedBy (.ldtid rd) (formatR 0x23 rd 0 0) ∧ EncodedBy (.ldseed rd) (formatR 0x24 rd 0 0) ∧
      exec (.ldtid rd) s = .next (wrote s rd s.lane.tid.toNat) ∧
      exec (.ldseed rd) s = .next (wrote s rd s.shared.params[1].toNat)

/-! ### Loop controller -/

/-- LDLC (44_loop_control.md R211): its word; LC gets PARAMS[0] and nothing else but pc changes. -/
def Obligations.LdlcLoadsIterations : Prop :=
  EncodedBy .ldlc (0x28 * 2 ^ 26) ∧
    ∀ s : State, exec .ldlc s = .next
      { s with lane := { s.lane with lc := s.shared.params[0], pc := s.lane.pc + 1 } }

/-- LCBZ (44_loop_control.md R212): its word; with LC = 0 it branches and LC stays, else it counts down
and falls through; the target is `(pc + sext_16(off16)) mod 2^16`. -/
def Obligations.LcbzExitsAtZeroElseCountsDown : Prop :=
  ∀ (s : State) (off : BitVec 16),
    EncodedBy (.lcbz off) (0x29 * 2 ^ 26 + off.toNat) ∧
      (s.lane.lc = 0 → ∃ q : BitVec 16,
        exec (.lcbz off) s = .next { s with lane := { s.lane with pc := q } } ∧
          (q.toNat : Int) = ((s.lane.pc.toNat : Int) +
            (if off.toNat < 2 ^ 15 then (off.toNat : Int) else (off.toNat : Int) - 2 ^ 16)) %
              2 ^ 16) ∧
      (s.lane.lc ≠ 0 → ∃ n : Word32,
        exec (.lcbz off) s = .next
          { s with lane := { s.lane with lc := n, pc := s.lane.pc + 1 } } ∧
          n.toNat + 1 = s.lane.lc.toNat)

/-- JMP (44_loop_control.md R213): its word; the target is `(pc + sext_16(off16)) mod 2^16` and nothing
else changes. -/
def Obligations.JmpIsRelative : Prop :=
  ∀ (s : State) (off : BitVec 16),
    EncodedBy (.jmp off) (0x2A * 2 ^ 26 + off.toNat) ∧
      ∃ q : BitVec 16,
        exec (.jmp off) s = .next { s with lane := { s.lane with pc := q } } ∧
          (q.toNat : Int) = ((s.lane.pc.toNat : Int) +
            (if off.toNat < 2 ^ 15 then (off.toNat : Int) else (off.toNat : Int) - 2 ^ 16)) % 2 ^ 16

/-- STOUT (44_loop_control.md R214): its word; the low 32 bits go to OUT, which is the OUTBUF word of
index TID, OUTW is set, every other word of OUTBUF reads as before; OUT_TWICE when OUTW is set,
UNWRITTEN_REG first. -/
def Obligations.StoutWritesOutputWord : Prop :=
  ∀ (s : State) (rs1 : Reg),
    EncodedBy (.stout rs1) (formatR 0x2B 0 rs1 0) ∧
      (∀ a : Word256, s.lane.x[rs1] = some a → s.lane.outw = false →
        ∃ t, exec (.stout rs1) s = .next t ∧
          t = { s with
            lane :=
              { s.lane with
                out := some (BitVec.ofNat 32 (a.toNat % 2 ^ 32)), outw := true
                pc := s.lane.pc + 1 } } ∧
          (s.LanesNumbered → ∀ k < s.nLanes, t.memRead .outbuf k =
            if k = s.lane.tid.toNat then some (BitVec.ofNat 32 (a.toNat % 2 ^ 32))
            else s.memRead .outbuf k)) ∧
      (∀ a : Word256, s.lane.x[rs1] = some a → s.lane.outw = true →
        exec (.stout rs1) s = .next (faulted s .outTwice)) ∧
      (s.lane.x[rs1] = none → exec (.stout rs1) s = .next (faulted s .unwrittenReg))

/-- HALT (44_loop_control.md R215): its word; with OUTW set the lane is DONE and keeps its pc, else
NO_OUTPUT; a lane in DONE takes no further step. -/
def Obligations.HaltFinishesTheLane : Prop :=
  EncodedBy .halt (0x2C * 2 ^ 26) ∧
    (∀ s : State,
      (s.lane.outw = true → exec .halt s = .next { s with lane := { s.lane with state := .done } }) ∧
        (s.lane.outw = false → exec .halt s = .next (faulted s .noOutput))) ∧
    ∀ (s t : State) (k : Nat) (l : Lane), step s = .next t → s.lanes[k]? = some l →
      l.state = .done → t.lanes[k]? = some l
end

