-- ==== Sys2Proof/Laws/Limbs.lean ====
section
/-! SUPPORT. What the big-integer datapaths compute: one specification lemma for each limb loop of
Machine/Datapath.lean, and the closed forms of 40_bigint.md R131 to R135 for 256-bit values. -/

namespace Sys2Proof.Machine

open Config

/-! ### Limb lists -/

/-- Every limb is below 2^16. -/
def Bounded (ls : List Nat) : Prop := ∀ l ∈ ls, l < limbBase

theorem limbBase_pos : 0 < limbBase := by decide

@[simp] theorem bounded_nil : Bounded [] := by simp [Bounded]

theorem bounded_cons {l : Nat} {ls : List Nat} :
    Bounded (l :: ls) ↔ l < limbBase ∧ Bounded ls := by simp [Bounded]

theorem bounded_append {ls ms : List Nat} : Bounded (ls ++ ms) ↔ Bounded ls ∧ Bounded ms := by
  simp only [Bounded, List.mem_append]
  exact ⟨fun h => ⟨fun l hl => h l (.inl hl), fun l hl => h l (.inr hl)⟩,
    fun h l hl => hl.elim (h.1 l) (h.2 l)⟩

theorem bounded_replicate_zero (n : Nat) : Bounded (List.replicate n 0) := by
  intro l hl
  rw [List.eq_of_mem_replicate hl]
  exact limbBase_pos

@[simp] theorem limbs_length (n v : Nat) : (limbs n v).length = n := by
  induction n generalizing v with
  | zero => rfl
  | succ n ih => simp [limbs, ih]

@[simp] theorem limbs16_length (v : Nat) : (limbs16 v).length = nLimbs := limbs_length nLimbs v

theorem limbs_bounded (n v : Nat) : Bounded (limbs n v) := by
  induction n generalizing v with
  | zero => simp [limbs]
  | succ n ih => exact bounded_cons.2 ⟨Nat.mod_lt _ limbBase_pos, ih _⟩

theorem limbs16_bounded (v : Nat) : Bounded (limbs16 v) := limbs_bounded nLimbs v

theorem val_limbs (n v : Nat) : val (limbs n v) = v % limbBase ^ n := by
  induction n generalizing v with
  | zero => simp [limbs, val, Nat.mod_one]
  | succ n ih =>
    simp only [limbs, val, ih]
    rw [pow_succ', Nat.mod_mul]

theorem limbs_eq_range_map (n v : Nat) :
    limbs n v = (List.range n).map fun i => v / limbBase ^ i % limbBase := by
  induction n generalizing v with
  | zero => rfl
  | succ n ih =>
    rw [limbs, ih, List.range_succ_eq_map]
    simp [Nat.div_div_eq_div_mul, pow_succ', Function.comp_def]

theorem limbBase_pow_nLimbs : limbBase ^ nLimbs = 2 ^ 256 := by decide

theorem val_limbs16 {v : Nat} (h : v < 2 ^ 256) : val (limbs16 v) = v := by
  rw [limbs16, val_limbs, limbBase_pow_nLimbs, Nat.mod_eq_of_lt h]

theorem val_append (ls ms : List Nat) :
    val (ls ++ ms) = val ls + limbBase ^ ls.length * val ms := by
  induction ls with
  | nil => simp [val]
  | cons l ls ih => simp only [List.cons_append, val, ih, List.length_cons, pow_succ]; ring

theorem val_singleton (l : Nat) : val [l] = l := by simp [val]

theorem val_replicate_zero (n : Nat) : val (List.replicate n 0) = 0 := by
  induction n with
  | zero => rfl
  | succ n ih => simp [List.replicate_succ, val, ih]

theorem val_lt {ls : List Nat} (h : Bounded ls) : val ls < limbBase ^ ls.length := by
  induction ls with
  | nil => simp [val]
  | cons l ls ih =>
    obtain ⟨hl, hls⟩ := bounded_cons.1 h
    have := ih hls
    simp only [val, List.length_cons, pow_succ]
    nlinarith [this, hl]

/-- Cutting a limb list cuts its value. -/
theorem val_take_drop {ls : List Nat} (h : Bounded ls) {n : Nat} (hn : n ≤ ls.length) :
    val (ls.take n) = val ls % limbBase ^ n ∧ val (ls.drop n) = val ls / limbBase ^ n := by
  have hlen : (ls.take n).length = n := by simp [hn]
  have hb : Bounded (ls.take n) := fun l hl => h l (List.mem_of_mem_take hl)
  have hlt := val_lt hb
  have hv := val_append (ls.take n) (ls.drop n)
  rw [hlen] at hlt hv
  rw [List.take_append_drop] at hv
  constructor
  · rw [hv, Nat.add_mul_mod_self_left, Nat.mod_eq_of_lt hlt]
  · rw [hv, Nat.add_mul_div_left _ _ (Nat.pow_pos limbBase_pos), Nat.div_eq_of_lt hlt, Nat.zero_add]

/-! ### Adder, subtractor, comparator -/

theorem addLimbs_spec {as bs : List Nat} (hlen : as.length = bs.length) (c : Nat) :
    val (addLimbs as bs c).1 + limbBase ^ as.length * (addLimbs as bs c).2
        = val as + val bs + c ∧
      (addLimbs as bs c).1.length = as.length ∧ Bounded (addLimbs as bs c).1 := by
  induction as generalizing bs c with
  | nil =>
    cases bs with
    | nil => simp [addLimbs, val]
    | cons b bs => simp at hlen
  | cons a as ih =>
    cases bs with
    | nil => simp at hlen
    | cons b bs =>
      obtain ⟨hv, hl, hb⟩ := ih (by simpa using hlen) ((a + b + c) / limbBase)
      refine ⟨?_, by simp [addLimbs, hl], bounded_cons.2 ⟨Nat.mod_lt _ limbBase_pos, hb⟩⟩
      have hs := Nat.mod_add_div (a + b + c) limbBase
      have hm := congrArg (limbBase * ·) hv
      simp only [addLimbs, val, List.length_cons, pow_succ] at hm ⊢
      linarith

theorem addValues_spec {a b : Nat} (ha : a < 2 ^ 256) (hb : b < 2 ^ 256) :
    addValues a b = ((a + b) % 2 ^ 256, (a + b) / 2 ^ 256) := by
  obtain ⟨hv, hl, hb'⟩ := addLimbs_spec (as := limbs16 a) (bs := limbs16 b) (by simp) 0
  have hlt := val_lt hb'
  rw [hl] at hlt
  simp only [limbs16_length, limbBase_pow_nLimbs, val_limbs16 ha, val_limbs16 hb] at hv hlt
  simp only [addValues, Prod.mk.injEq]
  omega

theorem subLimbs_spec {as bs : List Nat} (hlen : as.length = bs.length) (ha : Bounded as)
    (hb : Bounded bs) {br : Nat} (hbr : br ≤ 1) :
    val (subLimbs as bs br).1 + val bs + br
        = val as + limbBase ^ as.length * (subLimbs as bs br).2 ∧
      (subLimbs as bs br).2 ≤ 1 ∧ (subLimbs as bs br).1.length = as.length ∧
      Bounded (subLimbs as bs br).1 := by
  induction as generalizing bs br with
  | nil =>
    cases bs with
    | nil => simpa [subLimbs, val] using hbr
    | cons b bs => simp at hlen
  | cons a as ih =>
    cases bs with
    | nil => simp at hlen
    | cons b bs =>
      obtain ⟨ha0, ha'⟩ := bounded_cons.1 ha
      obtain ⟨hb0, hb'⟩ := bounded_cons.1 hb
      by_cases hge : a ≥ b + br
      · obtain ⟨hv, h1, hl, hbd⟩ := ih (by simpa using hlen) ha' hb' (br := 0) (by omega)
        have hm := congrArg (limbBase * ·) hv
        simp only [subLimbs, hge, if_true, val, List.length_cons, pow_succ] at hm ⊢
        refine ⟨?_, h1, by simp [hl], bounded_cons.2 ⟨by omega, hbd⟩⟩
        have : a - b - br + b + br = a := by omega
        linarith
      · obtain ⟨hv, h1, hl, hbd⟩ := ih (by simpa using hlen) ha' hb' (br := 1) (by omega)
        have hm := congrArg (limbBase * ·) hv
        simp only [subLimbs, hge, if_false, val, List.length_cons, pow_succ] at hm ⊢
        refine ⟨?_, h1, by simp [hl], bounded_cons.2 ⟨by omega, hbd⟩⟩
        have : a + limbBase - b - br + b + br = a + limbBase := by omega
        linarith

theorem subValues_spec {a b : Nat} (ha : a < 2 ^ 256) (hb : b < 2 ^ 256) :
    subValues a b = ((2 ^ 256 + a - b) % 2 ^ 256, if a < b then 1 else 0) := by
  obtain ⟨hv, h1, hl, hbd⟩ := subLimbs_spec (as := limbs16 a) (bs := limbs16 b) (by simp)
    (limbs_bounded _ _) (limbs_bounded _ _) (br := 0) (by omega)
  have hlt := val_lt hbd
  rw [hl] at hlt
  simp only [limbs16_length, limbBase_pow_nLimbs, val_limbs16 ha, val_limbs16 hb] at hv hlt
  simp only [subValues, Prod.mk.injEq]
  split <;> omega

/-- The three-way comparison of two numbers. -/
def compareNat (a b : Nat) : Cmpf := if a = b then .equal else if a < b then .less else .greater

theorem compareLimbs_append {as bs : List Nat} (hlen : as.length = bs.length) (a b : Nat) :
    compareLimbs (as ++ [a]) (bs ++ [b]) =
      if compareLimbs as bs = .equal then compareNat a b else compareLimbs as bs := by
  induction as generalizing bs with
  | nil =>
    cases bs with
    | nil => by_cases h : a = b <;> simp [compareLimbs, compareNat, h]
    | cons b' bs => simp at hlen
  | cons a' as ih =>
    cases bs with
    | nil => simp at hlen
    | cons b' bs =>
      by_cases h : a' = b'
      · simpa [compareLimbs, h] using ih (by simpa using hlen)
      · by_cases h' : a' < b' <;> simp [compareLimbs, h, h']

/-- A more significant limb decides before a less significant one. -/
theorem compareNat_limb {a b : Nat} (ha : a < limbBase) (hb : b < limbBase) (va vb : Nat) :
    (if compareNat va vb = .equal then compareNat a b else compareNat va vb)
      = compareNat (a + limbBase * va) (b + limbBase * vb) := by
  simp only [limbBase] at *
  rcases Nat.lt_trichotomy va vb with h | rfl | h
  · have h1 : va ≠ vb := by omega
    have h2 : a + 65536 * va < b + 65536 * vb := by omega
    simp [compareNat, h1, h, h2, h2.ne]
  · simp [compareNat]
  · have h1 : va ≠ vb := by omega
    have h2 : b + 65536 * vb < a + 65536 * va := by omega
    simp [compareNat, h1, h.not_gt, h2.ne', h2.not_gt]

theorem compareLimbs_reverse {as bs : List Nat} (hlen : as.length = bs.length) (ha : Bounded as)
    (hb : Bounded bs) :
    compareLimbs as.reverse bs.reverse = compareNat (val as) (val bs) := by
  induction as generalizing bs with
  | nil =>
    cases bs with
    | nil => rfl
    | cons b bs => simp at hlen
  | cons a as ih =>
    cases bs with
    | nil => simp at hlen
    | cons b bs =>
      obtain ⟨ha0, ha'⟩ := bounded_cons.1 ha
      obtain ⟨hb0, hb'⟩ := bounded_cons.1 hb
      rw [List.reverse_cons, List.reverse_cons,
        compareLimbs_append (by simpa using hlen), ih (by simpa using hlen) ha' hb']
      exact compareNat_limb ha0 hb0 _ _

theorem compareValues_spec {a b : Nat} (ha : a < 2 ^ 256) (hb : b < 2 ^ 256) :
    compareValues a b = compareNat a b := by
  rw [compareValues, compareLimbs_reverse (by simp) (limbs16_bounded a) (limbs16_bounded b),
    val_limbs16 ha, val_limbs16 hb]

/-! ### Multiplier and squarer -/

theorem macRow_spec (m : Nat) {bs ts : List Nat} (hlen : bs.length = ts.length) (c : Nat) :
    val (macRow m bs ts c).1 + limbBase ^ ts.length * (macRow m bs ts c).2
        = val ts + m * val bs + c ∧
      (macRow m bs ts c).1.length = ts.length ∧ Bounded (macRow m bs ts c).1 := by
  induction ts generalizing bs c with
  | nil =>
    cases bs with
    | nil => simp [macRow, val]
    | cons b bs => simp at hlen
  | cons t ts ih =>
    cases bs with
    | nil => simp at hlen
    | cons b bs =>
      obtain ⟨hv, hl, hb⟩ := ih (by simpa using hlen) ((t + m * b + c) / limbBase)
      refine ⟨?_, by simp [macRow, hl], bounded_cons.2 ⟨Nat.mod_lt _ limbBase_pos, hb⟩⟩
      have hs := Nat.mod_add_div (t + m * b + c) limbBase
      have hm := congrArg (limbBase * ·) hv
      simp only [macRow, val, List.length_cons, pow_succ] at hm ⊢
      linarith

/-- A row of limbs never carries out more than a limb. -/
theorem macRow_carry_lt {m : Nat} (hm : m < limbBase) {bs ts : List Nat} (hbs : Bounded bs)
    (hts : Bounded ts) {c : Nat} (hc : c < limbBase) : (macRow m bs ts c).2 < limbBase := by
  induction ts generalizing bs c with
  | nil => cases bs <;> simpa [macRow] using hc
  | cons t ts ih =>
    cases bs with
    | nil => simpa [macRow] using hc
    | cons b bs =>
      obtain ⟨hb0, hb'⟩ := bounded_cons.1 hbs
      obtain ⟨ht0, ht'⟩ := bounded_cons.1 hts
      refine ih hb' ht' ?_
      rw [Nat.div_lt_iff_lt_mul limbBase_pos]
      have h1 : m ≤ limbBase - 1 := by omega
      have h2 : b ≤ limbBase - 1 := by omega
      have h3 := Nat.mul_le_mul h1 h2
      simp only [limbBase] at *
      omega

theorem mulRows_spec {b as w : List Nat} (hw : b.length = w.length) (hb : Bounded b)
    (ha : Bounded as) (hwb : Bounded w) :
    val (mulRows b as w) = val w + val as * val b ∧
      (mulRows b as w).length = as.length + w.length ∧ Bounded (mulRows b as w) := by
  induction as generalizing w with
  | nil => simpa [mulRows, val] using hwb
  | cons a as ih =>
    obtain ⟨ha0, ha'⟩ := bounded_cons.1 ha
    obtain ⟨hv, hl, hbd⟩ := macRow_spec a hw 0
    have hc := macRow_carry_lt ha0 hb hwb limbBase_pos
    have hrow : val ((macRow a b w 0).1 ++ [(macRow a b w 0).2]) = val w + a * val b := by
      rw [val_append, hl, val_singleton, hv, Nat.add_zero]
    have hrl : ((macRow a b w 0).1 ++ [(macRow a b w 0).2]).length = w.length + 1 := by simp [hl]
    have hrb : Bounded ((macRow a b w 0).1 ++ [(macRow a b w 0).2]) :=
      bounded_append.2 ⟨hbd, by simpa [Bounded] using hc⟩
    simp only [mulRows]
    generalize (macRow a b w 0).1 ++ [(macRow a b w 0).2] = row at hrow hrl hrb
    cases row with
    | nil => simp at hrl
    | cons t ts =>
      simp only [List.length_cons, Nat.add_right_cancel_iff] at hrl
      obtain ⟨ht0, ht'⟩ := bounded_cons.1 hrb
      obtain ⟨iv, il, ib⟩ := ih (w := ts) (by rw [hw, hrl]) ha' ht'
      refine ⟨?_, by simp [il, hrl]; omega, bounded_cons.2 ⟨ht0, ib⟩⟩
      have hm := congrArg (limbBase * ·) iv
      simp only [val] at hm hrow ⊢
      linarith

theorem mulLimbs_spec {a b : Nat} (ha : a < 2 ^ 256) (hb : b < 2 ^ 256) :
    val (mulLimbs a b) = a * b ∧ (mulLimbs a b).length = 2 * nLimbs ∧ Bounded (mulLimbs a b) := by
  obtain ⟨hv, hl, hbd⟩ := mulRows_spec (b := limbs16 b) (as := limbs16 a)
    (w := List.replicate nLimbs 0) (by simp) (limbs_bounded _ _) (limbs_bounded _ _)
    (bounded_replicate_zero _)
  refine ⟨?_, by simp [mulLimbs, hl]; omega, hbd⟩
  rw [mulLimbs, hv, val_replicate_zero, val_limbs16 ha, val_limbs16 hb, Nat.zero_add]

/-- A 32-limb list split in halves. -/
theorem halves_spec {t : List Nat} (hl : t.length = 2 * nLimbs) (hb : Bounded t) :
    (val (t.take nLimbs), val (t.drop nLimbs)) = (val t % 2 ^ 256, val t / 2 ^ 256) := by
  obtain ⟨h1, h2⟩ := val_take_drop hb (n := nLimbs) (by omega)
  rw [h1, h2, limbBase_pow_nLimbs]

theorem mulValues_spec {a b : Nat} (ha : a < 2 ^ 256) (hb : b < 2 ^ 256) :
    mulValues a b = (a * b % 2 ^ 256, a * b / 2 ^ 256) := by
  obtain ⟨hv, hl, hbd⟩ := mulLimbs_spec ha hb
  rw [mulValues, halves_spec hl hbd, hv]

/-- The sum of the products `a_i * a_j * 2^(16(i+j))`, `i < j`. -/
def offDiagonalSum : List Nat → Nat
  | [] => 0
  | a :: as => limbBase * (a * val as) + limbBase ^ 2 * offDiagonalSum as

/-- The sum of the squares `a_i^2 * 2^(32i)`. -/
def diagonalSum : List Nat → Nat
  | [] => 0
  | a :: as => a * a + limbBase ^ 2 * diagonalSum as

theorem square_eq_sums (as : List Nat) :
    val as * val as = 2 * offDiagonalSum as + diagonalSum as := by
  induction as with
  | nil => rfl
  | cons a as ih =>
    have h := congrArg (limbBase ^ 2 * ·) ih
    simp only [val, offDiagonalSum, diagonalSum] at h ⊢
    linarith

theorem offDiagonal_spec {as w : List Nat} (hlen : as.length = w.length) (ha : Bounded as)
    (hwb : Bounded w) :
    val (offDiagonal as w) = val w + offDiagonalSum as ∧
      (offDiagonal as w).length = 2 * as.length ∧ Bounded (offDiagonal as w) := by
  induction as generalizing w with
  | nil =>
    cases w with
    | nil => simp [offDiagonal, val, offDiagonalSum]
    | cons t ts => simp at hlen
  | cons a as ih =>
    cases w with
    | nil => simp at hlen
    | cons t ts =>
      obtain ⟨ha0, ha'⟩ := bounded_cons.1 ha
      obtain ⟨ht0, ht'⟩ := bounded_cons.1 hwb
      have hlen' : as.length = ts.length := by simpa using hlen
      obtain ⟨hv, hl, hbd⟩ := macRow_spec a hlen' 0
      have hc := macRow_carry_lt ha0 ha' ht' limbBase_pos
      have hrow : val ((macRow a as ts 0).1 ++ [(macRow a as ts 0).2]) = val ts + a * val as := by
        rw [val_append, hl, val_singleton, hv, Nat.add_zero]
      have hrl : ((macRow a as ts 0).1 ++ [(macRow a as ts 0).2]).length = ts.length + 1 := by
        simp [hl]
      have hrb : Bounded ((macRow a as ts 0).1 ++ [(macRow a as ts 0).2]) :=
        bounded_append.2 ⟨hbd, by simpa [Bounded] using hc⟩
      simp only [offDiagonal]
      generalize (macRow a as ts 0).1 ++ [(macRow a as ts 0).2] = row at hrow hrl hrb
      cases row with
      | nil => simp at hrl
      | cons u us =>
        simp only [List.length_cons, Nat.add_right_cancel_iff] at hrl
        obtain ⟨hu0, hu'⟩ := bounded_cons.1 hrb
        obtain ⟨iv, il, ib⟩ := ih (w := us) (by rw [hlen', hrl]) ha' hu'
        refine ⟨?_, by simp [il]; omega, bounded_cons.2 ⟨ht0, bounded_cons.2 ⟨hu0, ib⟩⟩⟩
        have h1 := congrArg (limbBase * ·) hrow
        have h2 := congrArg (limbBase ^ 2 * ·) iv
        simp only [val, offDiagonalSum] at h1 h2 ⊢
        linarith

theorem shift_or_carry (t : Nat) {c : Nat} (hc : c ≤ 1) : (t <<< 1) ||| c = 2 * t + c := by
  rw [← Nat.shiftLeft_add_eq_or_of_lt (by omega), Nat.shiftLeft_eq]
  omega

theorem doubleLimbs_spec {ts : List Nat} (hts : Bounded ts) {c : Nat} (hc : c ≤ 1) :
    (∃ out, val (doubleLimbs ts c) + limbBase ^ ts.length * out = 2 * val ts + c) ∧
      (doubleLimbs ts c).length = ts.length ∧ Bounded (doubleLimbs ts c) := by
  induction ts generalizing c with
  | nil => exact ⟨⟨c, by simp [doubleLimbs, val]⟩, rfl, by simp [doubleLimbs]⟩
  | cons t ts ih =>
    obtain ⟨ht0, ht'⟩ := bounded_cons.1 hts
    have hshift : (2 * t + c) >>> 16 = (2 * t + c) / limbBase := Nat.shiftRight_eq_div_pow _ 16
    have hcarry : (2 * t + c) / limbBase ≤ 1 := by simp only [limbBase] at *; omega
    obtain ⟨⟨out, hv⟩, hl, hb⟩ := ih ht' hcarry
    simp only [doubleLimbs, shift_or_carry t hc, hshift]
    refine ⟨⟨out, ?_⟩, by simp [hl], bounded_cons.2 ⟨Nat.mod_lt _ limbBase_pos, hb⟩⟩
    have hs := Nat.mod_add_div (2 * t + c) limbBase
    have hm := congrArg (limbBase * ·) hv
    simp only [val, List.length_cons, pow_succ] at hm ⊢
    linarith

theorem addDiagonal_spec {as ts : List Nat} (hlen : ts.length = 2 * as.length) (c : Nat) :
    (∃ out, val (addDiagonal as ts c) + limbBase ^ ts.length * out
        = val ts + diagonalSum as + c) ∧
      (addDiagonal as ts c).length = ts.length ∧ Bounded (addDiagonal as ts c) := by
  induction as generalizing ts c with
  | nil =>
    cases ts with
    | nil => exact ⟨⟨c, by simp [addDiagonal, val, diagonalSum]⟩, rfl, by simp [addDiagonal]⟩
    | cons t ts => simp at hlen
  | cons a as ih =>
    match ts, hlen with
    | t :: u :: ts, hlen =>
      simp only [addDiagonal]
      generalize hs : t + a * a % limbBase + c = s
      generalize hs' : u + a * a / limbBase + s / limbBase = s'
      obtain ⟨⟨out, hv⟩, hl, hb⟩ := ih (ts := ts) (by simp at hlen; omega) (s' / limbBase)
      refine ⟨⟨out, ?_⟩, by simp [hl], bounded_cons.2 ⟨Nat.mod_lt _ limbBase_pos,
        bounded_cons.2 ⟨Nat.mod_lt _ limbBase_pos, hb⟩⟩⟩
      have e1 := Nat.mod_add_div s limbBase
      have e2 := congrArg (limbBase * ·) (Nat.mod_add_div s' limbBase)
      have e3 := Nat.mod_add_div (a * a) limbBase
      have e4 := congrArg (limbBase * ·) hs'
      have e5 := congrArg (limbBase ^ 2 * ·) hv
      simp only [val, diagonalSum, List.length_cons, pow_succ] at e2 e4 e5 ⊢
      linarith
    | [], hlen => simp at hlen
    | [t], hlen => simp at hlen; omega

theorem sqrLimbs_spec {a : Nat} (ha : a < 2 ^ 256) :
    val (sqrLimbs a) = a * a ∧ (sqrLimbs a).length = 2 * nLimbs ∧ Bounded (sqrLimbs a) := by
  obtain ⟨v1, l1, b1⟩ := offDiagonal_spec (as := limbs16 a) (w := List.replicate nLimbs 0)
    (by simp) (limbs16_bounded a) (bounded_replicate_zero _)
  obtain ⟨⟨o2, v2⟩, l2, b2⟩ := doubleLimbs_spec b1 (c := 0) (by omega)
  obtain ⟨⟨o3, v3⟩, l3, b3⟩ := addDiagonal_spec (as := limbs16 a)
    (ts := doubleLimbs (offDiagonal (limbs16 a) (List.replicate nLimbs 0)) 0)
    (by rw [l2, l1]) 0
  have hsq := square_eq_sums (limbs16 a)
  have hlt2 := val_lt b2
  have hlt3 := val_lt b3
  have hbound : a * a < limbBase ^ (2 * nLimbs) := by
    have h := limbBase_pow_nLimbs ▸ ha
    rw [two_mul, pow_add]
    exact Nat.mul_lt_mul'' h h
  rw [l1, limbs16_length, v1, val_replicate_zero] at v2
  rw [l2, l1, limbs16_length] at v3
  rw [l3, l2, l1, limbs16_length] at hlt3
  rw [l2, l1, limbs16_length] at hlt2
  rw [val_limbs16 ha] at hsq
  refine ⟨?_, by rw [sqrLimbs, l3, l2, l1, limbs16_length], b3⟩
  rw [sqrLimbs]
  have z2 : limbBase ^ (2 * nLimbs) * o2 = 0 := by
    rcases Nat.eq_zero_or_pos o2 with h | h
    · rw [h, Nat.mul_zero]
    · have := Nat.le_mul_of_pos_right (limbBase ^ (2 * nLimbs)) h
      omega
  have z3 : limbBase ^ (2 * nLimbs) * o3 = 0 := by
    rcases Nat.eq_zero_or_pos o3 with h | h
    · rw [h, Nat.mul_zero]
    · have := Nat.le_mul_of_pos_right (limbBase ^ (2 * nLimbs)) h
      omega
  omega

theorem sqrValues_spec {a : Nat} (ha : a < 2 ^ 256) :
    sqrValues a = (a * a % 2 ^ 256, a * a / 2 ^ 256) := by
  obtain ⟨hv, hl, hbd⟩ := sqrLimbs_spec ha
  rw [sqrValues, halves_spec hl hbd, hv]

end Sys2Proof.Machine
end

