-- ==== Sys2Proof/Laws/Field.lean ====
section
/-! SUPPORT. What the field datapaths compute: the closed forms of the Montgomery engine (41_bn254.md
R151 to R159), of the Mersenne engine (42_m31.md R181 to R183) and of the fold (43_datamove.md R196). -/

namespace Sys2Proof.Machine

open Config

/-! ### Facts about the constants (10_state.md R50 to R55) -/

theorem p_lt : p < 2 ^ 254 := by decide

theorem p_pos : 0 < p := by decide

theorem r2_lt : r2 < p := by decide

/-- `P_0 * MINV = -1 mod 2^16` (10_state.md R51). -/
theorem minv_spec : (p % limbBase * minv + 1) % limbBase = 0 := by decide

/-- `R2 = R^2 mod P` (10_state.md R52). -/
theorem r2_spec : r2 = r * r % p := by decide

theorem p_limbs : val (limbs16 p) = p := val_limbs16 (by decide)

theorem r_coprime_p : Nat.Coprime r p := by
  rw [r]
  exact Nat.Coprime.pow_left 256 (by decide)

/-! ### Conditional subtraction, addition, subtraction, negation -/

theorem reduceOnce_spec {a : Nat} (ha : a < 2 * p) : reduceOnce a = a % p := by
  have hp : p < 2 ^ 254 := p_lt
  have ha' : a < 2 ^ 256 := by omega
  rw [reduceOnce, compareValues_spec ha' (by omega), subValues_spec ha' (by omega)]
  rcases Nat.lt_or_ge a p with h | h
  · simp [compareNat, h, h.ne, Nat.mod_eq_of_lt h]
  · have hm : a % p = a - p := by rw [Nat.mod_eq_sub_mod h, Nat.mod_eq_of_lt (by omega)]
    have hs : (2 ^ 256 + a - p) % 2 ^ 256 = a - p := by omega
    rcases Nat.eq_or_lt_of_le h with h' | h'
    · simp [compareNat, h'.symm]
    · have hg : compareNat a p = .greater := by simp [compareNat, h'.ne', h'.not_gt]
      rw [hg, hm]
      exact hs

theorem subtractP_spec {u : Nat} (hu : u < 2 * p) : subtractP u = u % p := by
  rw [subtractP]
  split
  · rw [Nat.mod_eq_sub_mod ‹_›, Nat.mod_eq_of_lt (by omega)]
  · rw [Nat.mod_eq_of_lt (by omega)]

theorem fieldAdd_spec {a b : Nat} (ha : a < p) (hb : b < p) : fieldAdd a b = (a + b) % p := by
  have hp : p < 2 ^ 254 := p_lt
  have hadd : addValues a b = (a + b, 0) := by
    rw [addValues_spec (by omega) (by omega)]
    simp only [Prod.mk.injEq]
    omega
  simp only [fieldAdd, hadd]
  rw [← reduceOnce_spec (by omega : a + b < 2 * p), reduceOnce]
  cases compareValues (a + b) p <;> simp

theorem fieldSub_spec {a b : Nat} (ha : a < p) (hb : b < p) : fieldSub a b = (a + p - b) % p := by
  have hp : p < 2 ^ 254 := p_lt
  simp only [fieldSub, subValues_spec (by omega : a < 2 ^ 256) (by omega : b < 2 ^ 256)]
  rcases Nat.lt_or_ge a b with h | h
  · have hm : (a + p - b) % p = a + p - b := Nat.mod_eq_of_lt (by omega)
    rw [if_pos h, if_pos rfl, hm, addValues_spec (Nat.mod_lt _ (by decide)) (by omega)]
    simp only
    omega
  · have hm : (a + p - b) % p = a - b := by
      rw [Nat.mod_eq_sub_mod (by omega), Nat.mod_eq_of_lt (by omega)]
      omega
    rw [if_neg (Nat.not_lt.2 h), if_neg Nat.zero_ne_one, hm]
    omega

theorem fieldNeg_spec {a : Nat} (ha : a < p) : fieldNeg a = (p - a) % p := by
  have hp : p < 2 ^ 254 := p_lt
  rw [fieldNeg]
  split
  · simp [*]
  · rw [subValues_spec (by omega) (by omega), Nat.mod_eq_of_lt (by omega : p - a < p)]
    simp only
    omega

/-! ### Montgomery reduction -/

/-- The reduction multiplier clears limb 0: `l + ((l * MINV) mod 2^16) * P_0` is 0 mod 2^16. -/
theorem reduction_multiplier (l : Nat) :
    (l + l * minv % limbBase * (p % limbBase)) % limbBase = 0 := by
  have h : (l + l * minv % limbBase * (p % limbBase)) % limbBase
      = l * (p % limbBase * minv + 1) % limbBase := by
    rw [Nat.add_mod, Nat.mod_mul_mod, ← Nat.add_mod]
    congr 1
    ring
  rw [h, Nat.mul_mod, minv_spec]
  simp

/-- A row that adds `m * P`, for the multiplier `m` of the list's low limb: limb 0 becomes zero. -/
theorem reductionRow_spec {l : List Nat} (hl : l.length = nLimbs) (hb : Bounded l) :
    ∃ m < limbBase, ∃ ts c, macRow (l.headD 0 * minv % limbBase) (limbs16 p) l 0 = (0 :: ts, c) ∧
      ts.length + 1 = nLimbs ∧ Bounded ts ∧ c < limbBase ∧
      limbBase * val ts + limbBase ^ nLimbs * c = val l + m * p := by
  refine ⟨l.headD 0 * minv % limbBase, Nat.mod_lt _ limbBase_pos, ?_⟩
  obtain ⟨hv, hlen, hbd⟩ := macRow_spec (l.headD 0 * minv % limbBase) (bs := limbs16 p) (ts := l)
    (by simp [hl]) 0
  have hc := macRow_carry_lt (Nat.mod_lt (l.headD 0 * minv) limbBase_pos) (limbs16_bounded p) hb
    (c := 0) limbBase_pos
  cases l with
  | nil => simp [nLimbs] at hl
  | cons l0 ls =>
    have hrow : ∃ ts c, macRow (l0 * minv % limbBase) (limbs16 p) (l0 :: ls) 0 = (0 :: ts, c) := by
      have hp : limbs16 p = p % limbBase :: limbs 15 (p / limbBase) := rfl
      rw [hp]
      simp only [macRow, Nat.add_zero, reduction_multiplier]
      exact ⟨_, _, rfl⟩
    obtain ⟨ts, c, hr⟩ := hrow
    simp only [List.headD_cons] at *
    rw [hr] at hv hlen hbd hc
    refine ⟨ts, c, hr, by simpa [hl] using hlen, (bounded_cons.1 hbd).2, hc, ?_⟩
    rw [hl, p_limbs] at hv
    simpa [val] using hv

theorem ciosRound_spec {b : Nat} (hb : b < 2 ^ 256) {t : List Nat × Nat}
    (hlen : t.1.length = nLimbs) (ai : Nat) :
    ∃ m < limbBase, (ciosRound (limbs16 b) t ai).1.length = nLimbs ∧
      Bounded (ciosRound (limbs16 b) t ai).1 ∧
      limbBase * (val (ciosRound (limbs16 b) t ai).1
          + limbBase ^ nLimbs * (ciosRound (limbs16 b) t ai).2)
        = val t.1 + limbBase ^ nLimbs * t.2 + ai * b + m * p := by
  obtain ⟨v1, l1, b1⟩ := macRow_spec ai (bs := limbs16 b) (ts := t.1) (by simp [hlen]) 0
  obtain ⟨m, hm, ts, c, hr, hts, hbts, hc, v2⟩ := reductionRow_spec (l1.trans hlen) b1
  refine ⟨m, hm, ?_⟩
  rw [val_limbs16 hb, hlen] at v1
  simp only [ciosRound, hr, List.tail_cons]
  generalize hs : t.2 + (macRow ai (limbs16 b) t.1 0).2 = s
  generalize hs' : s % limbBase + c = s'
  refine ⟨by simp [hts], bounded_append.2 ⟨hbts, bounded_cons.2
    ⟨Nat.mod_lt _ limbBase_pos, bounded_nil⟩⟩, ?_⟩
  rw [val_append, val_singleton]
  have hpow : limbBase ^ nLimbs = limbBase * limbBase ^ ts.length := by rw [← hts, pow_succ']
  have e1 := congrArg (limbBase ^ nLimbs * ·) (Nat.mod_add_div s limbBase)
  have e2 := congrArg (limbBase ^ nLimbs * ·) (Nat.mod_add_div s' limbBase)
  have e3 := congrArg (limbBase ^ nLimbs * ·) hs
  have e4 := congrArg (limbBase ^ nLimbs * ·) hs'
  have e5 := congrArg (· * (s' % limbBase)) hpow
  linarith

/-- After the rounds of all limbs: `value * R = a * b + M * P` and the value is below `b + P`
(41_bn254.md R155). -/
theorem ciosRounds_spec {b : Nat} (hb : b < 2 ^ 256) {as : List Nat} (ha : Bounded as)
    {t : List Nat × Nat} (hlen : t.1.length = nLimbs)
    (hlt : val t.1 + limbBase ^ nLimbs * t.2 < b + p) :
    ∃ M, val (as.foldl (ciosRound (limbs16 b)) t).1
        + limbBase ^ nLimbs * (as.foldl (ciosRound (limbs16 b)) t).2 < b + p ∧
      (as.foldl (ciosRound (limbs16 b)) t).1.length = nLimbs ∧
      limbBase ^ as.length * (val (as.foldl (ciosRound (limbs16 b)) t).1
          + limbBase ^ nLimbs * (as.foldl (ciosRound (limbs16 b)) t).2)
        = val t.1 + limbBase ^ nLimbs * t.2 + val as * b + M * p := by
  induction as generalizing t with
  | nil => exact ⟨0, by simpa using hlt, hlen, by simp [val]⟩
  | cons a as ih =>
    obtain ⟨ha0, ha'⟩ := bounded_cons.1 ha
    obtain ⟨m, hm, l1, b1, v1⟩ := ciosRound_spec hb hlen a
    have hlt' : val (ciosRound (limbs16 b) t a).1
        + limbBase ^ nLimbs * (ciosRound (limbs16 b) t a).2 < b + p := by
      have h1 : a * b ≤ (limbBase - 1) * b := Nat.mul_le_mul_right b (by omega)
      have h2 : m * p ≤ (limbBase - 1) * p := Nat.mul_le_mul_right p (by omega)
      have h3 : limbBase * (val (ciosRound (limbs16 b) t a).1
          + limbBase ^ nLimbs * (ciosRound (limbs16 b) t a).2) < limbBase * (b + p) := by
        rw [v1]
        have e : limbBase * (b + p) = (limbBase - 1) * b + (limbBase - 1) * p + (b + p) := by
          have : limbBase = limbBase - 1 + 1 := by decide
          rw [this]
          simp only [Nat.add_sub_cancel]
          ring
        omega
      exact Nat.lt_of_mul_lt_mul_left h3
    obtain ⟨M, hM, hl, hv⟩ := ih ha' l1 hlt'
    refine ⟨m + limbBase * M, hM, hl, ?_⟩
    have e := congrArg (limbBase * ·) hv
    simp only [List.foldl_cons, List.length_cons, pow_succ, val] at e ⊢
    linarith

/-- Montgomery multiplication on reduced operands (41_bn254.md R155): the result is reduced and
`R * result = a * b` mod `P`. -/
theorem montMul_spec {a b : Nat} (ha : a < p) (hb : b < p) :
    montMul a b < p ∧ r * montMul a b % p = a * b % p := by
  have hp : p < 2 ^ 254 := p_lt
  obtain ⟨M, hlt, hl, hv⟩ := ciosRounds_spec (b := b) (by omega) (limbs16_bounded a)
    (t := (List.replicate nLimbs 0, 0)) (by simp)
    (by simp only [val_replicate_zero]; omega)
  rw [limbs16_length, limbBase_pow_nLimbs, val_replicate_zero, val_limbs16 (by omega)] at hv
  rw [limbBase_pow_nLimbs] at hlt
  have hu : montMul a b = (val (ciosRounds (limbs16 a) (limbs16 b)).1
      + 2 ^ 256 * (ciosRounds (limbs16 a) (limbs16 b)).2) % p := by
    rw [montMul]
    rw [val_append, val_singleton]
    rw [← ciosRounds] at hl hlt
    rw [hl, limbBase_pow_nLimbs, subtractP_spec (by omega)]
  rw [← ciosRounds] at hv
  refine ⟨by rw [hu]; exact Nat.mod_lt _ p_pos, ?_⟩
  rw [hu, Nat.mul_mod_mod, r, hv]
  simp

theorem ripple_spec (ts : List Nat) (c : Nat) :
    (∃ out, val (ripple ts c) + limbBase ^ ts.length * out = val ts + c) ∧
      (ripple ts c).length = ts.length ∧ Bounded (ripple ts c) := by
  induction ts generalizing c with
  | nil => exact ⟨⟨c, by simp [ripple, val]⟩, rfl, by simp [ripple]⟩
  | cons t ts ih =>
    obtain ⟨⟨out, hv⟩, hl, hb⟩ := ih ((t + c) / limbBase)
    refine ⟨⟨out, ?_⟩, by simp [ripple, hl],
      bounded_cons.2 ⟨Nat.mod_lt _ limbBase_pos, hb⟩⟩
    have hs := Nat.mod_add_div (t + c) limbBase
    have hm := congrArg (limbBase * ·) hv
    simp only [ripple, val, List.length_cons, pow_succ] at hm ⊢
    linarith

/-- The rounds of the classic reduction (41_bn254.md R157): `value * 2^(16n) = l + Q * P`, and the
extra overflow limb is enough. -/
theorem reduceRounds_spec (n : Nat) {l : List Nat} (hlen : l.length = n + nLimbs + 1)
    (hbd : Bounded l) (hlt : val l < p * limbBase ^ n + p) :
    ∃ Q, limbBase ^ n * val (reduceRounds n l) = val l + Q * p ∧
      val (reduceRounds n l) < 2 * p := by
  induction n generalizing l with
  | zero => exact ⟨0, by simp [reduceRounds], by simpa [reduceRounds, two_mul] using hlt⟩
  | succ n ih =>
    have htl : (l.take nLimbs).length = nLimbs := by simp [hlen]; omega
    have hdl : (l.drop nLimbs).length = n + 2 := by simp [hlen]; omega
    have htb : Bounded (l.take nLimbs) := fun x hx => hbd x (List.mem_of_mem_take hx)
    have hhead : l.headD 0 = (l.take nLimbs).headD 0 := by
      cases l with
      | nil => simp at hlen
      | cons => rfl
    obtain ⟨m, hm, ts, c, hr, hts, hbts, hc, hv⟩ := reductionRow_spec htl htb
    obtain ⟨⟨out, rv⟩, rl, rb⟩ := ripple_spec (l.drop nLimbs) c
    have hsplit := val_append (l.take nLimbs) (l.drop nLimbs)
    rw [List.take_append_drop, htl] at hsplit
    have hrest : reduceRounds (n + 1) l = reduceRounds n (ts ++ ripple (l.drop nLimbs) c) := by
      simp only [reduceRounds, hhead, hr, List.cons_append, List.tail_cons]
    have hpow : limbBase ^ nLimbs = limbBase * limbBase ^ ts.length := by rw [← hts, pow_succ']
    have htsv : val (ts ++ ripple (l.drop nLimbs) c)
        = val ts + limbBase ^ ts.length * val (ripple (l.drop nLimbs) c) := val_append _ _
    have htot : limbBase * val (ts ++ ripple (l.drop nLimbs) c)
        + limbBase ^ nLimbs * (limbBase ^ (n + 2) * out) = val l + m * p := by
      have e1 := congrArg (limbBase ^ nLimbs * ·) rv
      have e2 := congrArg (· * val (ripple (l.drop nLimbs) c)) hpow
      rw [hdl] at e1
      rw [htsv, hsplit]
      linarith
    have hmp : m * p ≤ (limbBase - 1) * p := Nat.mul_le_mul_right p (by omega)
    have hsum : val l + m * p < limbBase * (p * limbBase ^ n + p) := by
      have e : limbBase * (p * limbBase ^ n + p)
          = p * limbBase ^ (n + 1) + p + (limbBase - 1) * p := by
        have : limbBase = limbBase - 1 + 1 := by decide
        rw [pow_succ]
        nth_rewrite 1 [this]
        simp only [limbBase]
        ring
      omega
    have hlt' : val (ts ++ ripple (l.drop nLimbs) c) < p * limbBase ^ n + p := by
      refine Nat.lt_of_mul_lt_mul_left (a := limbBase) ?_
      omega
    have hout : out = 0 := by
      rcases Nat.eq_zero_or_pos out with h | h
      · exact h
      · exfalso
        have h1 : limbBase ^ nLimbs * limbBase ^ (n + 2)
            ≤ limbBase ^ nLimbs * (limbBase ^ (n + 2) * out) :=
          Nat.mul_le_mul_left _ (Nat.le_mul_of_pos_right _ h)
        have h2 : limbBase * (p * limbBase ^ n + p) ≤ limbBase ^ nLimbs * limbBase ^ (n + 2) := by
          have hp : p ≤ limbBase ^ nLimbs := by decide
          have h1n : 1 ≤ limbBase ^ n := Nat.pow_pos limbBase_pos
          calc limbBase * (p * limbBase ^ n + p)
              ≤ limbBase * (p * limbBase ^ n + p * limbBase ^ n) := by
                have := Nat.mul_le_mul_left p h1n
                exact Nat.mul_le_mul_left _ (by omega)
            _ = p * (2 * limbBase) * limbBase ^ n := by ring
            _ ≤ limbBase ^ nLimbs * (limbBase * limbBase) * limbBase ^ n := by
                refine Nat.mul_le_mul_right _ (Nat.mul_le_mul hp (Nat.mul_le_mul_right _ ?_))
                decide
            _ = limbBase ^ nLimbs * limbBase ^ (n + 2) := by ring
        omega
    obtain ⟨Q, hQ, hfin⟩ := ih (l := ts ++ ripple (l.drop nLimbs) c)
      (by simp only [List.length_append, rl, hdl]; omega)
      (bounded_append.2 ⟨hbts, rb⟩) hlt'
    refine ⟨m + limbBase * Q, ?_, by rw [hrest]; exact hfin⟩
    rw [hrest]
    have e := congrArg (limbBase * ·) hQ
    rw [hout] at htot
    simp only [pow_succ] at e ⊢
    linarith

/-- The classic Montgomery reduction of 32 limbs (41_bn254.md R157): the result is reduced and
`R * result = T` mod `P`. -/
theorem montReduceLimbs_spec {l : List Nat} (hl : l.length = 2 * nLimbs) (hb : Bounded l)
    (hlt : val l < p * r) : montReduceLimbs l < p ∧ r * montReduceLimbs l % p = val l % p := by
  have hval : val (l ++ [0]) = val l := by simp [val_append, val]
  obtain ⟨Q, hQ, hfin⟩ := reduceRounds_spec nLimbs (l := l ++ [0])
    (by simp only [List.length_append, hl, List.length_singleton]; omega)
    (bounded_append.2 ⟨hb, bounded_cons.2 ⟨limbBase_pos, bounded_nil⟩⟩)
    (by rw [hval, limbBase_pow_nLimbs]; exact Nat.lt_add_right p hlt)
  rw [hval, limbBase_pow_nLimbs] at hQ
  rw [montReduceLimbs, subtractP_spec hfin]
  refine ⟨Nat.mod_lt _ p_pos, ?_⟩
  rw [Nat.mul_mod_mod, r, hQ]
  simp

theorem montReduce_spec {t : Nat} (ht : t < p * r) :
    montReduce t < p ∧ r * montReduce t % p = t % p := by
  have hv : val (limbs (2 * nLimbs) t) = t := by
    rw [val_limbs, Nat.mod_eq_of_lt]
    rw [two_mul, pow_add, limbBase_pow_nLimbs]
    exact ht.trans (Nat.mul_lt_mul_of_pos_right (by decide) (by decide))
  have h := montReduceLimbs_spec (l := limbs (2 * nLimbs) t) (limbs_length _ _)
    (limbs_bounded _ _) (by rw [hv]; exact ht)
  rwa [hv] at h

theorem montSqr_spec {a : Nat} (ha : a < p) : montSqr a < p ∧ r * montSqr a % p = a * a % p := by
  have hp : p < 2 ^ 254 := p_lt
  obtain ⟨hv, hl, hb⟩ := sqrLimbs_spec (by omega : a < 2 ^ 256)
  have hlt : val (sqrLimbs a) < p * r := by
    rw [hv, r]
    exact Nat.mul_lt_mul'' ha (by omega)
  have h := montReduceLimbs_spec hl hb hlt
  rwa [hv] at h

/-- What `R * x = y` mod `P` says of a reduced `x`: it is `y * Rinv` mod `P`. -/
theorem eq_mul_rinv {x y rinv : Nat} (hx : x < p) (h : r * x % p = y % p)
    (hr : r * rinv % p = 1) : x = y * rinv % p := by
  have h1 : r * x * rinv % p = y * rinv % p := by
    rw [Nat.mul_mod, h, ← Nat.mul_mod]
  have h2 : r * x * rinv % p = x := by
    rw [show r * x * rinv = x * (r * rinv) by ring, Nat.mul_mod, hr, Nat.mul_one, Nat.mod_mod,
      Nat.mod_eq_of_lt hx]
  rw [← h1, h2]

/-! ### Mersenne engine -/

theorem mersenneReduce_spec {x : Nat} (hx : x < 2 ^ 32) : mersenneReduce x = x % q31 := by
  have h1 : x &&& q31 = x % 2 ^ 31 := Nat.and_two_pow_sub_one_eq_mod x 31
  have h2 : x >>> 31 = x / 2 ^ 31 := Nat.shiftRight_eq_div_pow x 31
  simp only [mersenneReduce]
  generalize hw : (x &&& q31) + (x >>> 31) = w
  rw [h1, h2] at hw
  have hq : q31 = 2147483647 := rfl
  split_ifs <;> rw [hq] at * <;> omega

theorem mersenneAdd_spec {a b : Nat} (ha : a < q31) (hb : b < q31) :
    mersenneAdd a b = (a + b) % q31 :=
  mersenneReduce_spec (by simp only [q31] at *; omega)

theorem mersenneMul_spec {a b : Nat} (ha : a < q31) (hb : b < q31) :
    mersenneMul a b = a * b % q31 := by
  have hy : a * b < 2 ^ 62 := by
    have h := Nat.mul_lt_mul'' ha hb
    refine h.trans ?_
    decide
  simp only [mersenneMul, bits, Nat.pow_zero, Nat.div_one, Nat.reduceSub, Nat.reduceAdd,
    Nat.reducePow]
  generalize a * b = y at hy
  generalize hs : y % 2147483648 + y / 2147483648 % 2147483648 + y / 4611686018427387904 % 4 = s
  have hmod : y = s + q31 * (y / 2147483648) := by simp only [q31]; omega
  have hlt : s % q31 < 2 ^ 32 := (Nat.mod_lt s (by decide)).trans (by decide)
  rw [mersenneReduce_spec (by omega : s < 2 ^ 32), mersenneReduce_spec hlt, Nat.mod_mod, hmod,
    Nat.add_mul_mod_self_left]

/-! ### Fold -/

/-- The fold is the XOR of `limb_i(a)`, `i = 0 .. 15` (43_datamove.md R196, 00_scope.md R11). -/
theorem foldLimbs_eq (a : Nat) :
    foldLimbs a = ((List.range 16).map fun i => a / 2 ^ (16 * i) % 2 ^ 16).foldl (· ^^^ ·) 0 := by
  have h : limbs16 a = (List.range 16).map fun i => a / 2 ^ (16 * i) % 2 ^ 16 := by
    rw [limbs16, limbs_eq_range_map]
    refine List.map_congr_left fun i _ => ?_
    rw [show limbBase = 2 ^ 16 by decide, ← pow_mul]
  rw [foldLimbs, h]

theorem xor_lt_limbBase {f l : Nat} (hf : f < limbBase) (hl : l < limbBase) :
    f ^^^ l < limbBase := Nat.xor_lt_two_pow (n := 16) hf hl

theorem foldLimbs_lt (a : Nat) : foldLimbs a < limbBase := by
  have h : ∀ (ls : List Nat) (f : Nat), Bounded ls → f < limbBase →
      ls.foldl (fun f l => f ^^^ l) f < limbBase := by
    intro ls
    induction ls with
    | nil => exact fun _ _ hf => hf
    | cons l ls ih =>
      intro f hb hf
      obtain ⟨hl, hls⟩ := bounded_cons.1 hb
      exact ih _ hls (xor_lt_limbBase hf hl)
  exact h _ _ (limbs16_bounded a) limbBase_pos

end Sys2Proof.Machine
end

