-- ==== Sys2Proof/Laws/State.lean ====
section
/-! SUPPORT. What each update of a lane and of the state does to each field: one lemma a field, true by
unfolding the update once. -/

namespace Sys2Proof.Machine

/-! ### `Lane.writeReg` -/

@[simp] theorem Lane.writeReg_x (l : Lane) (n : Reg) (v : Nat) :
    (l.writeReg n v).x = l.x.set n (some (BitVec.ofNat 256 v)) := rfl
@[simp] theorem Lane.writeReg_cf (l : Lane) (n : Reg) (v : Nat) : (l.writeReg n v).cf = l.cf := rfl
@[simp] theorem Lane.writeReg_cmpf (l : Lane) (n : Reg) (v : Nat) :
    (l.writeReg n v).cmpf = l.cmpf := rfl
@[simp] theorem Lane.writeReg_lc (l : Lane) (n : Reg) (v : Nat) : (l.writeReg n v).lc = l.lc := rfl
@[simp] theorem Lane.writeReg_pc (l : Lane) (n : Reg) (v : Nat) : (l.writeReg n v).pc = l.pc := rfl
@[simp] theorem Lane.writeReg_out (l : Lane) (n : Reg) (v : Nat) :
    (l.writeReg n v).out = l.out := rfl
@[simp] theorem Lane.writeReg_outw (l : Lane) (n : Reg) (v : Nat) :
    (l.writeReg n v).outw = l.outw := rfl
@[simp] theorem Lane.writeReg_state (l : Lane) (n : Reg) (v : Nat) :
    (l.writeReg n v).state = l.state := rfl
@[simp] theorem Lane.writeReg_fault (l : Lane) (n : Reg) (v : Nat) :
    (l.writeReg n v).fault = l.fault := rfl
@[simp] theorem Lane.writeReg_faultpc (l : Lane) (n : Reg) (v : Nat) :
    (l.writeReg n v).faultpc = l.faultpc := rfl
@[simp] theorem Lane.writeReg_tid (l : Lane) (n : Reg) (v : Nat) :
    (l.writeReg n v).tid = l.tid := rfl

/-! ### `Lane.writePair` -/

@[simp] theorem Lane.writePair_x (l : Lane) (n : Reg) (lo hi : Nat) :
    (l.writePair n lo hi).x =
      (l.x.set n (some (BitVec.ofNat 256 lo))).set (Reg.high n) (some (BitVec.ofNat 256 hi)) := rfl
@[simp] theorem Lane.writePair_cf (l : Lane) (n : Reg) (lo hi : Nat) :
    (l.writePair n lo hi).cf = l.cf := rfl
@[simp] theorem Lane.writePair_cmpf (l : Lane) (n : Reg) (lo hi : Nat) :
    (l.writePair n lo hi).cmpf = l.cmpf := rfl
@[simp] theorem Lane.writePair_lc (l : Lane) (n : Reg) (lo hi : Nat) :
    (l.writePair n lo hi).lc = l.lc := rfl
@[simp] theorem Lane.writePair_pc (l : Lane) (n : Reg) (lo hi : Nat) :
    (l.writePair n lo hi).pc = l.pc := rfl
@[simp] theorem Lane.writePair_out (l : Lane) (n : Reg) (lo hi : Nat) :
    (l.writePair n lo hi).out = l.out := rfl
@[simp] theorem Lane.writePair_outw (l : Lane) (n : Reg) (lo hi : Nat) :
    (l.writePair n lo hi).outw = l.outw := rfl
@[simp] theorem Lane.writePair_state (l : Lane) (n : Reg) (lo hi : Nat) :
    (l.writePair n lo hi).state = l.state := rfl
@[simp] theorem Lane.writePair_fault (l : Lane) (n : Reg) (lo hi : Nat) :
    (l.writePair n lo hi).fault = l.fault := rfl
@[simp] theorem Lane.writePair_faultpc (l : Lane) (n : Reg) (lo hi : Nat) :
    (l.writePair n lo hi).faultpc = l.faultpc := rfl
@[simp] theorem Lane.writePair_tid (l : Lane) (n : Reg) (lo hi : Nat) :
    (l.writePair n lo hi).tid = l.tid := rfl

/-! ### `Lane.advance` -/

@[simp] theorem Lane.advance_x (l : Lane) : (l.advance).x = l.x := rfl
@[simp] theorem Lane.advance_cf (l : Lane) : (l.advance).cf = l.cf := rfl
@[simp] theorem Lane.advance_cmpf (l : Lane) : (l.advance).cmpf = l.cmpf := rfl
@[simp] theorem Lane.advance_lc (l : Lane) : (l.advance).lc = l.lc := rfl
@[simp] theorem Lane.advance_pc (l : Lane) : (l.advance).pc = l.pc + 1 := rfl
@[simp] theorem Lane.advance_out (l : Lane) : (l.advance).out = l.out := rfl
@[simp] theorem Lane.advance_outw (l : Lane) : (l.advance).outw = l.outw := rfl
@[simp] theorem Lane.advance_state (l : Lane) : (l.advance).state = l.state := rfl
@[simp] theorem Lane.advance_fault (l : Lane) : (l.advance).fault = l.fault := rfl
@[simp] theorem Lane.advance_faultpc (l : Lane) : (l.advance).faultpc = l.faultpc := rfl
@[simp] theorem Lane.advance_tid (l : Lane) : (l.advance).tid = l.tid := rfl

/-! ### `Lane.branch` -/

@[simp] theorem Lane.branch_x (l : Lane) (off : BitVec 16) : (l.branch off).x = l.x := rfl
@[simp] theorem Lane.branch_cf (l : Lane) (off : BitVec 16) : (l.branch off).cf = l.cf := rfl
@[simp] theorem Lane.branch_cmpf (l : Lane) (off : BitVec 16) : (l.branch off).cmpf = l.cmpf := rfl
@[simp] theorem Lane.branch_lc (l : Lane) (off : BitVec 16) : (l.branch off).lc = l.lc := rfl
@[simp] theorem Lane.branch_pc (l : Lane) (off : BitVec 16) :
    (l.branch off).pc = BitVec.ofInt 16 ((l.pc.toNat : Int) + sext16 off) := rfl
@[simp] theorem Lane.branch_out (l : Lane) (off : BitVec 16) : (l.branch off).out = l.out := rfl
@[simp] theorem Lane.branch_outw (l : Lane) (off : BitVec 16) : (l.branch off).outw = l.outw := rfl
@[simp] theorem Lane.branch_state (l : Lane) (off : BitVec 16) :
    (l.branch off).state = l.state := rfl
@[simp] theorem Lane.branch_fault (l : Lane) (off : BitVec 16) :
    (l.branch off).fault = l.fault := rfl
@[simp] theorem Lane.branch_faultpc (l : Lane) (off : BitVec 16) :
    (l.branch off).faultpc = l.faultpc := rfl
@[simp] theorem Lane.branch_tid (l : Lane) (off : BitVec 16) : (l.branch off).tid = l.tid := rfl

/-! ### `Lane.result` -/

@[simp] theorem Lane.result_x (l : Lane) (n : Reg) (v : Nat) :
    (l.result n v).x = l.x.set n (some (BitVec.ofNat 256 v)) := rfl
@[simp] theorem Lane.result_cf (l : Lane) (n : Reg) (v : Nat) : (l.result n v).cf = l.cf := rfl
@[simp] theorem Lane.result_cmpf (l : Lane) (n : Reg) (v : Nat) :
    (l.result n v).cmpf = l.cmpf := rfl
@[simp] theorem Lane.result_lc (l : Lane) (n : Reg) (v : Nat) : (l.result n v).lc = l.lc := rfl
@[simp] theorem Lane.result_pc (l : Lane) (n : Reg) (v : Nat) : (l.result n v).pc = l.pc + 1 := rfl
@[simp] theorem Lane.result_out (l : Lane) (n : Reg) (v : Nat) : (l.result n v).out = l.out := rfl
@[simp] theorem Lane.result_outw (l : Lane) (n : Reg) (v : Nat) :
    (l.result n v).outw = l.outw := rfl
@[simp] theorem Lane.result_state (l : Lane) (n : Reg) (v : Nat) :
    (l.result n v).state = l.state := rfl
@[simp] theorem Lane.result_fault (l : Lane) (n : Reg) (v : Nat) :
    (l.result n v).fault = l.fault := rfl
@[simp] theorem Lane.result_faultpc (l : Lane) (n : Reg) (v : Nat) :
    (l.result n v).faultpc = l.faultpc := rfl
@[simp] theorem Lane.result_tid (l : Lane) (n : Reg) (v : Nat) : (l.result n v).tid = l.tid := rfl

/-! ### `Lane.setCf` -/

@[simp] theorem Lane.setCf_x (l : Lane) (c : Nat) : (l.setCf c).x = l.x := rfl
@[simp] theorem Lane.setCf_cf (l : Lane) (c : Nat) : (l.setCf c).cf = decide (c = 1) := rfl
@[simp] theorem Lane.setCf_cmpf (l : Lane) (c : Nat) : (l.setCf c).cmpf = l.cmpf := rfl
@[simp] theorem Lane.setCf_lc (l : Lane) (c : Nat) : (l.setCf c).lc = l.lc := rfl
@[simp] theorem Lane.setCf_pc (l : Lane) (c : Nat) : (l.setCf c).pc = l.pc := rfl
@[simp] theorem Lane.setCf_out (l : Lane) (c : Nat) : (l.setCf c).out = l.out := rfl
@[simp] theorem Lane.setCf_outw (l : Lane) (c : Nat) : (l.setCf c).outw = l.outw := rfl
@[simp] theorem Lane.setCf_state (l : Lane) (c : Nat) : (l.setCf c).state = l.state := rfl
@[simp] theorem Lane.setCf_fault (l : Lane) (c : Nat) : (l.setCf c).fault = l.fault := rfl
@[simp] theorem Lane.setCf_faultpc (l : Lane) (c : Nat) : (l.setCf c).faultpc = l.faultpc := rfl
@[simp] theorem Lane.setCf_tid (l : Lane) (c : Nat) : (l.setCf c).tid = l.tid := rfl

/-! ### `Lane.setCmpf` -/

@[simp] theorem Lane.setCmpf_x (l : Lane) (r : Cmpf) : (l.setCmpf r).x = l.x := rfl
@[simp] theorem Lane.setCmpf_cf (l : Lane) (r : Cmpf) : (l.setCmpf r).cf = l.cf := rfl
@[simp] theorem Lane.setCmpf_cmpf (l : Lane) (r : Cmpf) : (l.setCmpf r).cmpf = r := rfl
@[simp] theorem Lane.setCmpf_lc (l : Lane) (r : Cmpf) : (l.setCmpf r).lc = l.lc := rfl
@[simp] theorem Lane.setCmpf_pc (l : Lane) (r : Cmpf) : (l.setCmpf r).pc = l.pc := rfl
@[simp] theorem Lane.setCmpf_out (l : Lane) (r : Cmpf) : (l.setCmpf r).out = l.out := rfl
@[simp] theorem Lane.setCmpf_outw (l : Lane) (r : Cmpf) : (l.setCmpf r).outw = l.outw := rfl
@[simp] theorem Lane.setCmpf_state (l : Lane) (r : Cmpf) : (l.setCmpf r).state = l.state := rfl
@[simp] theorem Lane.setCmpf_fault (l : Lane) (r : Cmpf) : (l.setCmpf r).fault = l.fault := rfl
@[simp] theorem Lane.setCmpf_faultpc (l : Lane) (r : Cmpf) :
    (l.setCmpf r).faultpc = l.faultpc := rfl
@[simp] theorem Lane.setCmpf_tid (l : Lane) (r : Cmpf) : (l.setCmpf r).tid = l.tid := rfl

/-! ### `Lane.raise` -/

@[simp] theorem Lane.raise_x (l : Lane) (c : Cause) : (l.raise c).x = l.x := rfl
@[simp] theorem Lane.raise_cf (l : Lane) (c : Cause) : (l.raise c).cf = l.cf := rfl
@[simp] theorem Lane.raise_cmpf (l : Lane) (c : Cause) : (l.raise c).cmpf = l.cmpf := rfl
@[simp] theorem Lane.raise_lc (l : Lane) (c : Cause) : (l.raise c).lc = l.lc := rfl
@[simp] theorem Lane.raise_pc (l : Lane) (c : Cause) : (l.raise c).pc = l.pc := rfl
@[simp] theorem Lane.raise_out (l : Lane) (c : Cause) : (l.raise c).out = l.out := rfl
@[simp] theorem Lane.raise_outw (l : Lane) (c : Cause) : (l.raise c).outw = l.outw := rfl
@[simp] theorem Lane.raise_state (l : Lane) (c : Cause) : (l.raise c).state = .faulted := rfl
@[simp] theorem Lane.raise_fault (l : Lane) (c : Cause) : (l.raise c).fault = some c := rfl
@[simp] theorem Lane.raise_faultpc (l : Lane) (c : Cause) : (l.raise c).faultpc = l.pc := rfl
@[simp] theorem Lane.raise_tid (l : Lane) (c : Cause) : (l.raise c).tid = l.tid := rfl

/-! ### `State.fail` -/

@[simp] theorem State.fail_shared (s : State) (c : Cause) : (s.fail c).shared = s.shared := rfl
@[simp] theorem State.fail_before (s : State) (c : Cause) : (s.fail c).before = s.before := rfl
@[simp] theorem State.fail_after (s : State) (c : Cause) : (s.fail c).after = s.after := rfl
@[simp] theorem State.fail_sched (s : State) (c : Cause) : (s.fail c).sched = s.sched := rfl
@[simp] theorem State.fail_lane (s : State) (c : Cause) : (s.fail c).lane = s.lane.raise c := rfl

/-! ### `State.launch` -/

theorem State.reset_eq : State.reset =
    { shared := Shared.reset, before := [], lane := Lane.launch 0, after := [], sched := [] } := rfl

@[simp] theorem State.launch_lanes_length (n : Nat) (sh : Shared) (sched : List Nat) :
    (State.launch n sh sched).lanes.length = max n 1 := by
  simp [State.launch, State.lanes]
  omega

end Sys2Proof.Machine
end

