-- ==== Sys2Proof/Laws/Ops.lean ====
section
/-! SUPPORT. The laws of the shared operations: byte memory and its canonical form, words, the register
file, operand reads, and how a command ends. -/

namespace Sys2Proof.Machine

/-! ### Byte memory -/

/-- Below every listed address nothing is listed. -/
theorem Memory.read_below {m : Memory} {a : Nat} (h : ∀ c ∈ m, a < c.1) :
    m.read a = Memory.unlisted := by
  induction m with
  | nil => rfl
  | cons c m ih =>
    obtain ⟨k, u⟩ := c
    have hk : a < k := h (k, u) List.mem_cons_self
    rw [Memory.read, if_neg (by omega)]
    exact ih fun c hc => h c (List.mem_cons_of_mem _ hc)

/-- Read after write. -/
theorem Memory.read_write {m : Memory} (h : m.wf) (a : Nat) (v : Byte) (a' : Nat) :
    (m.write a v).read a' = if a' = a then v else m.read a' := by
  induction m with
  | nil =>
    rw [Memory.write]
    split
    · by_cases ha : a' = a <;> simp [Memory.read, *]
    · by_cases ha : a' = a
      · simp [Memory.read, ha]
      · simp [Memory.read, ha, Ne.symm ha]
  | cons c m ih =>
    obtain ⟨k, u⟩ := c
    have hp := List.pairwise_cons.1 h.1
    have htail : Memory.wf m := ⟨hp.2, fun c hc => h.2 c (List.mem_cons_of_mem _ hc)⟩
    rw [Memory.write]
    split
    · have hlow : Memory.read ((k, u) :: m) a = Memory.unlisted := by
        refine Memory.read_below fun c hc => ?_
        rcases List.mem_cons.1 hc with rfl | hc
        · assumption
        · have := hp.1 c hc
          simp only at this
          omega
      split
      · by_cases ha : a' = a <;> simp_all
      · by_cases ha : a' = a
        · simp [Memory.read, ha]
        · rw [Memory.read, if_neg (Ne.symm ha), if_neg ha]
    · split
      · subst_vars
        split
        · by_cases ha : a' = k
          · subst ha
            rw [if_pos rfl, Memory.read_below fun c hc => hp.1 c hc, ‹v = _›]
          · rw [if_neg ha, Memory.read, if_neg (Ne.symm ha)]
        · by_cases ha : a' = k
          · simp [Memory.read, ha]
          · rw [if_neg ha, Memory.read, if_neg (Ne.symm ha), Memory.read, if_neg (Ne.symm ha)]
      · by_cases hk : k = a'
        · subst hk
          rw [Memory.read, if_pos rfl, Memory.read, if_pos rfl, if_neg (by omega)]
        · rw [Memory.read, if_neg hk, ih htail, Memory.read, if_neg hk]

/-- A write lists no address but the written one anew. -/
theorem Memory.mem_write {m : Memory} {a : Nat} {v : Byte} {c : Host.Cell}
    (h : c ∈ m.write a v) : c ∈ m ∨ c = (a, v) ∧ v ≠ Memory.unlisted := by
  induction m with
  | nil =>
    rw [Memory.write] at h
    split at h <;> simp_all
  | cons d m ih =>
    obtain ⟨k, u⟩ := d
    rw [Memory.write] at h
    split at h
    · split at h
      · exact .inl h
      · rcases List.mem_cons.1 h with rfl | h
        · exact .inr ⟨rfl, ‹_›⟩
        · exact .inl h
    · split at h
      · split at h
        · exact .inl (List.mem_cons_of_mem _ h)
        · rcases List.mem_cons.1 h with rfl | h
          · exact .inr ⟨rfl, ‹_›⟩
          · exact .inl (List.mem_cons_of_mem _ h)
      · rcases List.mem_cons.1 h with rfl | h
        · exact .inl List.mem_cons_self
        · exact (ih h).imp (List.mem_cons_of_mem _) id

/-- Every write keeps the canonical form. -/
theorem Memory.wf_write {m : Memory} (h : m.wf) (a : Nat) (v : Byte) : Memory.wf (m.write a v) := by
  refine ⟨?_, fun c hc => ?_⟩
  · induction m with
    | nil =>
      rw [Memory.write]
      split <;> simp
    | cons d m ih =>
      obtain ⟨k, u⟩ := d
      have hp := List.pairwise_cons.1 h.1
      have htail : Memory.wf m := ⟨hp.2, fun c hc => h.2 c (List.mem_cons_of_mem _ hc)⟩
      rw [Memory.write]
      split
      · split
        · exact h.1
        · refine List.pairwise_cons.2 ⟨fun c hc => ?_, h.1⟩
          rcases List.mem_cons.1 hc with rfl | hc
          · assumption
          · have := hp.1 c hc
            simp only at this ⊢
            omega
      · split
        · subst_vars
          split
          · exact hp.2
          · exact List.pairwise_cons.2 ⟨hp.1, hp.2⟩
        · refine List.pairwise_cons.2 ⟨fun c hc => ?_, ih htail⟩
          rcases Memory.mem_write hc with hc | ⟨rfl, -⟩
          · exact hp.1 c hc
          · simp only
            omega
  · rcases Memory.mem_write hc with hc | ⟨rfl, hv⟩
    · exact h.2 c hc
    · exact hv

/-! ### Words -/

/-- The bytes of a word give it back. -/
@[simp] theorem wordOfBytes_byteOf (w : Word32) :
    wordOfBytes (byteOf w 0) (byteOf w 1) (byteOf w 2) (byteOf w 3) = w := by
  apply BitVec.eq_of_toNat_eq
  have hw := w.isLt
  simp only [wordOfBytes, byteOf, bits, BitVec.toNat_ofNat]
  omega

theorem Memory.wf_writeWord {m : Memory} (h : m.wf) (i : Nat) (w : Word32) :
    Memory.wf (m.writeWord i w) :=
  Memory.wf_write (Memory.wf_write (Memory.wf_write (Memory.wf_write h _ _) _ _) _ _) _ _

/-- A byte after a word is written: one of the word's bytes, or what it was. -/
theorem Memory.read_writeWord {m : Memory} (h : m.wf) (i : Nat) (w : Word32) (a : Nat) :
    (m.writeWord i w).read a = if a / 4 = i then byteOf w (a % 4) else m.read a := by
  have h1 := Memory.wf_write h (4 * i) (byteOf w 0)
  have h2 := Memory.wf_write h1 (4 * i + 1) (byteOf w 1)
  have h3 := Memory.wf_write h2 (4 * i + 2) (byteOf w 2)
  rw [Memory.writeWord, Memory.read_write h3, Memory.read_write h2, Memory.read_write h1,
    Memory.read_write h]
  by_cases hi : a / 4 = i
  · rw [if_pos hi]
    have hm : a % 4 = 0 ∨ a % 4 = 1 ∨ a % 4 = 2 ∨ a % 4 = 3 := by omega
    rcases hm with hm | hm | hm | hm
    · rw [if_neg (by omega), if_neg (by omega), if_neg (by omega), if_pos (by omega), hm]
    · rw [if_neg (by omega), if_neg (by omega), if_pos (by omega), hm]
    · rw [if_neg (by omega), if_pos (by omega), hm]
    · rw [if_pos (by omega), hm]
  · rw [if_neg hi, if_neg (by omega), if_neg (by omega), if_neg (by omega), if_neg (by omega)]

/-- Read after write, for words: the two accesses are one access. -/
theorem Memory.readWord_writeWord {m : Memory} (h : m.wf) (i : Nat) (w : Word32) (j : Nat) :
    (m.writeWord i w).readWord j = if j = i then w else m.readWord j := by
  simp only [Memory.readWord, Memory.read_writeWord h]
  have e0 : 4 * j / 4 = j := by omega
  have e1 : (4 * j + 1) / 4 = j := by omega
  have e2 : (4 * j + 2) / 4 = j := by omega
  have e3 : (4 * j + 3) / 4 = j := by omega
  have f0 : 4 * j % 4 = 0 := by omega
  have f1 : (4 * j + 1) % 4 = 1 := by omega
  have f2 : (4 * j + 2) % 4 = 2 := by omega
  have f3 : (4 * j + 3) % 4 = 3 := by omega
  rw [e0, e1, e2, e3, f0, f1, f2, f3]
  split <;> simp

/-- The addresses a word write lists lie in that word. -/
theorem Memory.mem_writeWord {m : Memory} {i : Nat} {w : Word32} {c : Host.Cell}
    (h : c ∈ m.writeWord i w) : c ∈ m ∨ c.1 < 4 * (i + 1) := by
  simp only [Memory.writeWord] at h
  rcases Memory.mem_write h with h | ⟨rfl, -⟩
  rcases Memory.mem_write h with h | ⟨rfl, -⟩
  rcases Memory.mem_write h with h | ⟨rfl, -⟩
  rcases Memory.mem_write h with h | ⟨rfl, -⟩
  · exact .inl h
  all_goals right; simp only; omega

theorem wf_writeProgram {m : Memory} (h : m.wf) (i : Nat) (ws : List Word32) :
    Memory.wf (writeProgram m i ws) := by
  induction ws generalizing m i with
  | nil => exact h
  | cons w ws ih => exact ih (Memory.wf_writeWord h i w) (i + 1)

theorem readWord_writeProgram_below {m : Memory} (h : m.wf) {i : Nat} (ws : List Word32) {j : Nat}
    (hj : j < i) : (writeProgram m i ws).readWord j = m.readWord j := by
  induction ws generalizing m i with
  | nil => rfl
  | cons w ws ih =>
    rw [writeProgram, ih (Memory.wf_writeWord h i w) (by omega), Memory.readWord_writeWord h,
      if_neg (by omega)]

/-! ### Registers and operands -/

/-- Reading a register after a write. -/
theorem Lane.readReg_writeReg (l : Lane) (n : Reg) (v : Nat) (m : Reg) :
    (l.writeReg n v).readReg m = if m = n then .ok (BitVec.ofNat 256 v) else l.readReg m := by
  by_cases h : m = n
  · subst h
    simp [Lane.readReg]
  · have h' : (n : Nat) ≠ m := fun e => h (Fin.ext e.symm)
    simp only [Lane.readReg, Lane.writeReg_x, h, if_false]
    rw [Fin.getElem_fin, Vector.getElem_set_ne _ _ h']
    rfl

theorem Lane.readReg_eq_ok {l : Lane} {n : Reg} {v : Word256} (h : l.x[n] = some v) :
    l.readReg n = .ok v := by rw [Lane.readReg, h]

theorem Lane.readReg_eq_error {l : Lane} {n : Reg} (h : l.x[n] = none) :
    l.readReg n = .error .unwrittenReg := by rw [Lane.readReg, h]

/-- One source that holds a value. -/
theorem Lane.source_ok {l : Lane} {n : Reg} {v : Word256} (h : l.x[n] = some v) :
    l.source n = .ok v.toNat := by rw [Lane.source, Lane.readReg_eq_ok h]; rfl

/-- One source that holds none. -/
theorem Lane.source_error {l : Lane} {n : Reg} (h : l.x[n] = none) :
    l.source n = .error .unwrittenReg := by rw [Lane.source, Lane.readReg_eq_error h]; rfl

/-- Two sources that hold values. -/
theorem Lane.sources_ok {l : Lane} {n m : Reg} {v w : Word256} (h : l.x[n] = some v)
    (h' : l.x[m] = some w) : l.sources n m = .ok (v.toNat, w.toNat) := by
  rw [Lane.sources, Lane.readReg_eq_ok h, Lane.readReg_eq_ok h']
  rfl

/-- Two sources of which one holds no value. -/
theorem Lane.sources_error {l : Lane} {n m : Reg} (h : l.x[n] = none ∨ l.x[m] = none) :
    l.sources n m = .error .unwrittenReg := by
  rw [Lane.sources]
  cases hn : l.x[n] with
  | none => rw [Lane.readReg_eq_error hn]; rfl
  | some v =>
    have hm : l.x[m] = none := h.resolve_left (by simp [hn])
    rw [Lane.readReg_eq_ok hn, Lane.readReg_eq_error hm]
    rfl

/-- A source pair that holds values. -/
theorem Lane.sourcePair_ok {l : Lane} {n : Reg} {v w : Word256} (h : l.x[n] = some v)
    (h' : l.x[Reg.high n] = some w) : l.sourcePair n = .ok (v.toNat + 2 ^ 256 * w.toNat) := by
  rw [Lane.sourcePair, Lane.readReg_eq_ok h, Lane.readReg_eq_ok h']
  rfl

/-- A source pair of which one register holds no value. -/
theorem Lane.sourcePair_error {l : Lane} {n : Reg} (h : l.x[n] = none ∨ l.x[Reg.high n] = none) :
    l.sourcePair n = .error .unwrittenReg := by
  rw [Lane.sourcePair]
  cases hn : l.x[n] with
  | none => rw [Lane.readReg_eq_error hn]; rfl
  | some v =>
    have hm : l.x[Reg.high n] = none := h.resolve_left (by simp [hn])
    rw [Lane.readReg_eq_ok hn, Lane.readReg_eq_error hm]
    rfl

@[simp] theorem require_true (c : Cause) : require true c = .ok () := rfl

@[simp] theorem require_false (c : Cause) : require false c = .error c := rfl

@[simp] theorem domain_true : domain true = .ok () := rfl

@[simp] theorem domain_false : domain false = .error .precond := rfl

theorem checkPair_ok {n : Reg} (h : n.isPair = true) : checkPair n = .ok () := by
  rw [checkPair, if_pos h]

theorem checkPair_error {n : Reg} (h : n.isPair = false) : checkPair n = .error .illegalInsn := by
  rw [checkPair, h]
  rfl

@[simp] theorem Except.ok_bind_eq {ε α β : Type} (a : α) (f : α → Except ε β) :
    ((Except.ok a : Except ε α) >>= f) = f a := rfl

@[simp] theorem Except.error_bind_eq {ε α β : Type} (e : ε) (f : α → Except ε β) :
    ((Except.error e : Except ε α) >>= f) = .error e := rfl

@[simp] theorem Except.pure_eq_ok {ε α : Type} (a : α) : (pure a : Except ε α) = .ok a := rfl

/-! ### How a command ends -/

@[simp] theorem State.commit_ok (s : State) (l : Lane) :
    s.commit (.ok l) = .next { s with lane := l } := rfl

@[simp] theorem State.commit_error (s : State) (c : Cause) :
    s.commit (.error c) = .next (s.fail c) := rfl

/-- Everything `commit` can do. -/
theorem State.commit_cases {s t : State} {m : Except Cause Lane} (h : s.commit m = .next t) :
    (∃ l, m = .ok l ∧ t = { s with lane := l }) ∨ ∃ c, m = .error c ∧ t = s.fail c := by
  cases m with
  | ok l => exact .inl ⟨l, rfl, by simpa using h.symm⟩
  | error c => exact .inr ⟨c, rfl, by simpa using h.symm⟩

/-- `commit` always answers a next state. -/
theorem State.commit_next (s : State) (m : Except Cause Lane) : ∃ l, s.commit m = .next
    { s with lane := l } := by
  cases m with
  | ok l => exact ⟨l, rfl⟩
  | error c => exact ⟨s.lane.raise c, rfl⟩

end Sys2Proof.Machine
end

