-- ==== Sys2Proof/Laws/PerInstr.lean ====
section
/-! SUPPORT. A statement about every command as syntax, proved one constructor at a time: the encoder
fills one 32-bit word, and the field decoder reads every operand of it back (30_encoding.md R100 to
R109). -/

namespace Sys2Proof.Laws.Encoding

/-- The command's word has 32 bits and the field decoder gives the command back. -/
def Statement (i : Instr) : Prop := encodeNat i < 2 ^ 32 ∧ decodeFields (encodeNat i) = .ok i

/-! ### One lemma a format -/

theorem fin8_eq {n : Nat} {a : Reg} (h : n = a.val) : Fin.ofNat 8 n = a := by
  subst h
  exact Fin.ext (Nat.mod_eq_of_lt a.isLt)

theorem fin16_eq {n : Nat} {a : Fin 16} (h : n = a.val) : Fin.ofNat 16 n = a := by
  subst h
  exact Fin.ext (Nat.mod_eq_of_lt a.isLt)

theorem bitVec16_eq {n : Nat} {a : BitVec 16} (h : n = a.toNat) : BitVec.ofNat 16 n = a := by
  subst h
  simp

@[simp] theorem reg_ofNat_val (a : Reg) : Fin.ofNat 8 a.val = a := fin8_eq rfl

/-- The fields of a format R word (30_encoding.md R102). -/
theorem packR_fields {op rd rs1 rs2 : Nat} (hop : op < 64) (h1 : rd < 8) (h2 : rs1 < 8)
    (h3 : rs2 < 8) :
    packR op rd rs1 rs2 < 2 ^ 32 ∧ bits (packR op rd rs1 rs2) 31 26 = op ∧
      fieldRd (packR op rd rs1 rs2) = Fin.ofNat 8 rd ∧
      fieldRs1 (packR op rd rs1 rs2) = Fin.ofNat 8 rs1 ∧
      fieldRs2 (packR op rd rs1 rs2) = Fin.ofNat 8 rs2 ∧ bits (packR op rd rs1 rs2) 25 23 = rd ∧
      bits (packR op rd rs1 rs2) 22 20 = rs1 ∧ bits (packR op rd rs1 rs2) 19 17 = rs2 ∧
      bits (packR op rd rs1 rs2) 16 0 = 0 := by
  refine ⟨?_, ?_, congrArg (Fin.ofNat 8) ?_, congrArg (Fin.ofNat 8) ?_, congrArg (Fin.ofNat 8) ?_,
    ?_, ?_, ?_, ?_⟩ <;> simp only [bits, packR] <;> omega

/-- The fields of a format I word (30_encoding.md R103). -/
theorem packI_fields {op : Nat} (hop : op < 64) (rd : Reg) (j : Fin 16) (imm : BitVec 16) :
    packI op rd j imm.toNat < 2 ^ 32 ∧ bits (packI op rd j imm.toNat) 31 26 = op ∧
      fieldRd (packI op rd j imm.toNat) = rd ∧ fieldK4 (packI op rd j imm.toNat) = j ∧
      fieldImm16 (packI op rd j imm.toNat) = imm ∧ bits (packI op rd j imm.toNat) 18 16 = 0 := by
  have h1 := rd.isLt
  have h2 := j.isLt
  have h3 := imm.isLt
  refine ⟨?_, ?_, fin8_eq ?_, fin16_eq ?_, bitVec16_eq ?_, ?_⟩ <;>
    simp only [bits, packI] <;> omega

/-- The fields of a format K word (30_encoding.md R104). -/
theorem packK_fields {op : Nat} (hop : op < 64) (rd : Reg) (k : Fin 16) :
    packK op rd k < 2 ^ 32 ∧ bits (packK op rd k) 31 26 = op ∧ fieldRd (packK op rd k) = rd ∧
      fieldK4 (packK op rd k) = k ∧ bits (packK op rd k) 18 0 = 0 := by
  have h1 := rd.isLt
  have h2 := k.isLt
  refine ⟨?_, ?_, fin8_eq ?_, fin16_eq ?_, ?_⟩ <;> simp only [bits, packK] <;> omega

/-- The fields of a format B word (30_encoding.md R105). -/
theorem packB_fields {op : Nat} (hop : op < 64) (off : BitVec 16) :
    packB op off.toNat < 2 ^ 32 ∧ bits (packB op off.toNat) 31 26 = op ∧
      fieldImm16 (packB op off.toNat) = off ∧ bits (packB op off.toNat) 25 16 = 0 := by
  have h1 := off.isLt
  refine ⟨?_, ?_, bitVec16_eq ?_, ?_⟩ <;> simp only [bits, packB] <;> omega

/-- A format R command with three registers. -/
theorem statement_formR3 {op : Nat} (hop : op < 64) {i : Reg → Reg → Reg → Instr}
    (rd rs1 rs2 : Reg) (he : encodeNat (i rd rs1 rs2) = packR op rd rs1 rs2)
    (hd : ∀ w, bits w 31 26 = op → decodeFields w = formR3 w i) : Statement (i rd rs1 rs2) := by
  obtain ⟨h32, h1, h2, h3, h4, -, -, -, h5⟩ :=
    packR_fields hop rd.isLt rs1.isLt rs2.isLt
  rw [Statement, he, hd _ h1]
  exact ⟨h32, by simp [formR3, whenZero, h2, h3, h4, h5]⟩

/-- A format R command without `rs2`. -/
theorem statement_formR2 {op : Nat} (hop : op < 64) {i : Reg → Reg → Instr} (rd rs1 : Reg)
    (he : encodeNat (i rd rs1) = packR op rd rs1 0)
    (hd : ∀ w, bits w 31 26 = op → decodeFields w = formR2 w i) : Statement (i rd rs1) := by
  obtain ⟨h32, h1, h2, h3, -, -, -, h4, h5⟩ :=
    packR_fields hop rd.isLt rs1.isLt (rs2 := 0) (by omega)
  rw [Statement, he, hd _ h1]
  exact ⟨h32, by simp [formR2, whenZero, h2, h3, h4, h5]⟩

/-- A format R command with `rd` alone. -/
theorem statement_formR1 {op : Nat} (hop : op < 64) {i : Reg → Instr} (rd : Reg)
    (he : encodeNat (i rd) = packR op rd 0 0)
    (hd : ∀ w, bits w 31 26 = op → decodeFields w = formR1 w i) : Statement (i rd) := by
  obtain ⟨h32, h1, h2, -, -, -, h3, h4, h5⟩ :=
    packR_fields hop rd.isLt (rs1 := 0) (rs2 := 0) (by omega) (by omega)
  rw [Statement, he, hd _ h1]
  exact ⟨h32, by simp [formR1, whenZero, h2, h3, h4, h5]⟩

/-- A format K command. -/
theorem statement_formK {op : Nat} (hop : op < 64) {i : Reg → Fin 16 → Instr} (rd : Reg) (k : Fin 16)
    (he : encodeNat (i rd k) = packK op rd k)
    (hd : ∀ w, bits w 31 26 = op → decodeFields w = formK w i) : Statement (i rd k) := by
  obtain ⟨h32, h1, h2, h3, h4⟩ := packK_fields hop rd k
  rw [Statement, he, hd _ h1]
  exact ⟨h32, by simp [formK, whenZero, h2, h3, h4]⟩

/-- A format B command. -/
theorem statement_formB {op : Nat} (hop : op < 64) {i : BitVec 16 → Instr} (off : BitVec 16)
    (he : encodeNat (i off) = packB op off.toNat)
    (hd : ∀ w, bits w 31 26 = op → decodeFields w = formB w i) : Statement (i off) := by
  obtain ⟨h32, h1, h2, h3⟩ := packB_fields hop off
  rw [Statement, he, hd _ h1]
  exact ⟨h32, by simp [formB, whenZero, h2, h3]⟩

/-! ### One lemma a command -/

theorem cmp (rs1 rs2 : Reg) : Statement (.cmp rs1 rs2) := by
  obtain ⟨h32, h1, -, h2, h3, h4, -, -, h5⟩ :=
    packR_fields (op := 1) (rd := 0) (by omega) (by omega) rs1.isLt rs2.isLt
  refine ⟨h32, ?_⟩
  show decodeFields (packR 1 0 rs1 rs2) = _
  simp [decodeFields, whenZero, h1, h2, h3, h4, h5]

theorem add (rd rs1 rs2 : Reg) : Statement (.add rd rs1 rs2) :=
  statement_formR3 (op := 0x02) (by omega) rd rs1 rs2 rfl fun w h => by simp only [decodeFields, h]

theorem sub (rd rs1 rs2 : Reg) : Statement (.sub rd rs1 rs2) :=
  statement_formR3 (op := 0x03) (by omega) rd rs1 rs2 rfl fun w h => by simp only [decodeFields, h]

theorem mulw (rd rs1 rs2 : Reg) : Statement (.mulw rd rs1 rs2) :=
  statement_formR3 (op := 0x04) (by omega) rd rs1 rs2 rfl fun w h => by simp only [decodeFields, h]

theorem sqrw (rd rs1 : Reg) : Statement (.sqrw rd rs1) :=
  statement_formR2 (op := 0x05) (by omega) rd rs1 rfl fun w h => by simp only [decodeFields, h]

theorem fred (rd rs1 : Reg) : Statement (.fred rd rs1) :=
  statement_formR2 (op := 0x08) (by omega) rd rs1 rfl fun w h => by simp only [decodeFields, h]

theorem fadd (rd rs1 rs2 : Reg) : Statement (.fadd rd rs1 rs2) :=
  statement_formR3 (op := 0x09) (by omega) rd rs1 rs2 rfl fun w h => by simp only [decodeFields, h]

theorem fsub (rd rs1 rs2 : Reg) : Statement (.fsub rd rs1 rs2) :=
  statement_formR3 (op := 0x0A) (by omega) rd rs1 rs2 rfl fun w h => by simp only [decodeFields, h]

theorem fneg (rd rs1 : Reg) : Statement (.fneg rd rs1) :=
  statement_formR2 (op := 0x0B) (by omega) rd rs1 rfl fun w h => by simp only [decodeFields, h]

theorem fmul (rd rs1 rs2 : Reg) : Statement (.fmul rd rs1 rs2) :=
  statement_formR3 (op := 0x0C) (by omega) rd rs1 rs2 rfl fun w h => by simp only [decodeFields, h]

theorem fsqr (rd rs1 : Reg) : Statement (.fsqr rd rs1) :=
  statement_formR2 (op := 0x0D) (by omega) rd rs1 rfl fun w h => by simp only [decodeFields, h]

theorem fmred (rd rs1 : Reg) : Statement (.fmred rd rs1) :=
  statement_formR2 (op := 0x0E) (by omega) rd rs1 rfl fun w h => by simp only [decodeFields, h]

theorem tomont (rd rs1 : Reg) : Statement (.tomont rd rs1) :=
  statement_formR2 (op := 0x0F) (by omega) rd rs1 rfl fun w h => by simp only [decodeFields, h]

theorem frommont (rd rs1 : Reg) : Statement (.frommont rd rs1) :=
  statement_formR2 (op := 0x10) (by omega) rd rs1 rfl fun w h => by simp only [decodeFields, h]

theorem mred (rd rs1 : Reg) : Statement (.mred rd rs1) :=
  statement_formR2 (op := 0x14) (by omega) rd rs1 rfl fun w h => by simp only [decodeFields, h]

theorem madd (rd rs1 rs2 : Reg) : Statement (.madd rd rs1 rs2) :=
  statement_formR3 (op := 0x15) (by omega) rd rs1 rs2 rfl fun w h => by simp only [decodeFields, h]

theorem mmul (rd rs1 rs2 : Reg) : Statement (.mmul rd rs1 rs2) :=
  statement_formR3 (op := 0x16) (by omega) rd rs1 rs2 rfl fun w h => by simp only [decodeFields, h]

theorem mov (rd rs1 : Reg) : Statement (.mov rd rs1) :=
  statement_formR2 (op := 0x18) (by omega) rd rs1 rfl fun w h => by simp only [decodeFields, h]

theorem xor (rd rs1 rs2 : Reg) : Statement (.xor rd rs1 rs2) :=
  statement_formR3 (op := 0x19) (by omega) rd rs1 rs2 rfl fun w h => by simp only [decodeFields, h]

theorem lowb (rd rs1 : Reg) : Statement (.lowb rd rs1) :=
  statement_formR2 (op := 0x1A) (by omega) rd rs1 rfl fun w h => by simp only [decodeFields, h]

theorem mul32 (rd rs1 rs2 : Reg) : Statement (.mul32 rd rs1 rs2) :=
  statement_formR3 (op := 0x1B) (by omega) rd rs1 rs2 rfl fun w h => by simp only [decodeFields, h]

theorem zguard (rd rs1 : Reg) : Statement (.zguard rd rs1) :=
  statement_formR2 (op := 0x1C) (by omega) rd rs1 rfl fun w h => by simp only [decodeFields, h]

theorem xfold (rd rs1 : Reg) : Statement (.xfold rd rs1) :=
  statement_formR2 (op := 0x1D) (by omega) rd rs1 rfl fun w h => by simp only [decodeFields, h]

theorem rdf (rd : Reg) : Statement (.rdf rd) :=
  statement_formR1 (op := 0x1E) (by omega) rd rfl fun w h => by simp only [decodeFields, h]

theorem ldi (rd : Reg) (j : Fin 16) (imm16 : BitVec 16) : Statement (.ldi rd j imm16) := by
  obtain ⟨h32, h1, h2, h3, h4, h5⟩ := packI_fields (op := 0x20) (by omega) rd j imm16
  refine ⟨h32, ?_⟩
  show decodeFields (packI 0x20 rd j imm16.toNat) = _
  simp [decodeFields, whenZero, h1, h2, h3, h4, h5]

theorem ldk (rd : Reg) (k4 : Fin 16) : Statement (.ldk rd k4) :=
  statement_formK (op := 0x21) (by omega) rd k4 rfl fun w h => by simp only [decodeFields, h]

theorem ldin (rd : Reg) (off4 : Fin 16) : Statement (.ldin rd off4) :=
  statement_formK (op := 0x22) (by omega) rd off4 rfl fun w h => by simp only [decodeFields, h]

theorem ldtid (rd : Reg) : Statement (.ldtid rd) :=
  statement_formR1 (op := 0x23) (by omega) rd rfl fun w h => by simp only [decodeFields, h]

theorem ldseed (rd : Reg) : Statement (.ldseed rd) :=
  statement_formR1 (op := 0x24) (by omega) rd rfl fun w h => by simp only [decodeFields, h]

theorem ldlc : Statement .ldlc := by unfold Statement; decide

theorem lcbz (off16 : BitVec 16) : Statement (.lcbz off16) :=
  statement_formB (op := 0x29) (by omega) off16 rfl fun w h => by simp only [decodeFields, h]

theorem jmp (off16 : BitVec 16) : Statement (.jmp off16) :=
  statement_formB (op := 0x2A) (by omega) off16 rfl fun w h => by simp only [decodeFields, h]

theorem stout (rs1 : Reg) : Statement (.stout rs1) := by
  obtain ⟨h32, h1, -, h2, -, h3, -, h4, h5⟩ :=
    packR_fields (op := 0x2B) (rd := 0) (rs2 := 0) (by omega) (by omega) rs1.isLt (by omega)
  refine ⟨h32, ?_⟩
  show decodeFields (packR 0x2B 0 rs1 0) = _
  simp [decodeFields, whenZero, h1, h2, h3, h4, h5]

theorem halt : Statement .halt := by unfold Statement; decide

end Sys2Proof.Laws.Encoding
end

