-- ==== Sys2Proof/Laws/Step.lean ====
section
/-! SUPPORT. What a command, the choice of a lane and a step can do, said once: inversion lemmas that
later proofs cite instead of unfolding `exec`, `State.select` and `step`. -/

namespace Sys2Proof.Machine

/-! ### Lanes -/

theorem State.lanes_setLane (s : State) (l : Lane) :
    ({ s with lane := l } : State).lanes = s.before ++ l :: s.after := rfl

theorem State.mem_lanes {s : State} {l : Lane} :
    l ∈ s.lanes ↔ l ∈ s.before ∨ l = s.lane ∨ l ∈ s.after := by
  simp [State.lanes]

/-- Bringing a lane to the front changes no lane and no shared space. -/
theorem State.focus_spec {s t : State} {k : Nat} (h : s.focus k = some t) :
    t.lanes = s.lanes ∧ t.shared = s.shared ∧ t.sched = s.sched ∧ s.lanes[k]? = some t.lane ∧
      t.before.length = k := by
  rw [State.focus] at h
  split at h
  · cases h
  · rename_i l rest hd
    cases h
    have hk : s.lanes[k]? = some l := by rw [← List.head?_drop, hd]; rfl
    have hlt : k < s.lanes.length := (List.getElem?_eq_some_iff.1 hk).1
    refine ⟨?_, rfl, rfl, hk, by simpa using hlt.le⟩
    show s.lanes.take k ++ l :: rest = s.lanes
    rw [← hd, List.take_append_drop]

theorem State.focus_isSome {s : State} {k : Nat} (h : k < s.lanes.length) :
    ∃ t, s.focus k = some t := by
  rw [State.focus]
  split
  · rename_i hd
    have := List.drop_eq_nil_iff.1 hd
    omega
  · exact ⟨_, rfl⟩

theorem State.canStep_iff {s : State} {k : Nat} :
    s.canStep k = true ↔ ∃ l, s.lanes[k]? = some l ∧ l.running = true := by
  rw [State.canStep]
  split <;> simp_all

theorem State.getElem?_lanes_before (s : State) : s.lanes[s.before.length]? = some s.lane := by
  simp [State.lanes]

theorem State.defaultLane_spec {s : State} {k : Nat} (h : s.defaultLane = some k) :
    s.canStep k = true := by
  rw [State.canStep_iff]
  rw [State.defaultLane] at h
  split at h
  · cases h
    exact ⟨_, s.getElem?_lanes_before, ‹_›⟩
  · obtain ⟨hlt, hr, -⟩ := List.findIdx?_eq_some_iff_getElem.1 h
    exact ⟨_, List.getElem?_eq_getElem hlt, hr⟩

/-- The lane that moves next is in RUN. -/
theorem State.nextLane_spec {s : State} {k : Nat} (h : s.nextLane = some k) :
    s.canStep k = true := by
  rw [State.nextLane] at h
  split at h
  · exact State.defaultLane_spec h
  · split at h
    · cases h
      assumption
    · exact State.defaultLane_spec h

/-- Choosing the lane that moves next: a lane in RUN comes to the front, and nothing else changes but
the schedule, which advances. -/
theorem State.select_spec {s t : State} (h : s.select = some t) :
    t.lanes = s.lanes ∧ t.shared = s.shared ∧ t.sched = s.sched.tail ∧ t.lane.running = true ∧
      s.nextLane = some t.before.length := by
  rw [State.select] at h
  split at h
  · cases h
  · rename_i k hk
    obtain ⟨h1, h2, h3, h4, h5⟩ := State.focus_spec h
    obtain ⟨l, hl, hr⟩ := State.canStep_iff.1 (State.nextLane_spec hk)
    have hl' : some l = some t.lane := hl.symm.trans h4
    exact ⟨h1, h2, h3, Option.some.inj hl' ▸ hr, by rw [hk, h5]⟩

/-- A lane is chosen whenever one is in RUN. -/
theorem State.select_isSome {s : State} (h : s.runEnded = false) : ∃ t, s.select = some t := by
  have hd : ∃ k, s.defaultLane = some k := by
    rw [State.defaultLane]
    split
    · exact ⟨_, rfl⟩
    · obtain ⟨l, hl, hr⟩ : ∃ l ∈ s.lanes, l.running = true := by
        simpa [State.runEnded] using h
      cases hf : s.lanes.findIdx? Lane.running with
      | some k => exact ⟨k, rfl⟩
      | none => exact absurd (List.findIdx?_eq_none_iff.1 hf l hl) (by simp [hr])
  obtain ⟨k, hk⟩ : ∃ k, s.nextLane = some k := by
    rw [State.nextLane]
    split
    · exact hd
    · split
      · exact ⟨_, rfl⟩
      · exact hd
  obtain ⟨l, hl, -⟩ := State.canStep_iff.1 (State.nextLane_spec hk)
  have hlt : k < ({ s with sched := s.sched.tail } : State).lanes.length :=
    (List.getElem?_eq_some_iff.1 hl).1
  obtain ⟨t, ht⟩ := State.focus_isSome hlt
  exact ⟨t, by rw [State.select, hk]; exact ht⟩

/-! ### Commands -/

/-- What a command that completes may do to its lane beside operand registers, flags, LC and pc: it
keeps FAULT, FAULTPC and TID, and STATE, OUT and OUTW move only as STOUT and HALT move them. -/
def Lane.CompletesTo (l l' : Lane) : Prop :=
  l'.fault = l.fault ∧ l'.faultpc = l.faultpc ∧ l'.tid = l.tid ∧
    ((l'.state = l.state ∧ l'.out = l.out ∧ l'.outw = l.outw) ∨
      (l'.state = l.state ∧ l.outw = false ∧ l'.outw = true ∧ l'.out.isSome = true) ∨
      (l'.state = .done ∧ l.outw = true ∧ l'.outw = true ∧ l'.out = l.out ∧ l'.pc = l.pc))

theorem Lane.completesTo_of_eq {l l' : Lane} (h1 : l'.fault = l.fault) (h2 : l'.faultpc = l.faultpc)
    (h3 : l'.tid = l.tid) (h4 : l'.state = l.state) (h5 : l'.out = l.out) (h6 : l'.outw = l.outw) :
    l.CompletesTo l' := ⟨h1, h2, h3, .inl ⟨h4, h5, h6⟩⟩

/-- A command whose checks give either a fault or a lane that `CompletesTo` allows. -/
def Commits (s : State) (m : Except Cause Lane) : Prop := ∀ l, m = .ok l → s.lane.CompletesTo l

theorem commits_bind {α : Type} {s : State} {m : Except Cause α} {f : α → Except Cause Lane}
    (h : ∀ a, Commits s (f a)) : Commits s (m >>= f) := by
  intro l hl
  cases m with
  | ok a => exact h a l hl
  | error c => cases hl

theorem commits_ok {s : State} {l : Lane} (h : s.lane.CompletesTo l) : Commits s (.ok l) := by
  rintro _ ⟨⟩
  exact h

theorem commits_error (s : State) (c : Cause) : Commits s (.error c) := by
  rintro _ ⟨⟩

/-- A command that reads one source and ends with a lane that keeps every status register. -/
theorem commits_keep {s : State} {l : Lane} (h1 : l.fault = s.lane.fault)
    (h2 : l.faultpc = s.lane.faultpc) (h3 : l.tid = s.lane.tid) (h4 : l.state = s.lane.state)
    (h5 : l.out = s.lane.out) (h6 : l.outw = s.lane.outw) : Commits s (.ok l) :=
  commits_ok (Lane.completesTo_of_eq h1 h2 h3 h4 h5 h6)

/-- Everything a command can do: it commits the outcome of its checks and writes. -/
theorem exec_commits (i : Instr) (s : State) : ∃ m, exec i s = s.commit m ∧ Commits s m := by
  cases i with
  | ldk rd k4 =>
    show ∃ m, execLdk rd k4 s = s.commit m ∧ Commits s m
    rw [execLdk]
    split
    · exact ⟨_, rfl, commits_keep rfl rfl rfl rfl rfl rfl⟩
    · exact ⟨_, rfl, commits_error s _⟩
  | lcbz off16 =>
    refine ⟨_, rfl, commits_ok ?_⟩
    split <;> exact Lane.completesTo_of_eq rfl rfl rfl rfl rfl rfl
  | stout rs1 =>
    refine ⟨_, rfl, commits_bind fun v => ?_⟩
    cases h : s.lane.outw with
    | true => exact commits_error s _
    | false => exact commits_ok ⟨rfl, rfl, rfl, .inr (.inl ⟨rfl, h, rfl, rfl⟩)⟩
  | halt =>
    refine ⟨_, rfl, ?_⟩
    cases h : s.lane.outw with
    | true => exact commits_ok ⟨rfl, rfl, rfl, .inr (.inr ⟨rfl, h, h, rfl, rfl⟩)⟩
    | false => exact commits_error s _
  | rdf | ldi | ldin | ldtid | ldseed | ldlc | jmp =>
    refine ⟨.ok _, rfl, ?_⟩
    exact commits_keep rfl rfl rfl rfl rfl rfl
  | mov | lowb | zguard | xfold =>
    exact ⟨_, rfl, commits_bind fun _ => commits_keep rfl rfl rfl rfl rfl rfl⟩
  | cmp | add | sub | xor | mul32 =>
    exact ⟨_, rfl, commits_bind fun _ => commits_keep rfl rfl rfl rfl rfl rfl⟩
  | mulw | sqrw =>
    exact ⟨_, rfl, commits_bind fun _ => commits_bind fun _ => commits_keep rfl rfl rfl rfl rfl rfl⟩
  | fred | fadd | fsub | fneg | fmul | fsqr | tomont | frommont =>
    exact ⟨_, rfl, commits_bind fun _ => commits_bind fun _ => commits_keep rfl rfl rfl rfl rfl rfl⟩
  | mred | madd | mmul =>
    exact ⟨_, rfl, commits_bind fun _ => commits_bind fun _ => commits_keep rfl rfl rfl rfl rfl rfl⟩
  | fmred =>
    exact ⟨_, rfl, commits_bind fun _ => commits_bind fun _ => commits_bind fun _ =>
      commits_keep rfl rfl rfl rfl rfl rfl⟩

/-- The outcome of a command, read from the next state: either the lane in front raised a fault and
nothing else changed, or it became a lane that `CompletesTo` allows. -/
theorem exec_cases {i : Instr} {s t : State} (h : exec i s = .next t) :
    (∃ c, t = s.fail c) ∨ ∃ l, t = { s with lane := l } ∧ s.lane.CompletesTo l := by
  obtain ⟨m, hm, hc⟩ := exec_commits i s
  rw [hm] at h
  rcases State.commit_cases h with ⟨l, rfl, rfl⟩ | ⟨c, -, rfl⟩
  · exact .inr ⟨l, rfl, hc l rfl⟩
  · exact .inl ⟨c, rfl⟩

/-! ### Steps -/

/-- The step of the lane in front: a fault of the fetch, or a command. -/
theorem State.stepFront_cases {s t : State} (h : s.stepFront = .next t) :
    (∃ c, s.fetchInstr = .error c ∧ t = s.fail c) ∨
      ∃ i, s.fetchInstr = .ok i ∧ exec i s = .next t := by
  rw [State.stepFront] at h
  split at h
  · exact .inl ⟨_, ‹_›, by simpa using h.symm⟩
  · exact .inr ⟨_, ‹_›, h⟩

/-- A step that answers a next state is the step of a lane in RUN that came to the front. -/
theorem step_cases {s t : State} (h : step s = .next t) :
    ∃ u, s.select = some u ∧ u.stepFront = .next t := by
  rw [step] at h
  split at h
  · cases h
  · exact ⟨_, ‹_›, h⟩

theorem Lane.running_iff (l : Lane) : l.running = true ↔ l.state = .run := by
  rw [Lane.running]
  cases l.state <;> simp

/-- A command always answers a next state. -/
theorem exec_next (i : Instr) (s : State) : ∃ t, exec i s = .next t := by
  obtain ⟨m, hm, -⟩ := exec_commits i s
  obtain ⟨l, hl⟩ := State.commit_next s m
  exact ⟨_, hm.trans hl⟩

/-- The step of the lane in front always answers a next state. -/
theorem State.stepFront_next (s : State) : ∃ t, s.stepFront = .next t := by
  rw [State.stepFront]
  split
  · exact ⟨_, rfl⟩
  · exact exec_next _ _

/-- The step of the lane in front: a fault of that lane, or a lane that `CompletesTo` allows; nothing
else changes. -/
theorem State.stepFront_lane {s t : State} (h : s.stepFront = .next t) :
    (∃ c, t = s.fail c) ∨ ∃ l, t = { s with lane := l } ∧ s.lane.CompletesTo l := by
  rcases State.stepFront_cases h with ⟨c, -, rfl⟩ | ⟨i, -, hi⟩
  · exact .inl ⟨c, rfl⟩
  · exact exec_cases hi

/-- Replacing the lane in front leaves every other lane. -/
theorem State.getElem?_lanes_setLane (s : State) (l : Lane) {j : Nat} (hj : j ≠ s.before.length) :
    ({ s with lane := l } : State).lanes[j]? = s.lanes[j]? := by
  simp only [State.lanes]
  rcases Nat.lt_trichotomy j s.before.length with h | h | h
  · rw [List.getElem?_append_left h, List.getElem?_append_left h]
  · exact absurd h hj
  · rw [List.getElem?_append_right h.le, List.getElem?_append_right h.le]
    obtain ⟨i, hi⟩ : ∃ i, j - s.before.length = i + 1 := ⟨j - s.before.length - 1, by omega⟩
    rw [hi]
    rfl

/-- Everything a step of the block can do: with `u` the state in which the lane that moves is in front,
that lane was in RUN, it alone is replaced, and the shared spaces are as before. -/
theorem step_lane {s t : State} (h : step s = .next t) :
    ∃ u l, s.select = some u ∧ u.lanes = s.lanes ∧ u.shared = s.shared ∧ u.lane.state = .run ∧
      s.lanes[u.before.length]? = some u.lane ∧ t = { u with lane := l } ∧
      ((∃ c, l = u.lane.raise c) ∨ u.lane.CompletesTo l) := by
  obtain ⟨u, hs, hf⟩ := step_cases h
  obtain ⟨h1, h2, -, h4, -⟩ := State.select_spec hs
  have h6 : s.lanes[u.before.length]? = some u.lane := h1 ▸ u.getElem?_lanes_before
  rcases State.stepFront_lane hf with ⟨c, rfl⟩ | ⟨l, rfl, hl⟩
  · exact ⟨u, _, hs, h1, h2, (Lane.running_iff _).1 h4, h6, rfl, .inl ⟨c, rfl⟩⟩
  · exact ⟨u, l, hs, h1, h2, (Lane.running_iff _).1 h4, h6, rfl, .inr hl⟩

end Sys2Proof.Machine
end

