-- ==== Sys2Proof/Machine/Assembly.lean ====
section
/-! DEFINITION. The assembler's text form of a command, its pseudo-commands and its branch offsets
(30_encoding.md R113, R114): the text of a command, and the assembler from lines whose text is read.
Reading characters, numbers and comments is no part of the machine. -/

namespace Sys2Proof.Machine

/-- `x0` to `x7` (30_encoding.md R113). -/
def regName (n : Reg) : String := "x" ++ toString n.val

/-- A branch target as a signed offset, `.+n` or `.-n` (30_encoding.md R113). -/
def offsetText (off16 : BitVec 16) : String :=
  match sext16 off16 with
  | Int.ofNat n => ".+" ++ toString n
  | Int.negSucc n => ".-" ++ toString (n + 1)

/-- `MNEMONIC operands`, operands separated by commas (30_encoding.md R113). -/
def line (i : Instr) (operands : List String) : String :=
  match operands with
  | [] => i.mnemonic
  | _ => i.mnemonic ++ " " ++ String.intercalate ", " operands

/-- The operands of a command in the order of the syntax (30_encoding.md R113). DESIGN CHOICE: numbers are
written in decimal, of the two forms R113 allows (log 19). -/
def operandTexts : Instr → List String
  | .cmp rs1 rs2 => [regName rs1, regName rs2]
  | .add rd rs1 rs2 | .sub rd rs1 rs2 | .mulw rd rs1 rs2 => [regName rd, regName rs1, regName rs2]
  | .fadd rd rs1 rs2 | .fsub rd rs1 rs2 | .fmul rd rs1 rs2 => [regName rd, regName rs1, regName rs2]
  | .madd rd rs1 rs2 | .mmul rd rs1 rs2 => [regName rd, regName rs1, regName rs2]
  | .xor rd rs1 rs2 | .mul32 rd rs1 rs2 => [regName rd, regName rs1, regName rs2]
  | .sqrw rd rs1 | .fred rd rs1 | .fneg rd rs1 | .fsqr rd rs1 => [regName rd, regName rs1]
  | .fmred rd rs1 | .tomont rd rs1 | .frommont rd rs1 => [regName rd, regName rs1]
  | .mred rd rs1 | .mov rd rs1 | .lowb rd rs1 | .zguard rd rs1 => [regName rd, regName rs1]
  | .xfold rd rs1 => [regName rd, regName rs1]
  | .rdf rd | .ldtid rd | .ldseed rd => [regName rd]
  | .ldi rd j imm16 => [regName rd, toString j.val, toString imm16.toNat]
  | .ldk rd k4 => [regName rd, toString k4.val]
  | .ldin rd off4 => [regName rd, toString off4.val]
  | .lcbz off16 | .jmp off16 => [offsetText off16]
  | .stout rs1 => [regName rs1]
  | .ldlc | .halt => []

/-- A command as a line of assembly (30_encoding.md R113). -/
def assembly (i : Instr) : String := line i (operandTexts i)

/-- The 16-bit field of a signed offset; one outside [-32768, 32767] is refused (30_encoding.md
R113). -/
def offsetField (d : Int) : Option (BitVec 16) :=
  if -32768 ≤ d ∧ d ≤ 32767 then some (BitVec.ofInt 16 d) else none

/-- The offset the assembler stores for a branch at `branch` to `target`,
`off16 = target_index - branch_index` (30_encoding.md R113). -/
def assembleOffset (branch target : Nat) : Option (BitVec 16) :=
  offsetField ((target : Int) - (branch : Int))

/-- Pseudo-command `LI rd, imm16` (30_encoding.md R114). -/
def pseudoLi (rd : Reg) (imm16 : BitVec 16) : Instr := .ldi rd 0 imm16

/-- Pseudo-command `CLR rd` (30_encoding.md R114). -/
def pseudoClr (rd : Reg) : Instr := .ldi rd 0 0

/-- Pseudo-command `B target` (30_encoding.md R114). -/
def pseudoB (off16 : BitVec 16) : Instr := .jmp off16

/-! ### Source lines -/

/-- A branch target in a source line (30_encoding.md R113). -/
inductive Target where
  /-- A label. -/
  | label (name : String)
  /-- A signed offset, `.+n` or `.-n`. -/
  | offset (n : Int)
deriving DecidableEq, Repr

/-- A source line, its text already read (30_encoding.md R113, R114). -/
inductive SourceLine where
  /-- `name:`, which marks the index of the next command. -/
  | label (name : String)
  /-- A command without a branch target, or a branch with its field given. -/
  | command (i : Instr)
  /-- `LCBZ target`. -/
  | lcbz (target : Target)
  /-- `JMP target`. -/
  | jmp (target : Target)
  /-- `LI rd, imm16`. -/
  | li (rd : Reg) (imm16 : BitVec 16)
  /-- `CLR rd`. -/
  | clr (rd : Reg)
  /-- `B target`. -/
  | b (target : Target)
deriving DecidableEq, Repr

/-- The index of the next command after a label, counting from `i` (30_encoding.md R113). DESIGN CHOICE: of
two lines with one label the first counts (log 18). DESIGN CHOICE: a label after which no command follows
names the number of commands, the index just past the program (log 19). -/
def labelIndex (name : String) (i : Nat) : List SourceLine → Option Nat
  | [] => none
  | .label n :: rest => if n = name then some i else labelIndex name i rest
  | _ :: rest => labelIndex name (i + 1) rest

/-- The offset field of a branch at index `branch` (30_encoding.md R113). -/
def Target.resolve (source : List SourceLine) (branch : Nat) : Target → Option (BitVec 16)
  | .label name => (labelIndex name 0 source).bind (assembleOffset branch)
  | .offset n => offsetField n

/-- The commands of the lines from index `i` on; a label that no line carries, an offset out of range
and a command that no word encodes are refused (30_encoding.md R108, R113, R114). DESIGN CHOICE: the first
and the third of these, on which the spec is silent (log 19). -/
def assembleFrom (source : List SourceLine) (i : Nat) : List SourceLine → Option (List Instr)
  | [] => some []
  | .label _ :: rest => assembleFrom source i rest
  | .command c :: rest =>
    if c.wellFormed then (assembleFrom source (i + 1) rest).map (c :: ·) else none
  | .lcbz target :: rest => do
    let off ← target.resolve source i
    return .lcbz off :: (← assembleFrom source (i + 1) rest)
  | .jmp target :: rest => do
    let off ← target.resolve source i
    return .jmp off :: (← assembleFrom source (i + 1) rest)
  | .li rd imm16 :: rest => (assembleFrom source (i + 1) rest).map (pseudoLi rd imm16 :: ·)
  | .clr rd :: rest => (assembleFrom source (i + 1) rest).map (pseudoClr rd :: ·)
  | .b target :: rest => do
    let off ← target.resolve source i
    return pseudoB off :: (← assembleFrom source (i + 1) rest)

/-- The words of a source program, the first at index 0 (30_encoding.md R113, R114). DESIGN CHOICE: a source
of any number of commands is assembled, none and more than 65536 included (log 19). -/
def assemble (source : List SourceLine) : Option (List Word32) :=
  (assembleFrom source 0 source).map (·.map encode)

end Sys2Proof.Machine
end

