-- ==== Sys2Proof/Machine/Kernels.lean ====
section
/-! DEFINITION. The canonical kernels as the spec lists them (44_loop_control.md R221 to R224): data
that the host may load (`State.boot`). The machine does not know them; nothing here is part of a step.
-/

namespace Sys2Proof.Machine

/-- `THREAD_MULT` of the canonical derivation (44_loop_control.md R221). -/
def threadMult : Word32 := 0x9E3779B9#32

/-- `mix = ((TID * THREAD_MULT) mod 2^32) XOR seed` (44_loop_control.md R221). -/
def kernelMix (tid seed : Word32) : Word32 := (tid * threadMult) ^^^ seed

/-- Commands 0 to 8 of every canonical kernel: the mix and the first operand (44_loop_control.md
R222). -/
def kernelPrologue : List Word32 :=
  [0x8C800000#32, 0x810079B9#32, 0x81889E37#32, 0x65260000#32, 0x6D140000#32, 0x91800000#32,
   0x65260000#32, 0x88000000#32, 0x64040000#32]

/-- A BN254 kernel whose field operation is the word `op` (44_loop_control.md R222, R224). -/
def kernelBn (op : Word32) : List Word32 :=
  kernelPrologue ++
  [0x20000000#32, 0x88880000#32, 0x64940000#32, 0x20900000#32, 0xA0000000#32, 0xA4000006#32, op,
   0x69800000#32, 0x64960000#32, 0x20900000#32, 0xA800FFFB#32, 0x75800000#32, 0xAC300000#32,
   0xB0000000#32]

/-- K_BNMUL (44_loop_control.md R222). -/
def kernelBnMul : List Word32 := kernelBn 0x30020000#32

/-- K_BNADD (44_loop_control.md R224). -/
def kernelBnAdd : List Word32 := kernelBn 0x24020000#32

/-- K_BNSUB (44_loop_control.md R224). -/
def kernelBnSub : List Word32 := kernelBn 0x28020000#32

/-- K_M31MUL (44_loop_control.md R223). -/
def kernelM31Mul : List Word32 :=
  kernelPrologue ++
  [0x50000000#32, 0x70000000#32, 0x88880000#32, 0x64940000#32, 0x50900000#32, 0x70900000#32,
   0xA0000000#32, 0xA4000007#32, 0x58020000#32, 0x69800000#32, 0x64960000#32, 0x50900000#32,
   0x70900000#32, 0xA800FFFA#32, 0xAC000000#32, 0xB0000000#32]

/-- K_M31ADD (44_loop_control.md R224). -/
def kernelM31Add : List Word32 :=
  kernelPrologue ++
  [0x50000000#32, 0x88880000#32, 0x64940000#32, 0x50900000#32, 0xA0000000#32, 0xA4000006#32,
   0x54020000#32, 0x69800000#32, 0x64960000#32, 0x50900000#32, 0xA800FFFB#32, 0xAC000000#32,
   0xB0000000#32]

end Sys2Proof.Machine
end

