-- ==== Sys2Proof/Tests/Slice0.lean ====
section
/-! SUPPORT. The model's own tests. Expected values are the spec's (30_encoding.md R101 to R109, R115;
95_test_vectors.md Part 2), never the model's own answers. The witnesses at the end show, for every
obligation with hypotheses, states and operands that meet them, clause by clause. -/

namespace Sys2Proof.Tests

open Sys2Proof.Machine Sys2Proof.Claims

set_option Elab.async false

/-! ### Helpers -/

/-- `s` with `v` in `X[n]` of the lane in front. -/
def put (s : State) (n : Reg) (v : Nat) : State :=
  { s with lane := { s.lane with x := s.lane.x.set n (some (BitVec.ofNat 256 v)) } }

/-- The launch state of one lane with x0 = `a`, every other register ⊥. -/
def one (a : Nat) : State := put State.reset 0 a

/-- The launch state of one lane with x0 = `a`, x1 = `b`, every other register ⊥. -/
def two (a b : Nat) : State := put (one a) 1 b

/-- The state after the step that fetches the word `w`. -/
def stepped (w : Nat) (s : State) : Option State :=
  match step (s.withFetchWord 32 w) with
  | .next t => some t
  | .fault _ => none
  | .refused _ => none

/-- `X[n]` of the lane in front. -/
def reg (o : Option State) (n : Reg) : Option Nat := o.bind fun t => t.lane.x[n].map BitVec.toNat

/-- CF of the lane in front. -/
def carry (o : Option State) : Option Bool := o.map fun t => t.lane.cf

/-- CMPF of the lane in front. -/
def compared (o : Option State) : Option Cmpf := o.map fun t => t.lane.cmpf

/-- FAULT of the lane in front. -/
def cause (o : Option State) : Option Cause := o.bind fun t => t.lane.fault

/-- LC and pc of the lane in front. -/
def loopAndPc (o : Option State) : Option (Nat × Nat) :=
  o.map fun t => (t.lane.lc.toNat, t.lane.pc.toNat)

/-- The launch state with LC = `lc` and pc = `pc`. -/
def at_ (lc pc : Nat) : State :=
  { State.reset with
    lane := { State.reset.lane with lc := BitVec.ofNat 32 lc, pc := BitVec.ofNat 16 pc } }

/-- The launch state with thread id `t`, PARAMS = {3, 0x12345678, 0, 0} and
INPUT[i] = i * 0x11111111 (95_test_vectors.md Part 2). -/
def thread (t : Nat) : State :=
  { State.reset with
    shared :=
      { State.reset.shared with
        input := (Vector.range 16).map fun i => BitVec.ofNat 32 (i * 0x11111111)
        params := #v[3, 0x12345678, 0, 0] }
    lane := { State.reset.lane with tid := BitVec.ofNat 32 t } }

/-- `s` after the output word `v` was written. -/
def wroteOut (s : State) (v : Nat) : State :=
  { s with lane := { s.lane with out := some (BitVec.ofNat 32 v), outw := true } }

/-- `s` with the flags `r` and `c`. -/
def flags (s : State) (r : Cmpf) (c : Bool) : State :=
  { s with lane := { s.lane with cmpf := r, cf := c } }

/-- `Rm = 2^256 mod P` (95_test_vectors.md, notation). -/
def rm : Nat := 0xe0a77c19a07df2f666ea36f7879462c0a78eb28f5c70b3dd35d438dc58f0d9d

/-- `Rinv = 2^-256 mod P` (95_test_vectors.md, notation). -/
def rinv : Nat := 0x2e67157159e5c639cf63e9cfb74492d9eb2022850278edf8ed84884a014afa37

/-- `M(2)` (95_test_vectors.md, notation). -/
def m2 : Nat := 0x1c14ef83340fbe5eccdd46def0f28c5814f1d651eb8e167ba6ba871b8b1e1b3a

/-- `M(4)` (95_test_vectors.md, notation). -/
def m4 : Nat := 0x7c5909386eddc93e16a48076063c052926242126eaa626a115482203dbf392d

/-- `P` (10_state.md R50), written out again. -/
def bigP : Nat := 0x30644e72e131a029b85045b68181585d97816a916871ca8d3c208c16d87cfd47

/-! ### Well-formedness: an ill-formed term for each check (30_encoding.md R108, R109) -/

theorem test_illformed_mulw : (Instr.mulw 3 0 0).wellFormed = false := by decide

theorem test_illformed_sqrw : (Instr.sqrw 7 0).wellFormed = false := by decide

theorem test_illformed_fmred : (Instr.fmred 0 1).wellFormed = false := by decide

theorem test_illformed_ldk : (Instr.ldk 0 4).wellFormed = false := by decide

/-! ### Decoding -/

/-- The words of this family, bit by bit from 30_encoding.md R101 to R109. -/
theorem test_decode_bigint :
    ∀ c ∈ ([(.cmp 5 6, 0b000001_000_101_110_00000000000000000#32),
      (.add 7 5 6, 0b000010_111_101_110_00000000000000000#32),
      (.sub 3 4 1, 0b000011_011_100_001_00000000000000000#32),
      (.mulw 6 7 5, 0b000100_110_111_101_00000000000000000#32),
      (.sqrw 2 7, 0b000101_010_111_000_00000000000000000#32)] :
        List (Instr × Word32)), decode c.2 = .ok c.1 ∧ encode c.1 = c.2 := by
  decide +kernel

/-- The words of this family, bit by bit from 30_encoding.md R101 to R109. -/
theorem test_decode_bn254 :
    ∀ c ∈ ([(.fred 3 6, 0b001000_011_110_000_00000000000000000#32),
      (.fadd 1 2 4, 0b001001_001_010_100_00000000000000000#32),
      (.fsub 4 1 2, 0b001010_100_001_010_00000000000000000#32),
      (.fneg 5 3, 0b001011_101_011_000_00000000000000000#32),
      (.fmul 2 4 7, 0b001100_010_100_111_00000000000000000#32),
      (.fsqr 6 1, 0b001101_110_001_000_00000000000000000#32),
      (.fmred 7 6, 0b001110_111_110_000_00000000000000000#32),
      (.tomont 1 4, 0b001111_001_100_000_00000000000000000#32),
      (.frommont 4 7, 0b010000_100_111_000_00000000000000000#32)] :
        List (Instr × Word32)), decode c.2 = .ok c.1 ∧ encode c.1 = c.2 := by
  decide +kernel

/-- The words of this family, bit by bit from 30_encoding.md R101 to R109. -/
theorem test_decode_mersenne :
    ∀ c ∈ ([(.mred 6 3, 0b010100_110_011_000_00000000000000000#32),
      (.madd 5 3 6, 0b010101_101_011_110_00000000000000000#32),
      (.mmul 3 6 5, 0b010110_011_110_101_00000000000000000#32)] :
        List (Instr × Word32)), decode c.2 = .ok c.1 ∧ encode c.1 = c.2 := by
  decide +kernel

/-- The words of this family, bit by bit from 30_encoding.md R101 to R109. -/
theorem test_decode_data_movement :
    ∀ c ∈ ([(.mov 4 3, 0b011000_100_011_000_00000000000000000#32),
      (.xor 6 5 3, 0b011001_110_101_011_00000000000000000#32),
      (.lowb 1 6, 0b011010_001_110_000_00000000000000000#32),
      (.mul32 7 1 2, 0b011011_111_001_010_00000000000000000#32),
      (.zguard 2 5, 0b011100_010_101_000_00000000000000000#32),
      (.xfold 5 2, 0b011101_101_010_000_00000000000000000#32),
      (.rdf 6, 0b011110_110_000_000_00000000000000000#32),
      (.ldi 5 10 0xC001#16, 0b100000_101_1010_000_1100000000000001#32),
      (.ldk 6 3, 0b100001_110_0011_0000000000000000000#32),
      (.ldin 3 12, 0b100010_011_1100_0000000000000000000#32),
      (.ldtid 5, 0b100011_101_000_000_00000000000000000#32),
      (.ldseed 3, 0b100100_011_000_000_00000000000000000#32)] :
        List (Instr × Word32)), decode c.2 = .ok c.1 ∧ encode c.1 = c.2 := by
  decide +kernel

/-- The words of this family, bit by bit from 30_encoding.md R101 to R109. -/
theorem test_decode_loop_control :
    ∀ c ∈ ([(.ldlc, 0b101000_00000000000000000000000000#32),
      (.lcbz 0x8001#16, 0b101001_0000000000_1000000000000001#32),
      (.jmp 0xFFFB#16, 0b101010_0000000000_1111111111111011#32),
      (.stout 6, 0b101011_000_110_000_00000000000000000#32),
      (.halt, 0b101100_00000000000000000000000000#32)] :
        List (Instr × Word32)), decode c.2 = .ok c.1 ∧ encode c.1 = c.2 := by
  decide +kernel
/-- The illegal words of 95_test_vectors.md section 2.6, with the clause of R111 that each fails. -/
theorem test_decode_illegal :
    decode 0x00000000#32 = .error .unassignedOp ∧ decode 0xFFFFFFFF#32 = .error .unassignedOp ∧
      decode 0x11800000#32 = .error .extraCondition ∧
      decode 0x84200000#32 = .error .extraCondition ∧
      decode 0x39100000#32 = .error .extraCondition ∧
      decode 0x08800001#32 = .error .reservedField := by
  decide +kernel

/-- `FMUL x0, x0, x1` is 30020000 (44_loop_control.md R222), laid out little-endian. -/
theorem test_decode_bytes :
    decodeBytes [0x00#8, 0x00#8, 0x02#8, 0x30#8] = .ok (.fmul 0 0 1) ∧
      decodeTableWord 32 0x30020000 = some (.fmul 0 0 1) ∧
      decodeBytes [0x00#8, 0x00#8, 0x02#8] = .error .notOneWord := by
  decide +kernel

/-- A lane's first step after reset runs the placed word. -/
theorem test_first_step_after_reset :
    cause (stepped 0xB0000000 State.reset) = some .noOutput ∧
      reg (stepped 0x85100000 State.reset) 2 = some 0x7fffffff := by
  decide +kernel

/-- K_BNMUL line 19, `JMP .-5` from 19 to 14, and the assembler's range check (30_encoding.md R113). -/
theorem test_assemble_offset :
    assembleOffset 19 14 = some 0xFFFB#16 ∧ assembleOffset 0 32767 = some 0x7FFF#16 ∧
      assembleOffset 0 32768 = none := by
  decide +kernel

/-- The loop of K_BNMUL with its labels (44_loop_control.md R222, lines 13 to 20). -/
theorem test_assemble_labels :
    assemble [.command .ldlc, .label "loop", .lcbz (.label "done"), .command (.fmul 0 0 1),
      .command (.lowb 3 0), .command (.xor 1 1 3), .command (.fred 1 1), .b (.label "loop"),
      .label "done", .command (.xfold 3 0)] =
      some [0xA0000000#32, 0xA4000006#32, 0x30020000#32, 0x69800000#32, 0x64960000#32,
        0x20900000#32, 0xA800FFFB#32, 0x75800000#32] := by
  decide +kernel

/-- Every word of the longest kernel is legal (44_loop_control.md R223). -/
theorem test_kernel_words_legal :
    (kernelM31Mul.filter fun w =>
      match decode w with
      | .ok _ => true
      | .error _ => false).length = 25 := by
  decide +kernel

/-! ### Big-integer commands (95_test_vectors.md section 2.1) -/

theorem test_cmp_order :
    compared (stepped 0x04020000 (two 0x10000 0xffff)) = some .greater ∧
      compared (stepped 0x04020000 (two 1 2)) = some .less := by decide +kernel

theorem test_cmp_equal : compared (stepped 0x04020000 (two bigP bigP)) = some .equal := by
  decide +kernel

theorem test_add_carry_out :
    reg (stepped 0x09020000 (two (2 ^ 256 - 1) 1)) 2 = some 0 ∧
      carry (stepped 0x09020000 (two (2 ^ 256 - 1) 1)) = some true := by decide +kernel

/-- `ADD x0, x0, x0`: the destination is a source. -/
theorem test_add_aliased :
    reg (stepped 0x08000000 (one (2 ^ 255))) 0 = some 0 ∧
      carry (stepped 0x08000000 (one (2 ^ 255))) = some true := by decide +kernel

theorem test_sub_full_borrow :
    reg (stepped 0x0D020000 (two 0 1)) 2 = some (2 ^ 256 - 1) ∧
      carry (stepped 0x0D020000 (two 0 1)) = some true := by decide +kernel

/-- The equal limb with an incoming borrow (95_test_vectors.md S12). -/
theorem test_sub_equal_limb :
    reg (stepped 0x0D020000 (two 0x100010000 0x10001)) 2 = some 0xffffffff ∧
      carry (stepped 0x0D020000 (two 0x100010000 0x10001)) = some false := by decide +kernel

theorem test_mulw_widest :
    reg (stepped 0x11020000 (two (2 ^ 256 - 1) (2 ^ 256 - 1))) 2 = some 1 ∧
      reg (stepped 0x11020000 (two (2 ^ 256 - 1) (2 ^ 256 - 1))) 3 = some (2 ^ 256 - 2) := by
  decide +kernel

/-- `MULW x0, x0, x0`: the destination pair covers the source. -/
theorem test_mulw_aliased :
    reg (stepped 0x10000000 (one (2 ^ 255))) 0 = some 0 ∧
      reg (stepped 0x10000000 (one (2 ^ 255))) 1 = some (2 ^ 254) := by decide +kernel

theorem test_sqrw_limbs :
    reg (stepped 0x15000000 (one 0x10001)) 2 = some 0x100020001 ∧
      reg (stepped 0x15000000 (one 0x10001)) 3 = some 0 := by decide +kernel

theorem test_sqrw_modulus :
    reg (stepped 0x15000000 (one bigP)) 2 =
        some 0x4689e957a1242c84a50189c6d96cadca602072d09eac1013b5458a2275d69b1 ∧
      reg (stepped 0x15000000 (one bigP)) 3 =
        some 0x925c4b8763cbf9c599a6f7c0348d21cb00b85511637560626edfa5c34c6b38d := by
  decide +kernel

/-! ### BN254 commands (95_test_vectors.md section 2.2) -/

theorem test_fred_reduces :
    reg (stepped 0x21000000 (one (2 * bigP - 1))) 2 = some (bigP - 1) ∧
      reg (stepped 0x21000000 (one bigP)) 2 = some 0 := by decide +kernel

theorem test_fred_domain :
    cause (stepped 0x21000000 (one (2 * bigP))) = some .precond ∧
      reg (stepped 0x21000000 (one (2 * bigP))) 2 = none := by decide +kernel

theorem test_fadd_wraps :
    reg (stepped 0x25020000 (two (bigP - 1) 1)) 2 = some 0 ∧
      reg (stepped 0x25020000 (two (bigP - 1) (bigP - 1))) 2 = some (bigP - 2) := by decide +kernel

theorem test_fadd_domain : cause (stepped 0x25020000 (two bigP 0)) = some .precond := by
  decide +kernel

theorem test_fsub_borrows :
    reg (stepped 0x29020000 (two 0 1)) 2 = some (bigP - 1) ∧
      reg (stepped 0x29020000 (two 0 (bigP - 1))) 2 = some 1 := by decide +kernel

theorem test_fsub_order : reg (stepped 0x29020000 (two 3 5)) 2 = some (bigP - 2) := by
  decide +kernel

theorem test_fneg_zero :
    reg (stepped 0x2D000000 (one 0)) 2 = some 0 ∧
      reg (stepped 0x2D000000 (one 1)) 2 = some (bigP - 1) := by decide +kernel

theorem test_fneg_domain : cause (stepped 0x2D000000 (one bigP)) = some .precond := by
  decide +kernel

theorem test_fmul_boundary :
    reg (stepped 0x31020000 (two (bigP - 1) (bigP - 1))) 2 = some rinv ∧
      reg (stepped 0x31020000 (two rm rm)) 2 = some rm := by decide +kernel

theorem test_fmul_domain : cause (stepped 0x31020000 (two bigP 1)) = some .precond := by
  decide +kernel

theorem test_fsqr_values :
    reg (stepped 0x35000000 (one m2)) 2 = some m4 ∧
      reg (stepped 0x35000000 (one (bigP - 1))) 2 = some rinv := by decide +kernel

theorem test_fsqr_unwritten : cause (stepped 0x35000000 State.reset) = some .unwrittenReg := by
  decide +kernel

theorem test_fmred_halves :
    reg (stepped 0x39000000 (two 1 0)) 2 = some rinv ∧
      reg (stepped 0x39000000 (two 0 1)) 2 = some 1 := by decide +kernel

/-- The last value in the domain and the first outside it. -/
theorem test_fmred_edge :
    reg (stepped 0x39000000 (two (2 ^ 256 - 1) (bigP - 1))) 2 =
        some 0x1fd3901874bd9efe8ec5be6ca3cc583ac61480c65f8dc944e9c03ccd7320310 ∧
      cause (stepped 0x39000000 (two 0 bigP)) = some .precond := by decide +kernel

theorem test_tomont_values :
    reg (stepped 0x3D000000 (one 1)) 2 = some rm ∧ reg (stepped 0x3D000000 (one 2)) 2 = some m2 := by
  decide +kernel

theorem test_tomont_boundary :
    reg (stepped 0x3D000000 (one (bigP - 1))) 2 =
      some 0x2259d6b14729c0fa51e1a247090812318d087f6872aabf4f68c3488912edefaa := by
  decide +kernel

theorem test_frommont_values :
    reg (stepped 0x41000000 (one rm)) 2 = some 1 ∧
      reg (stepped 0x41000000 (one 1)) 2 = some rinv := by decide +kernel

theorem test_frommont_domain : cause (stepped 0x41000000 (one bigP)) = some .precond := by
  decide +kernel

/-! ### Mersenne commands (95_test_vectors.md section 2.3) -/

theorem test_mred_edges :
    reg (stepped 0x51000000 (one 0xffffffff)) 2 = some 1 ∧
      reg (stepped 0x51000000 (one 0xfffffffe)) 2 = some 0 ∧
      reg (stepped 0x51000000 (one 0xfffffffd)) 2 = some 0x7ffffffe := by decide +kernel

theorem test_mred_domain : cause (stepped 0x51000000 (one (2 ^ 32))) = some .precond := by
  decide +kernel

theorem test_madd_wraps :
    reg (stepped 0x55020000 (two 0x7ffffffe 1)) 2 = some 0 ∧
      reg (stepped 0x55020000 (two 0x40000000 0x40000000)) 2 = some 1 := by decide +kernel

theorem test_madd_domain : cause (stepped 0x55020000 (two 0x7fffffff 0)) = some .precond := by
  decide +kernel

theorem test_mmul_boundary :
    reg (stepped 0x59020000 (two 0x7ffffffe 0x7ffffffe)) 2 = some 1 ∧
      reg (stepped 0x59020000 (two 0x12345678 0x3254769)) 2 = some 0x633d4687 := by decide +kernel

theorem test_mmul_powers :
    reg (stepped 0x59020000 (two 0x7ffffffe 0x40000000)) 2 = some 0x3fffffff := by decide +kernel

/-! ### Data movement (95_test_vectors.md section 2.4) -/

theorem test_mov_copies : reg (stepped 0x61000000 (one bigP)) 2 = some bigP := by decide +kernel

theorem test_xor_words :
    reg (stepped 0x65020000 (two 0x33333333 0x12345678)) 2 = some 0x2107654b := by decide +kernel

theorem test_lowb_byte :
    reg (stepped 0x69000000 (one 0x1234)) 2 = some 0x34 ∧
      reg (stepped 0x69000000 (one (2 ^ 256 - 1))) 2 = some 0xff := by decide +kernel

theorem test_mul32_low_words :
    reg (stepped 0x6D020000 (two (2 ^ 32 + 3) 2)) 2 = some 6 ∧
      reg (stepped 0x6D020000 (two 0xffffffff 0xffffffff)) 2 = some 1 := by decide +kernel

theorem test_zguard_zero :
    reg (stepped 0x71000000 (one 0)) 2 = some 1 ∧ reg (stepped 0x71000000 (one 5)) 2 = some 5 := by
  decide +kernel

theorem test_xfold_limbs :
    reg (stepped 0x75000000 (one bigP)) 2 = some 0xd1d5 ∧
      reg (stepped 0x75000000 (one 0x12345678)) 2 = some 0x444c := by decide +kernel

theorem test_rdf_flags :
    reg (stepped 0x79000000 (flags State.reset .less true)) 2 = some 3 ∧
      reg (stepped 0x79000000 (flags State.reset .greater false)) 2 = some 4 := by decide +kernel

theorem test_ldi_limbs :
    reg (stepped 0x81788000 State.reset) 2 = some (2 ^ 255) ∧
      reg (stepped 0x8100FFFF State.reset) 2 = some 0xffff := by decide +kernel

theorem test_ldk_constants :
    reg (stepped 0x85000000 State.reset) 2 = some bigP ∧
      reg (stepped 0x85080000 State.reset) 2 =
        some 0x6d89f71cab8351f47ab1eff0a417ff6b5e71911d44501fbf32cfc5b538afa89 ∧
      reg (stepped 0x85180000 State.reset) 2 = some 0x6389 := by decide +kernel

theorem test_ldin_wraps :
    reg (stepped 0x89080000 (thread 15)) 2 = some 0 ∧
      reg (stepped 0x89080000 (thread 3)) 2 = some 0x44444444 := by decide +kernel

theorem test_ldtid_reads : reg (stepped 0x8D000000 (thread 5)) 2 = some 5 := by decide +kernel

theorem test_ldseed_reads : reg (stepped 0x91000000 (thread 5)) 2 = some 0x12345678 := by
  decide +kernel

/-! ### Loop control (95_test_vectors.md section 2.5) -/

theorem test_ldlc_loads : loopAndPc (stepped 0xA0000000 (thread 5)) = some (3, 1) := by
  decide +kernel

theorem test_lcbz_both_ways :
    loopAndPc (stepped 0xA4000006 (at_ 0 14)) = some (0, 20) ∧
      loopAndPc (stepped 0xA4000006 (at_ 2 14)) = some (1, 15) := by decide +kernel

theorem test_jmp_wraps :
    loopAndPc (stepped 0xA800FFFF (at_ 0 0)) = some (0, 0xffff) ∧
      loopAndPc (stepped 0xA8008000 (at_ 0 0x8005)) = some (0, 5) := by decide +kernel

theorem test_stout_low_word :
    (stepped 0xAC000000 (one (2 ^ 256 - 1))).map (fun t => (t.lane.out, t.lane.outw)) =
      some (some 0xffffffff#32, true) := by decide +kernel

theorem test_stout_twice :
    cause (stepped 0xAC000000 (wroteOut (one 7) 5)) = some .outTwice ∧
      (stepped 0xAC000000 (wroteOut (one 7) 5)).map (fun t => t.lane.out) = some (some 5#32) := by
  decide +kernel

theorem test_halt_done :
    (stepped 0xB0000000 (wroteOut (at_ 0 21) 5)).map (fun t => (t.lane.state, t.lane.pc)) =
      some (.done, 21#16) := by decide +kernel

theorem test_halt_no_output :
    cause (stepped 0xB0000000 State.reset) = some .noOutput ∧
      (stepped 0xB0000000 State.reset).map (fun t => t.lane.state) = some .faulted := by
  decide +kernel

/-! ### Faults (95_test_vectors.md section 2.6, P7) -/

/-- F10: FMRED reads the high half of the pair. -/
theorem test_fault_high_half : cause (stepped 0x38200000 (put State.reset 2 1)) =
    some .unwrittenReg := by decide +kernel

/-- F6: a fetch at `pc >= IMEM_WORDS` records that pc. -/
theorem test_fault_fetch :
    (match step { at_ 0 6 with shared := { Shared.reset with imemWords := 2 } } with
      | .next t => some (t.lane.fault, t.lane.faultpc, t.lane.pc)
      | .fault _ => none
      | .refused _ => none) = some (some .fetchOob, 6#16, 6#16) := by decide +kernel

/-- F7: MULW with an odd rd. -/
theorem test_fault_odd_pair : cause (stepped 0x11800000 (two 1 1)) = some .illegalInsn := by
  decide +kernel

/-! ### Witnesses: states and operands that meet the hypotheses of the obligations -/

/-- `X[n]` of the lane in front holds `v`. -/
abbrev holds (s : State) (n : Reg) (v : Nat) : Prop := s.lane.x[n] = some (BitVec.ofNat 256 v)

/-- Two lanes over an empty IMEM: every lane's first word, 00000000, is illegal. -/
def pair (sched : List Nat) : State := State.launch 2 Shared.reset sched

/-- One lane, DONE. -/
def ended : State :=
  { State.reset with lane := { (wroteOut State.reset 5).lane with state := .done } }

/-- Reset with HALT in its first word. -/
def haltFirst : State := State.reset.withFetchWord 32 0xB0000000

/-- IsRinv is met by exactly the spec's Rinv. -/
theorem witness_isRinv : IsRinv rinv := by
  unfold IsRinv
  decide +kernel

/-- Hypotheses of DecodeEncodeRoundTrip and IllFormedCommandIsIllegal, at the edges of the checks. -/
theorem witness_wellFormed :
    (Instr.mulw 6 7 5).wellFormed = true ∧ (Instr.fmred 7 6).wellFormed = true ∧
      (Instr.ldk 7 3).wellFormed = true ∧ (Instr.ldk 0 4).wellFormed = false ∧
      (Instr.mulw 7 0 0).wellFormed = false := by decide

/-- Hypotheses of DecodedWordReencodes and of each clause of IllegalWordsExactly. -/
theorem witness_IllegalWordsExactly :
    decode 0xB0000000#32 = .ok .halt ∧
      (∀ row ∈ opcodeMap, (0xB4000000#32).toNat / 2 ^ 26 ≠ row.pattern.toNat / 2 ^ 26) ∧
      (∃ row ∈ opcodeMap, (0x08800001#32).toNat / 2 ^ 26 = row.pattern.toNat / 2 ^ 26 ∧
        0x08800001#32 &&& row.mask ≠ row.pattern) ∧
      (∃ row ∈ opcodeMap, (0x11800000#32).toNat / 2 ^ 26 = row.pattern.toNat / 2 ^ 26 ∧
        row.extra.holds 0x11800000#32 = false) ∧
      0x2D ≤ (0xB4000000#32).toNat / 2 ^ 26 ∧ (0x9C000000#32).toNat / 2 ^ 26 = 0x27 := by
  decide +kernel

/-- Hypotheses of StepRunsDecoded. -/
theorem witness_StepRunsDecoded :
    haltFirst.select = some haltFirst ∧
      haltFirst.shared.imemWord haltFirst.lane.pc.toNat = some 0xB0000000#32 ∧
      decode 0xB0000000#32 = .ok .halt ∧ haltFirst.sched = [] ∧ haltFirst.lane.running = true := by
  decide +kernel

/-- A lane whose pc is the first index with no word, and one whose word is illegal. -/
theorem witness_FetchAndDecodeFaults :
    (∃ t, ({ at_ 0 6 with shared := { Shared.reset with imemWords := 6 } } : State).select =
      some t ∧ t.shared.imemWords ≤ t.lane.pc.toNat) ∧
      State.reset.select = some State.reset ∧
      State.reset.lane.pc.toNat < State.reset.shared.imemWords ∧
      decode (State.reset.shared.imem.readWord 0) = .error .unassignedOp :=
  ⟨⟨_, rfl, by decide⟩, by decide +kernel, by decide, by decide +kernel⟩

/-- A block with a lane in RUN, and one without. -/
theorem witness_BlockStepsUntilRunEnds :
    (∃ l ∈ State.reset.lanes, l.state = .run) ∧ ∀ l ∈ ended.lanes, l.state ≠ .run := by
  decide +kernel

/-- A step that faults its lane, and a step beside a lane that is FAULTED (also OnlyRunningLanesMove,
StepChangesOneLane, StepKeepsInvariant, ThreadIdIsReadOnly). -/
theorem witness_steps :
    ∃ t u, step (pair [1, 0]) = .next t ∧ t.lane.state = .faulted ∧
      (t.lanes[1]?.map Lane.state) = some .faulted ∧ step t = .next u :=
  ⟨_, _, rfl, by decide +kernel, by decide +kernel, rfl⟩

/-- Every clause of CommandFaultsInOrder. -/
theorem witness_CommandFaultsInOrder :
    (∃ n ∈ readsOf (.fmred 0 0), (one 1).lane.x[n] = none) ∧
      (∀ n ∈ readsOf (.fmred 0 0), (two 0 bigP).lane.x[n] ≠ none) ∧
      ¬ inDomain (.fmred 0 0) (two 0 bigP) ∧
      inDomain (.fmred 0 0) (two (2 ^ 256 - 1) (bigP - 1)) ∧
      ¬ inDomain (.mred 0 0) (one (2 ^ 32)) ∧ inDomain (.mred 0 0) (one (2 ^ 32 - 1)) ∧
      protocolFault (.stout 0) (wroteOut (one 7) 5) = some .outTwice ∧
      protocolFault (.stout 0) (one 7) = none ∧ protocolFault .halt State.reset = some .noOutput := by
  unfold inDomain
  decide +kernel

/-- Two states that agree on one lane and what it reads, and differ beside it. -/
theorem witness_LaneSeesOnlyItsOwnState :
    (pair [1]).lane = State.reset.lane ∧ (pair [1]).shared = State.reset.shared ∧
      pair [1] ≠ State.reset ∧ ∃ t, State.reset.stepFront = .next t :=
  ⟨by decide +kernel, by decide +kernel, by decide +kernel, _, rfl⟩

/-- Two schedules of one block, both to the end of the run. -/
theorem witness_InterleavingsReachOneEnd :
    ((after 2 { pair [] with sched := [0, 1] }).map State.runEnded = some true) ∧
      ((after 2 { pair [] with sched := [1, 0] }).map State.runEnded = some true) := by
  decide +kernel

/-- Hypotheses of LaunchMeetsInvariant, LaunchStateOfEveryLane, RelaunchKeepsOnlySharedSpaces and
ThreadIdIsReadOnly, at both bounds. -/
theorem witness_launch :
    Shared.reset.Consistent ∧ 1 ≤ 1 ∧ 2 ^ 32 ≤ Config.maxLanes ∧ 2 ^ 32 - 1 < 2 ^ 32 := by
  decide +kernel

/-- Hypotheses of StepKeepsInvariant. -/
theorem witness_StepKeepsInvariant : State.reset.Inv ∧ ∃ t, step State.reset = .next t :=
  ⟨by decide +kernel, _, rfl⟩

/-- The canonical form: an empty memory, and a list that breaks the form. -/
theorem witness_HostBytesAreLittleEndian :
    Memory.wf State.reset.shared.imem ∧ Memory.wf [(3, 1#8), (4, 2#8)] ∧ ¬ Memory.wf [(3, 0#8)] ∧
      3 < 4 := by decide

/-- Commands that are not ADD, SUB, RDF, CMP, LDLC, LCBZ or STOUT and answer a next state, and the two
that write CF with their operands: the flag, LC, OUT and TID statements. -/
theorem witness_specialRegisters :
    (∃ t, exec .halt State.reset = .next t) ∧ (∃ t, exec .ldlc State.reset = .next t) ∧
      (∃ t, exec (.lcbz 0) State.reset = .next t) ∧ (∃ t, exec (.add 2 0 1) (two 1 1) = .next t) ∧
      holds (two (2 ^ 256 - 1) 1) 0 (2 ^ 256 - 1) ∧ holds (two (2 ^ 256 - 1) 1) 1 1 ∧
      (wroteOut State.reset 5).lane.outw = true :=
  ⟨⟨_, rfl⟩, ⟨_, rfl⟩, ⟨_, rfl⟩, ⟨_, rfl⟩, by decide +kernel⟩

/-- Operands of the big-integer, Mersenne and movement statements: both registers written, or one
not; an even pair and an odd one. -/
theorem witness_operands :
    holds (two (2 ^ 256 - 1) 0) 0 (2 ^ 256 - 1) ∧ holds (two (2 ^ 256 - 1) 0) 1 0 ∧
      (one 1).lane.x[(1 : Reg)] = none ∧ (6 : Reg).val % 2 = 0 ∧
      (7 : Reg).val = (6 : Reg).val + 1 ∧ (7 : Reg).val % 2 = 1 ∧ ((3 : Fin 16).val ≤ 3) ∧
      3 < (4 : Fin 16).val := by decide +kernel

/-- Operands at the last value inside each domain and the first outside it (FRED, the commands below
`P`, FMRED). -/
theorem witness_fieldDomains :
    holds (one (2 * bigP - 1)) 0 (2 * bigP - 1) ∧ 2 * bigP - 1 < 2 * Config.p ∧
      holds (one (2 * bigP)) 0 (2 * bigP) ∧ 2 * Config.p ≤ 2 * bigP ∧
      holds (two (bigP - 1) (bigP - 1)) 0 (bigP - 1) ∧
      holds (two (bigP - 1) (bigP - 1)) 1 (bigP - 1) ∧ bigP - 1 < Config.p ∧
      holds (two 0 bigP) 1 bigP ∧ Config.p ≤ bigP ∧
      2 ^ 256 - 1 + 2 ^ 256 * (bigP - 1) < Config.p * 2 ^ 256 ∧
      Config.p * 2 ^ 256 ≤ 0 + 2 ^ 256 * bigP := by decide +kernel

/-- Hypotheses of FieldResultsBelowP, each clause at the last value inside its domain. -/
theorem witness_FieldResultsBelowP :
    holds (two (bigP - 1) (bigP - 1)) 0 (bigP - 1) ∧ holds (two (bigP - 1) (bigP - 1)) 1 (bigP - 1) ∧
      bigP - 1 < Config.p ∧ holds (one (2 * bigP - 1)) 0 (2 * bigP - 1) ∧
      2 * bigP - 1 < 2 * Config.p ∧ holds (two (2 ^ 256 - 1) (bigP - 1)) 0 (2 ^ 256 - 1) ∧
      holds (two (2 ^ 256 - 1) (bigP - 1)) 1 (bigP - 1) ∧ (0 : Reg).val % 2 = 0 ∧
      (1 : Reg).val = (0 : Reg).val + 1 ∧
      2 ^ 256 - 1 + 2 ^ 256 * (bigP - 1) < Config.p * 2 ^ 256 := by decide +kernel

/-- The same for MRED, MADD and MMUL. -/
theorem witness_mersenneDomains :
    holds (one (2 ^ 32 - 1)) 0 (2 ^ 32 - 1) ∧ holds (one (2 ^ 32)) 0 (2 ^ 32) ∧
      holds (two 0x7ffffffe 0x7ffffffe) 0 0x7ffffffe ∧ 0x7ffffffe < Config.q31 ∧
      holds (two 0x7fffffff 0) 0 0x7fffffff ∧ Config.q31 ≤ 0x7fffffff ∧
      (BitVec.ofNat 256 0x7ffffffe) ≠ 0 := by decide +kernel

/-- Hypotheses of MontgomeryRoundTrip, MontgomeryFormMultiplies and FieldLaws: three operands below `P`
and the register conditions. -/
theorem witness_fieldLaws :
    holds (put (two (bigP - 1) 1) 2 5) 0 (bigP - 1) ∧ holds (put (two (bigP - 1) 1) 2 5) 1 1 ∧
      holds (put (two (bigP - 1) 1) 2 5) 2 5 ∧ bigP - 1 < Config.p ∧ 5 < Config.p ∧
      (3 : Reg) ≠ 1 ∧ (3 : Reg) ≠ 4 ∧ (3 : Reg) ≠ 2 ∧ (4 : Reg) ≠ 0 := by decide +kernel

/-- The words that MULW, SQRW, FMRED and LDK refuse: an odd pair, a non-zero rs2 field, an index of 4. -/
theorem witness_refusedWords :
    (0x11800000#32).toNat / 2 ^ 26 = 0x04 ∧ (0x11800000#32).toNat / 2 ^ 23 % 2 = 1 ∧
      (0x15800000#32).toNat / 2 ^ 26 = 0x05 ∧ (0x15800000#32).toNat / 2 ^ 23 % 2 = 1 ∧
      (0x15020000#32).toNat / 2 ^ 26 = 0x05 ∧ (0x15020000#32).toNat / 2 ^ 17 % 2 ^ 3 ≠ 0 ∧
      (0x39100000#32).toNat / 2 ^ 26 = 0x0E ∧ (0x39100000#32).toNat / 2 ^ 20 % 2 = 1 ∧
      (0x84200000#32).toNat / 2 ^ 26 = 0x21 ∧ 3 < (0x84200000#32).toNat / 2 ^ 19 % 2 ^ 4 := by
  decide +kernel

/-- A block whose lane 0 is DONE and whose lane 1 is in RUN: HALT's last clause and
OnlyRunningLanesMove; and the host's two rewrites after a run (LC's statement). -/
theorem witness_doneLane :
    (∃ t, step { pair [] with before := [ended.lane], lane := Lane.launch 1, after := [] } =
      .next t) ∧
      ended.lane.state = .done ∧ (∃ t, ended.hostLoad Shared.reset = some t) ∧
      ∃ t, ended.hostWriteImem 65535 7 = some t :=
  ⟨⟨_, rfl⟩, by decide +kernel, ⟨_, rfl⟩, ⟨_, rfl⟩⟩

/-- LDIN's clause at the wrap of the index, LCBZ's two clauses, STOUT's and HALT's. -/
theorem witness_loopControl :
    ((thread 15).lane.tid.toNat + (1 : Fin 16).val) % 16 = 0 ∧ (at_ 0 14).lane.lc = 0 ∧
      (at_ 1 14).lane.lc ≠ 0 ∧ (one 7).lane.outw = false ∧ (wroteOut (one 7) 5).lane.outw = true ∧
      (one 7).LanesNumbered ∧ 0 < (one 7).nLanes := by decide +kernel

end Sys2Proof.Tests
end

section
/-! The launch: its lanes as one list, and the invariant it sets up (00_scope.md R9, 10_state.md R56). -/

namespace Sys2Proof.Machine

/-- The lane in front and those above it are one list, numbered from 0. -/
theorem State.launch_lanes {n : Nat} (hn : 1 ≤ n) (sh : Shared) (sched : List Nat) :
    (State.launch n sh sched).lanes =
      (List.range n).map fun k => Lane.launch (BitVec.ofNat 32 k) := by
  obtain ⟨m, rfl⟩ := Nat.exists_eq_add_of_le' hn
  simp [State.launch, State.lanes, List.range_succ_eq_map]

theorem Lane.launch_consistent (tid : Word32) : (Lane.launch tid).Consistent := by
  simp [Lane.Consistent, Lane.launch]

theorem State.launch_lanesNumbered {n : Nat} (hn : 1 ≤ n) (hmax : n ≤ Config.maxLanes)
    (sh : Shared) (sched : List Nat) : (State.launch n sh sched).LanesNumbered := by
  have hcount : (State.launch n sh sched).nLanes = n := by
    rw [State.nLanes, State.launch_lanes_length, max_eq_left hn]
  refine ⟨hcount.symm ▸ hmax, ?_⟩
  rw [hcount, State.launch_lanes hn, List.map_map]
  rfl

end Sys2Proof.Machine

open Sys2Proof.Machine Sys2Proof.Claims

/-- Settles O16: the shared spaces are the host's own, the lanes are numbered in order, and the launch
state of one lane is consistent whatever its thread id. -/
theorem launchMeetsInvariant : Obligations.LaunchMeetsInvariant := by
  intro n sh sched hn hmax hsh
  refine ⟨hsh, State.launch_lanesNumbered hn hmax sh sched, fun l hl => ?_⟩
  rw [State.launch_lanes hn] at hl
  obtain ⟨k, -, rfl⟩ := List.mem_map.1 hl
  exact Lane.launch_consistent _

end

section
/-! What a step keeps: the shared spaces, every TID, and the consistency of every lane (10_state.md
R39 to R43). -/

namespace Sys2Proof.Machine

/-- A predicate on lanes holds of all lanes after the lane in front is replaced. -/
theorem State.forall_lanes_setLane {P : Lane → Prop} {s : State} {l : Lane}
    (h : ∀ l' ∈ s.lanes, P l') (hl : P l) : ∀ l' ∈ ({ s with lane := l } : State).lanes, P l' := by
  intro l' hl'
  rcases State.mem_lanes.1 hl' with hb | rfl | ha
  · exact h l' (State.mem_lanes.2 (.inl hb))
  · exact hl
  · exact h l' (State.mem_lanes.2 (.inr (.inr ha)))

theorem Lane.Consistent.raise {l : Lane} (h : l.Consistent) (c : Cause) :
    (l.raise c).Consistent := by
  obtain ⟨hout, -, -, -, -⟩ := h
  exact ⟨hout, by simp, by simp, by simp, by simp⟩

/-- A consistent lane in RUN has no fault, so a command that completes on it keeps FAULT and
FAULTPC at their launch values, and HALT completes only with OUTW set. -/
theorem Lane.Consistent.completesTo {l l' : Lane} (h : l.Consistent) (hrun : l.state = .run)
    (hc : l.CompletesTo l') : l'.Consistent := by
  obtain ⟨hout, hfaulted, hpc0, -, -⟩ := h
  have hfault : l.fault = none := by simpa [hrun] using hfaulted
  have hpc := hpc0 hfault
  obtain ⟨hf, hfpc, -, hcase⟩ := hc
  rcases hcase with ⟨hs, ho, hw⟩ | ⟨hs, -, hw, ho⟩ | ⟨hs, hw0, hw, ho, -⟩
  · simp [Lane.Consistent, hf, hfpc, hs, ho, hw, hrun, hfault, hpc, hout]
  · simp [Lane.Consistent, hf, hfpc, hs, ho, hw, hrun, hfault, hpc]
  · simp [Lane.Consistent, hf, hfpc, hs, ho, hw, hfault, hpc, ← hout, hw0]

/-- No step writes a shared space (20_memory.md R79). -/
theorem step_keeps_shared {s t : State} (h : step s = .next t) : t.shared = s.shared := by
  obtain ⟨u, l, -, -, hshared, -, -, rfl, -⟩ := step_lane h
  exact hshared

/-- No step changes a TID (10_state.md R43). -/
theorem step_keeps_tids {s t : State} (h : step s = .next t) :
    t.lanes.map Lane.tid = s.lanes.map Lane.tid := by
  obtain ⟨u, l, -, hlanes, -, -, -, rfl, hl⟩ := step_lane h
  have htid : l.tid = u.lane.tid := by
    rcases hl with ⟨c, rfl⟩ | ⟨-, -, htid, -⟩
    · rfl
    · exact htid
  rw [← hlanes]
  simp [State.lanes, htid]

theorem step_keeps_lanesNumbered {s t : State} (hs : s.LanesNumbered) (h : step s = .next t) :
    t.LanesNumbered := by
  have htids := step_keeps_tids h
  have hcount : t.nLanes = s.nLanes := by simpa [State.nLanes] using congrArg List.length htids
  rw [State.LanesNumbered, htids, hcount]
  exact hs

theorem step_keeps_consistent_lanes {s t : State} (hs : ∀ l ∈ s.lanes, l.Consistent)
    (h : step s = .next t) : ∀ l ∈ t.lanes, l.Consistent := by
  obtain ⟨u, l, -, hlanes, -, hrun, hmem, rfl, hl⟩ := step_lane h
  have hfront : u.lane.Consistent := hs _ (List.mem_of_getElem? hmem)
  refine State.forall_lanes_setLane (hlanes ▸ hs) ?_
  rcases hl with ⟨c, rfl⟩ | hc
  · exact hfront.raise c
  · exact hfront.completesTo hrun hc

end Sys2Proof.Machine

open Sys2Proof Sys2Proof.Machine

/-- Settles O17: a step leaves the shared spaces and every TID, and the one lane it moves, in RUN,
stays consistent whether it faults or completes. -/
theorem stepKeepsInvariant : Obligations.StepKeepsInvariant := by
  intro s t ⟨hshared, hnumbered, hlanes⟩ h
  exact ⟨step_keeps_shared h ▸ hshared, step_keeps_lanesNumbered hnumbered h,
    step_keeps_consistent_lanes hlanes h⟩

/-- Settles O11: the lane that moves was in RUN, so a lane that was not is another one. -/
theorem onlyRunningLanesMove : Obligations.OnlyRunningLanesMove := by
  intro s t k l h hk hrun
  obtain ⟨u, l', -, hlanes, -, hu, hfront, rfl, -⟩ := step_lane h
  have hne : k ≠ u.before.length := by
    rintro rfl
    obtain rfl : l = u.lane := Option.some.inj (hk.symm.trans hfront)
    exact hrun hu
  rw [State.getElem?_lanes_setLane u l' hne, hlanes, hk]

/-- Settles O26: no command writes TID, and a launch numbers its lanes from 0. -/
theorem threadIdIsReadOnly : Obligations.ThreadIdIsReadOnly := by
  refine ⟨fun s t h => step_keeps_tids h, fun n sh sched hn => ?_⟩
  rw [State.launch_lanes hn, List.map_map]
  rfl

/-- Settles O18: the lanes of a launch are one list of launch lanes; the ROM is the spec's table. -/
theorem launchStateOfEveryLane : Obligations.LaunchStateOfEveryLane := by
  intro n sh sched k hk
  have hlanes := State.launch_lanes (n := n) (by omega) sh sched
  refine ⟨by simp [hlanes], rfl, Lane.launch (BitVec.ofNat 32 k), by simp [hlanes, hk], ?_,
    rfl, rfl, rfl, rfl, rfl, rfl, rfl, rfl, rfl, rfl, rfl, rfl, rfl, rfl⟩
  intro r
  simp [Lane.launch]

/-- Settles O27: the equations of MINV and R2 are `minv_spec` and `r2_spec`; the rest are closed
facts about the four numbers. -/
theorem constantsMeetTheirDefinitions : Obligations.ConstantsMeetTheirDefinitions := by
  have hr2 : Config.r2 = (2 ^ 256) ^ 2 % Config.p := r2_spec.trans (by rw [sq]; rfl)
  refine ⟨minv_spec, rfl, hr2, rfl, p_lt.trans (by decide), rfl, by decide, p_lt, by decide,
    by decide, by decide, ?_⟩
  rw [show 510 = 254 + 256 from rfl, pow_add]
  exact Nat.mul_lt_mul_of_pos_right p_lt (by decide)

end

section
/-! Which special registers a command writes, and which it reads (10_state.md R36 to R39):
`exec_keeps` says what each command leaves, `exec_blind` that a command which does not read a special
register does the same whatever that register holds. -/

namespace Sys2Proof.Machine

/-! ### What a command writes -/

/-- Every lane that the checks and writes `m` of a command can give has the property `P`. -/
def Ensures (P : Lane → Prop) (m : Except Cause Lane) : Prop := ∀ l, m = .ok l → P l

theorem ensures_ok {P : Lane → Prop} {l : Lane} (h : P l) : Ensures P (.ok l) := by
  rintro _ ⟨⟩
  exact h

theorem ensures_error (P : Lane → Prop) (c : Cause) : Ensures P (.error c) := by
  rintro _ ⟨⟩

theorem ensures_bind {α : Type} {P : Lane → Prop} {m : Except Cause α} {f : α → Except Cause Lane}
    (h : ∀ a, Ensures P (f a)) : Ensures P (m >>= f) := by
  cases m with
  | ok a => exact h a
  | error c => exact ensures_error P c

/-- The special registers that the command `i` leaves as they are, `l'` being the lane after it: CF
unless `i` is ADD or SUB, CMPF unless it is CMP, LC unless it is LDLC or LCBZ, OUT and OUTW unless it
is STOUT (10_state.md R36 to R39). -/
structure Lane.KeptBy (i : Instr) (l l' : Lane) : Prop where
  cf : (∀ rd rs1 rs2, i ≠ .add rd rs1 rs2) → (∀ rd rs1 rs2, i ≠ .sub rd rs1 rs2) → l'.cf = l.cf
  cmpf : (∀ rs1 rs2, i ≠ .cmp rs1 rs2) → l'.cmpf = l.cmpf
  lc : i ≠ .ldlc → (∀ off, i ≠ .lcbz off) → l'.lc = l.lc
  out : (∀ rs1, i ≠ .stout rs1) → l'.out = l.out ∧ l'.outw = l.outw

theorem Lane.keptBy_of_eq {i : Instr} {l l' : Lane} (hcf : l'.cf = l.cf) (hcmpf : l'.cmpf = l.cmpf)
    (hlc : l'.lc = l.lc) (hout : l'.out = l.out) (houtw : l'.outw = l.outw) : l.KeptBy i l' :=
  ⟨fun _ _ => hcf, fun _ => hcmpf, fun _ _ => hlc, fun _ => ⟨hout, houtw⟩⟩

/-- What most commands do: they write operand registers and the pc. -/
theorem ensures_keptBy {i : Instr} {s : State} {l : Lane} (hcf : l.cf = s.lane.cf)
    (hcmpf : l.cmpf = s.lane.cmpf) (hlc : l.lc = s.lane.lc) (hout : l.out = s.lane.out)
    (houtw : l.outw = s.lane.outw) : Ensures (s.lane.KeptBy i) (.ok l) :=
  ensures_ok (Lane.keptBy_of_eq hcf hcmpf hlc hout houtw)

theorem exec_ensures_keptBy (i : Instr) (s : State) :
    ∃ m, exec i s = s.commit m ∧ Ensures (s.lane.KeptBy i) m := by
  cases i with
  | cmp rs1 rs2 =>
    refine ⟨_, rfl, ensures_bind fun _ => ensures_ok ?_⟩
    exact ⟨fun _ _ => rfl, fun h => absurd rfl (h rs1 rs2), fun _ _ => rfl, fun _ => ⟨rfl, rfl⟩⟩
  | add rd rs1 rs2 =>
    refine ⟨_, rfl, ensures_bind fun _ => ensures_ok ?_⟩
    exact ⟨fun h _ => absurd rfl (h rd rs1 rs2), fun _ => rfl, fun _ _ => rfl, fun _ => ⟨rfl, rfl⟩⟩
  | sub rd rs1 rs2 =>
    refine ⟨_, rfl, ensures_bind fun _ => ensures_ok ?_⟩
    exact ⟨fun _ h => absurd rfl (h rd rs1 rs2), fun _ => rfl, fun _ _ => rfl, fun _ => ⟨rfl, rfl⟩⟩
  | ldlc =>
    refine ⟨_, rfl, ensures_ok ?_⟩
    exact ⟨fun _ _ => rfl, fun _ => rfl, fun h _ => absurd rfl h, fun _ => ⟨rfl, rfl⟩⟩
  | lcbz off =>
    refine ⟨_, rfl, ensures_ok ?_⟩
    split
    · exact Lane.keptBy_of_eq rfl rfl rfl rfl rfl
    · exact ⟨fun _ _ => rfl, fun _ => rfl, fun _ h => absurd rfl (h off), fun _ => ⟨rfl, rfl⟩⟩
  | stout rs1 =>
    refine ⟨_, rfl, ensures_bind fun _ => ensures_bind fun _ => ensures_ok ?_⟩
    exact ⟨fun _ _ => rfl, fun _ => rfl, fun _ _ => rfl, fun h => absurd rfl (h rs1)⟩
  | ldk rd k4 =>
    show ∃ m, execLdk rd k4 s = s.commit m ∧ Ensures (s.lane.KeptBy _) m
    rw [execLdk]
    split
    · exact ⟨_, rfl, ensures_keptBy rfl rfl rfl rfl rfl⟩
    · exact ⟨_, rfl, ensures_error _ _⟩
  | rdf | ldi | ldin | ldtid | ldseed | jmp =>
    exact ⟨.ok _, rfl, ensures_keptBy rfl rfl rfl rfl rfl⟩
  | mov | lowb | zguard | xfold | xor | mul32 | halt =>
    exact ⟨_, rfl, ensures_bind fun _ => ensures_keptBy rfl rfl rfl rfl rfl⟩
  | mulw | sqrw | mred | madd | mmul =>
    exact ⟨_, rfl, ensures_bind fun _ => ensures_bind fun _ => ensures_keptBy rfl rfl rfl rfl rfl⟩
  | fred | fadd | fsub | fneg | fmul | fsqr | tomont | frommont =>
    exact ⟨_, rfl, ensures_bind fun _ => ensures_bind fun _ => ensures_keptBy rfl rfl rfl rfl rfl⟩
  | fmred =>
    exact ⟨_, rfl, ensures_bind fun _ => ensures_bind fun _ => ensures_bind fun _ =>
      ensures_keptBy rfl rfl rfl rfl rfl⟩

/-- What a command leaves of the special registers, whether it completes or raises a fault. -/
theorem exec_keeps {i : Instr} {s t : State} (h : exec i s = .next t) : s.lane.KeptBy i t.lane := by
  obtain ⟨m, hm, hkept⟩ := exec_ensures_keptBy i s
  rcases State.commit_cases (hm ▸ h) with ⟨l, hl, rfl⟩ | ⟨c, -, rfl⟩
  · exact hkept l hl
  · exact Lane.keptBy_of_eq rfl rfl rfl rfl rfl

/-! ### What a command reads -/

/-- `R` relates lanes that no command but RDF and LCBZ can tell apart: related lanes agree in the
operand registers, OUTW and TID, and every update of a lane keeps the relation. -/
structure Blind (R : Lane → Lane → Prop) : Prop where
  x : ∀ {l l'}, R l l' → l'.x = l.x
  outw : ∀ {l l'}, R l l' → l'.outw = l.outw
  tid : ∀ {l l'}, R l l' → l'.tid = l.tid
  writeReg : ∀ {l l'}, R l l' → ∀ n v, R (l.writeReg n v) (l'.writeReg n v)
  advance : ∀ {l l'}, R l l' → R l.advance l'.advance
  branch : ∀ {l l'}, R l l' → ∀ off, R (l.branch off) (l'.branch off)
  raise : ∀ {l l'}, R l l' → ∀ c, R (l.raise c) (l'.raise c)
  setCf : ∀ {l l'}, R l l' → ∀ c, R (l.setCf c) (l'.setCf c)
  setCmpf : ∀ {l l'}, R l l' → ∀ r, R (l.setCmpf r) (l'.setCmpf r)
  setLc : ∀ {l l'}, R l l' → ∀ n, R { l with lc := n } { l' with lc := n }
  setOut : ∀ {l l'}, R l l' → ∀ o,
    R { l with out := o, outw := true } { l' with out := o, outw := true }
  setDone : ∀ {l l'}, R l l' → R { l with state := .done } { l' with state := .done }

/-- The checks and writes of a command on two lanes raise the same fault or give related lanes. -/
inductive SameEnd (R : Lane → Lane → Prop) : Except Cause Lane → Except Cause Lane → Prop
  | ok {l l' : Lane} (h : R l l') : SameEnd R (.ok l) (.ok l')
  | error (c : Cause) : SameEnd R (.error c) (.error c)

theorem sameEnd_bind {α : Type} {R : Lane → Lane → Prop} {m : Except Cause α}
    {f f' : α → Except Cause Lane} (h : ∀ a, SameEnd R (f a) (f' a)) :
    SameEnd R (m >>= f) (m >>= f') := by
  cases m with
  | ok a => exact h a
  | error c => exact .error c

section
variable {R : Lane → Lane → Prop} {l l' : Lane}

theorem Blind.source (hR : Blind R) (h : R l l') (n : Reg) : l'.source n = l.source n := by
  simp only [Lane.source, Lane.readReg, hR.x h]

theorem Blind.sources (hR : Blind R) (h : R l l') (n m : Reg) : l'.sources n m = l.sources n m := by
  simp only [Lane.sources, Lane.readReg, hR.x h]

theorem Blind.sourcePair (hR : Blind R) (h : R l l') (n : Reg) :
    l'.sourcePair n = l.sourcePair n := by
  simp only [Lane.sourcePair, Lane.readReg, hR.x h]

theorem Blind.result (hR : Blind R) (h : R l l') (n : Reg) (v : Nat) :
    R (l.result n v) (l'.result n v) := hR.advance (hR.writeReg h n v)

theorem Blind.writePair (hR : Blind R) (h : R l l') (n : Reg) (lo hi : Nat) :
    R (l.writePair n lo hi) (l'.writePair n lo hi) := hR.writeReg (hR.writeReg h n lo) _ hi

/-- A command over one source. -/
theorem Blind.sameEnd_source (hR : Blind R) (h : R l l') (n : Reg)
    {f f' : Nat → Except Cause Lane} (hf : ∀ a, SameEnd R (f a) (f' a)) :
    SameEnd R (l.source n >>= f) (l'.source n >>= f') :=
  hR.source h n ▸ sameEnd_bind hf

/-- A command over two sources. -/
theorem Blind.sameEnd_sources (hR : Blind R) (h : R l l') (n m : Reg)
    {f f' : Nat × Nat → Except Cause Lane} (hf : ∀ a, SameEnd R (f a) (f' a)) :
    SameEnd R (l.sources n m >>= f) (l'.sources n m >>= f') :=
  hR.sources h n m ▸ sameEnd_bind hf

end

theorem exec_sameEnd {R : Lane → Lane → Prop} (hR : Blind R) (i : Instr) (s : State) {l' : Lane}
    (h : R s.lane l') (hflags : ∀ rd, i = .rdf rd → l'.flagWord = s.lane.flagWord)
    (hlc : ∀ off, i = .lcbz off → l'.lc = s.lane.lc) :
    ∃ m m', exec i s = s.commit m ∧
      exec i { s with lane := l' } = ({ s with lane := l' } : State).commit m' ∧
      SameEnd R m m' := by
  cases i with
  | cmp rs1 rs2 =>
    exact ⟨_, _, rfl, rfl, hR.sameEnd_sources h _ _ fun _ => .ok (hR.advance (hR.setCmpf h _))⟩
  | add rd rs1 rs2 | sub rd rs1 rs2 =>
    exact ⟨_, _, rfl, rfl, hR.sameEnd_sources h _ _ fun _ => .ok (hR.result (hR.setCf h _) _ _)⟩
  | mulw rd rs1 rs2 =>
    exact ⟨_, _, rfl, rfl, sameEnd_bind fun _ => hR.sameEnd_sources h _ _ fun _ =>
      .ok (hR.advance (hR.writePair h _ _ _))⟩
  | sqrw rd rs1 =>
    exact ⟨_, _, rfl, rfl, sameEnd_bind fun _ => hR.sameEnd_source h _ fun _ =>
      .ok (hR.advance (hR.writePair h _ _ _))⟩
  | fred | fneg | fsqr | tomont | frommont | mred =>
    exact ⟨_, _, rfl, rfl, hR.sameEnd_source h _ fun _ => sameEnd_bind fun _ =>
      .ok (hR.result h _ _)⟩
  | fadd | fsub | fmul | madd | mmul =>
    exact ⟨_, _, rfl, rfl, hR.sameEnd_sources h _ _ fun _ => sameEnd_bind fun _ =>
      .ok (hR.result h _ _)⟩
  | fmred rd rs1 =>
    refine ⟨_, _, rfl, rfl, sameEnd_bind fun _ => ?_⟩
    rw [hR.sourcePair h]
    exact sameEnd_bind fun _ => sameEnd_bind fun _ => .ok (hR.result h _ _)
  | mov | lowb | zguard | xfold =>
    exact ⟨_, _, rfl, rfl, hR.sameEnd_source h _ fun _ => .ok (hR.result h _ _)⟩
  | xor | mul32 =>
    exact ⟨_, _, rfl, rfl, hR.sameEnd_sources h _ _ fun _ => .ok (hR.result h _ _)⟩
  | rdf rd =>
    refine ⟨.ok _, .ok _, rfl, rfl, .ok ?_⟩
    rw [hflags rd rfl]
    exact hR.result h _ _
  | ldi | ldseed =>
    exact ⟨.ok _, .ok _, rfl, rfl, .ok (hR.result h _ _)⟩
  | ldk rd k4 =>
    show ∃ m m', execLdk rd k4 s = s.commit m ∧
      execLdk rd k4 { s with lane := l' } = ({ s with lane := l' } : State).commit m' ∧
      SameEnd R m m'
    simp only [execLdk]
    split
    · exact ⟨_, _, rfl, rfl, .ok (hR.result h _ _)⟩
    · exact ⟨_, _, rfl, rfl, .error _⟩
  | ldin rd off4 | ldtid rd =>
    refine ⟨.ok _, .ok _, rfl, rfl, .ok ?_⟩
    rw [hR.tid h]
    exact hR.result h _ _
  | ldlc =>
    exact ⟨.ok _, .ok _, rfl, rfl, .ok (hR.setLc (hR.advance h) _)⟩
  | lcbz off =>
    refine ⟨.ok _, .ok _, rfl, rfl, .ok ?_⟩
    rw [hlc off rfl]
    split
    · exact hR.branch h off
    · exact hR.setLc (hR.advance h) _
  | jmp off =>
    exact ⟨.ok _, .ok _, rfl, rfl, .ok (hR.branch h off)⟩
  | stout rs1 =>
    refine ⟨_, _, rfl, rfl, hR.sameEnd_source h _ fun _ => ?_⟩
    rw [hR.outw h]
    exact sameEnd_bind fun _ => .ok (hR.setOut (hR.advance h) _)
  | halt =>
    refine ⟨_, _, rfl, rfl, ?_⟩
    rw [hR.outw h]
    exact sameEnd_bind fun _ => .ok (hR.setDone h)

/-- A command does the same on related lanes, RDF if they agree in the flags and LCBZ if they agree
in LC. -/
theorem exec_blind {R : Lane → Lane → Prop} (hR : Blind R) {i : Instr} {s t : State} {l' : Lane}
    (h : R s.lane l') (hflags : ∀ rd, i = .rdf rd → l'.flagWord = s.lane.flagWord)
    (hlc : ∀ off, i = .lcbz off → l'.lc = s.lane.lc) (ht : exec i s = .next t) :
    ∃ k, exec i { s with lane := l' } = .next { t with lane := k } ∧ R t.lane k := by
  obtain ⟨m, m', hm, hm', hend⟩ := exec_sameEnd hR i s h hflags hlc
  rw [hm] at ht
  rw [hm']
  cases hend with
  | ok hl =>
    cases ht
    exact ⟨_, rfl, hl⟩
  | error c =>
    cases ht
    exact ⟨_, rfl, hR.raise h c⟩

/-! ### CF, CMPF and LC are such registers -/

/-- Two lanes that are the same but for CF. -/
def Lane.SameButCf (l l' : Lane) : Prop := ∃ c, l' = { l with cf := c }

/-- Two lanes that are the same but for CMPF. -/
def Lane.SameButCmpf (l l' : Lane) : Prop := ∃ r, l' = { l with cmpf := r }

/-- Two lanes that are the same but for LC. -/
def Lane.SameButLc (l l' : Lane) : Prop := ∃ n, l' = { l with lc := n }

theorem blind_sameButCf : Blind Lane.SameButCf := by
  constructor
  case x | outw | tid => rintro _ _ ⟨_, rfl⟩; rfl
  all_goals rintro _ _ ⟨_, rfl⟩; intros; exact ⟨_, rfl⟩

theorem blind_sameButCmpf : Blind Lane.SameButCmpf := by
  constructor
  case x | outw | tid => rintro _ _ ⟨_, rfl⟩; rfl
  all_goals rintro _ _ ⟨_, rfl⟩; intros; exact ⟨_, rfl⟩

theorem blind_sameButLc : Blind Lane.SameButLc := by
  constructor
  case x | outw | tid => rintro _ _ ⟨_, rfl⟩; rfl
  all_goals rintro _ _ ⟨_, rfl⟩; intros; exact ⟨_, rfl⟩

/-! ### The commands that write a flag, on operands that hold values -/

section
variable {s : State} {rs1 rs2 : Reg} {a b : Word256}

theorem exec_add_of_values (rd : Reg) (ha : s.lane.x[rs1] = some a) (hb : s.lane.x[rs2] = some b) :
    exec (.add rd rs1 rs2) s = .next { s with
      lane := (s.lane.setCf ((a.toNat + b.toNat) / 2 ^ 256)).result rd
        ((a.toNat + b.toNat) % 2 ^ 256) } := by
  show execAdd rd rs1 rs2 s = _
  rw [execAdd, Lane.sources_ok ha hb, Except.ok_bind_eq]
  simp only [addValues_spec a.isLt b.isLt]
  rfl

theorem exec_sub_of_values (rd : Reg) (ha : s.lane.x[rs1] = some a) (hb : s.lane.x[rs2] = some b) :
    exec (.sub rd rs1 rs2) s = .next { s with
      lane := (s.lane.setCf (if a.toNat < b.toNat then 1 else 0)).result rd
        ((2 ^ 256 + a.toNat - b.toNat) % 2 ^ 256) } := by
  show execSub rd rs1 rs2 s = _
  rw [execSub, Lane.sources_ok ha hb, Except.ok_bind_eq]
  simp only [subValues_spec a.isLt b.isLt]
  rfl

theorem exec_cmp_of_values (ha : s.lane.x[rs1] = some a) (hb : s.lane.x[rs2] = some b) :
    exec (.cmp rs1 rs2) s = .next { s with
      lane := (s.lane.setCmpf (compareNat a.toNat b.toNat)).advance } := by
  show execCmp rs1 rs2 s = _
  rw [execCmp, Lane.sources_ok ha hb, Except.ok_bind_eq]
  simp only [compareValues_spec a.isLt b.isLt]
  rfl

end

/-- The carry out of a 256-bit sum is 1 exactly when the sum does not fit. -/
theorem carry_eq_one_iff (a b : Word256) :
    (a.toNat + b.toNat) / 2 ^ 256 = 1 ↔ 2 ^ 256 ≤ a.toNat + b.toNat := by
  have ha := a.isLt
  have hb := b.isLt
  omega

/-! ### LCBZ's two ways -/

theorem exec_lcbz_of_zero {s : State} (off : BitVec 16) (h : s.lane.lc = 0) :
    exec (.lcbz off) s = .next { s with lane := s.lane.branch off } := by
  show execLcbz off s = _
  rw [execLcbz, if_pos h]
  rfl

theorem exec_lcbz_of_ne_zero {s : State} (off : BitVec 16) (h : s.lane.lc ≠ 0) :
    exec (.lcbz off) s =
      .next { s with lane := { s.lane.advance with lc := s.lane.lc - 1 } } := by
  show execLcbz off s = _
  rw [execLcbz, if_neg h]
  rfl

/-! ### The host between runs -/

theorem State.hostLoad_lanes {s t : State} {sh : Shared} (h : s.hostLoad sh = some t) :
    t.lanes = s.lanes := by
  rw [State.hostLoad] at h
  split at h
  · cases h
    rfl
  · cases h

theorem State.hostWriteImem_lanes {s t : State} {k : Nat} {w : Word32}
    (h : s.hostWriteImem k w = some t) : t.lanes = s.lanes := by
  rw [State.hostWriteImem] at h
  split at h
  · cases h
    rfl
  · cases h

end Sys2Proof.Machine

open Sys2Proof.Machine

/-- Settles O22: `exec_keeps` for the writers, the adder's carry and the subtractor's borrow for
what they write, `exec_blind` for the readers. -/
theorem carryFlagWrittenByAddSubReadByRdf : Obligations.CarryFlagWrittenByAddSubReadByRdf := by
  refine ⟨fun i s t h => (exec_keeps h).cf, fun s rd rs1 rs2 a b ha hb => ⟨?_, ?_⟩, ?_,
    fun _ => rfl⟩
  · exact ⟨_, exec_add_of_values rd ha hb, decide_eq_decide.2 (carry_eq_one_iff a b)⟩
  · refine ⟨_, exec_sub_of_values rd ha hb, decide_eq_decide.2 ?_⟩
    split <;> omega
  · intro i s t c h hrdf
    obtain ⟨_, hk, c', rfl⟩ := exec_blind blind_sameButCf (l' := { s.lane with cf := c }) ⟨c, rfl⟩
      (fun rd hi => absurd hi (hrdf rd)) (fun _ _ => rfl) h
    exact ⟨c', hk⟩

/-- Settles O23: `exec_keeps` for the writers, the comparator for what CMP writes, `exec_blind` for
the readers. -/
theorem compareFlagWrittenByCmpReadByRdf : Obligations.CompareFlagWrittenByCmpReadByRdf := by
  refine ⟨fun i s t h => (exec_keeps h).cmpf,
    fun s rs1 rs2 a b ha hb => ⟨_, exec_cmp_of_values ha hb, rfl⟩, ?_,
    fun _ => rfl, rfl, rfl, rfl, ?_⟩
  · intro i s t r h hrdf
    obtain ⟨_, hk, r', rfl⟩ := exec_blind blind_sameButCmpf (l' := { s.lane with cmpf := r })
      ⟨r, rfl⟩ (fun rd hi => absurd hi (hrdf rd)) (fun _ _ => rfl) h
    exact ⟨r', hk⟩
  · intro r
    cases r <;> decide

/-- Settles O24: `exec_keeps` for the writers, `exec_blind` for the readers; the host's two writes
between runs change shared spaces alone. -/
theorem loopCounterWrittenByLdlcLcbz : Obligations.LoopCounterWrittenByLdlcLcbz := by
  refine ⟨fun i s t h => (exec_keeps h).lc, ?_, ?_, ?_, fun s t sh => State.hostLoad_lanes,
    fun s t k w => State.hostWriteImem_lanes, fun _ => rfl⟩
  · rintro s _ ⟨⟩
    rfl
  · intro s t off h
    by_cases hlc : s.lane.lc = 0
    · cases (exec_lcbz_of_zero off hlc).symm.trans h
      rw [if_pos hlc]
      exact hlc
    · cases (exec_lcbz_of_ne_zero off hlc).symm.trans h
      rw [if_neg hlc]
  · intro i s t n h hlcbz
    obtain ⟨_, hk, n', rfl⟩ := exec_blind blind_sameButLc (l' := { s.lane with lc := n }) ⟨n, rfl⟩
      (fun _ _ => rfl) (fun off hi => absurd hi (hlcbz off)) h
    exact ⟨n', hk⟩

/-- Settles O25: `exec_keeps` for the writers; a command that completes writes OUT only where OUTW
was not set, and a fault writes neither. -/
theorem outputWordIsWrittenOnce : Obligations.OutputWordIsWrittenOnce := by
  refine fun i s t h => ⟨(exec_keeps h).out, fun hw => ?_⟩
  rcases exec_cases h with ⟨c, rfl⟩ | ⟨l, rfl, -, -, -, hcase⟩
  · exact ⟨rfl, hw⟩
  · rcases hcase with ⟨-, ho, hw'⟩ | ⟨-, hw0, -⟩ | ⟨-, -, hw', ho, -⟩
    · exact ⟨ho, hw'.trans hw⟩
    · simp [hw] at hw0
    · exact ⟨ho, hw'⟩

end

section
/-! One step of the block, seen from all its lanes: it has one exactly until the run ends, and it moves
one lane in RUN (20_memory.md R73, R79, R82, R88). -/

namespace Sys2Proof.Machine

theorem Lane.running_eq_false_iff (l : Lane) : l.running = false ↔ l.state ≠ .run := by
  rw [← Bool.not_eq_true, Lane.running_iff]

theorem State.runEnded_iff (s : State) : s.runEnded = true ↔ ∀ l ∈ s.lanes, l.state ≠ .run := by
  simp [State.runEnded, Lane.running_eq_false_iff]

/-- No lane is chosen once the run has ended: a chosen lane is one of the block's and in RUN. -/
theorem State.select_eq_none {s : State} (h : s.runEnded = true) : s.select = none := by
  refine Option.eq_none_iff_forall_ne_some.2 fun t ht => ?_
  obtain ⟨hlanes, -, -, hrun, -⟩ := State.select_spec ht
  have hmem : t.lane ∈ s.lanes := hlanes ▸ State.mem_lanes.2 (.inr (.inl rfl))
  exact (State.runEnded_iff s).1 h _ hmem ((Lane.running_iff _).1 hrun)

theorem step_of_runEnded {s : State} (h : s.runEnded = true) : step s = .fault .runEnded := by
  rw [step, State.select_eq_none h]

theorem step_of_select {s t : State} (h : s.select = some t) : step s = t.stepFront := by
  rw [step, h]

theorem step_next_of_not_runEnded {s : State} (h : s.runEnded = false) : ∃ t, step s = .next t := by
  obtain ⟨u, hu⟩ := State.select_isSome h
  obtain ⟨t, ht⟩ := u.stepFront_next
  exact ⟨t, (step_of_select hu).trans ht⟩

/-- Replacing the lane in front leaves how many lanes there are. -/
@[simp] theorem State.length_lanes_setLane (s : State) (l : Lane) :
    ({ s with lane := l } : State).lanes.length = s.lanes.length := by
  simp [State.lanes]

theorem State.memRead_outbuf (s : State) (j : Nat) :
    s.memRead .outbuf j = s.lanes[j]?.bind Lane.out := rfl

end Sys2Proof.Machine

open Sys2Proof.Machine

/-- Settles O7: a lane is chosen exactly while the run has not ended, and the step of a chosen lane
always answers a next state. -/
theorem blockStepsUntilRunEnds : Obligations.BlockStepsUntilRunEnds := by
  refine fun s => ⟨fun ⟨l, hl, hrun⟩ => step_next_of_not_runEnded ?_,
    fun h => step_of_runEnded ((State.runEnded_iff s).2 h)⟩
  exact Bool.eq_false_iff.2 fun hend => (State.runEnded_iff s).1 hend l hl hrun

/-- Settles O12: the lane that moves is the one in front after the choice; a step replaces it alone,
and a word of OUTBUF is the OUT register of its own lane. -/
theorem stepChangesOneLane : Obligations.StepChangesOneLane := by
  intro s t h
  have hshared := step_keeps_shared h
  obtain ⟨u, l, -, hlanes, -, hrun, hfront, rfl, -⟩ := step_lane h
  have hother : ∀ j, j ≠ u.before.length →
      ({ u with lane := l } : State).lanes[j]? = s.lanes[j]? := fun j hj => by
    rw [State.getElem?_lanes_setLane u l hj, hlanes]
  refine ⟨hshared, fun a => by rw [hshared], by rw [State.length_lanes_setLane, hlanes],
    u.before.length, u.lane, hfront, hrun, hother, fun j hj => ?_⟩
  rw [State.memRead_outbuf, State.memRead_outbuf, hother j hj]

end

section
/-! What a lane sees of the block, and why the order of the lanes does not matter (20_memory.md R72,
R79; 44_loop_control.md R225): a lane's step is a function of the lane and the shared spaces, so a
whole run only iterates that function on each lane by itself. -/

namespace Sys2Proof.Machine

/-- The lane in front sees the same in `s` and in `s'`: itself, the words of IMEM, INPUT and the two
words of PARAMS that commands read (20_memory.md R70 to R72). -/
structure State.SameView (s s' : State) : Prop where
  lane : s'.lane = s.lane
  imemWord : ∀ k, s'.shared.imemWord k = s.shared.imemWord k
  inputWord : ∀ k, s'.shared.inputWord k = s.shared.inputWord k
  iterations : s'.shared.iterations = s.shared.iterations
  seed : s'.shared.seed = s.shared.seed

theorem State.sameView_of_shared_eq {s s' : State} (hlane : s'.lane = s.lane)
    (hshared : s'.shared = s.shared) : s.SameView s' where
  lane := hlane
  imemWord _ := by rw [hshared]
  inputWord _ := by rw [hshared]
  iterations := by rw [hshared]
  seed := by rw [hshared]

theorem State.SameView.fetchInstr_eq {s s' : State} (h : s.SameView s') :
    s'.fetchInstr = s.fetchInstr := by
  rw [State.fetchInstr, State.fetchInstr, h.lane, h.imemWord]

/-- A command's checks and writes give the same where its lane sees the same: most commands read
their lane alone, LDIN reads INPUT, LDSEED and LDLC a word of PARAMS. -/
theorem exec_sameView (i : Instr) {s s' : State} (h : s.SameView s') :
    ∃ m, exec i s = s.commit m ∧ exec i s' = s'.commit m := by
  obtain ⟨sh, before, l, after, sched⟩ := s
  obtain ⟨sh', before', l', after', sched'⟩ := s'
  obtain ⟨rfl, -, hinput, hiterations, hseed⟩ := h
  cases i with
  | ldin rd off4 =>
    refine ⟨.ok _, rfl, ?_⟩
    rw [← hinput]
    rfl
  | ldseed rd =>
    refine ⟨.ok _, rfl, ?_⟩
    rw [← hseed]
    rfl
  | ldlc =>
    refine ⟨.ok _, rfl, ?_⟩
    rw [← hiterations]
    rfl
  | ldk rd k4 =>
    show ∃ m, execLdk rd k4 _ = _ ∧ execLdk rd k4 _ = _
    simp only [execLdk]
    split <;> exact ⟨_, rfl, rfl⟩
  | cmp | add | sub | mulw | sqrw => exact ⟨_, rfl, rfl⟩
  | fred | fadd | fsub | fneg | fmul | fsqr | fmred | tomont | frommont => exact ⟨_, rfl, rfl⟩
  | mred | madd | mmul => exact ⟨_, rfl, rfl⟩
  | mov | xor | lowb | mul32 | zguard | xfold | stout | halt => exact ⟨_, rfl, rfl⟩
  | rdf | ldi | ldtid | lcbz | jmp => exact ⟨.ok _, rfl, rfl⟩

/-- The step of the lane in front, where that lane sees the same: it becomes the same lane, and
nothing else changes. -/
theorem State.SameView.stepFront {s s' : State} (h : s.SameView s') :
    ∃ l, s.stepFront = .next { s with lane := l } ∧ s'.stepFront = .next { s' with lane := l } := by
  rw [State.stepFront, State.stepFront, h.fetchInstr_eq]
  cases s.fetchInstr with
  | error c => exact ⟨s.lane.raise c, rfl, by rw [← h.lane]; rfl⟩
  | ok i =>
    obtain ⟨m, hs, hs'⟩ := exec_sameView i h
    simp only [hs, hs']
    cases m with
    | ok l => exact ⟨l, rfl, rfl⟩
    | error c => exact ⟨s.lane.raise c, rfl, by rw [← h.lane]; rfl⟩

/-! ### A lane by itself -/

/-- The block whose only lane is `l`. -/
def Lane.alone (sh : Shared) (l : Lane) : State :=
  { shared := sh, before := [], lane := l, after := [], sched := [] }

/-- The lane after a step of the block that holds it alone; the lane itself where there is none. -/
def Lane.stepAlone (sh : Shared) (l : Lane) : Lane :=
  match step (l.alone sh) with
  | .next t => t.lane
  | .fault _ => l
  | .refused _ => l

theorem Lane.select_alone {sh : Shared} {l : Lane} (h : l.running = true) :
    (l.alone sh).select = some (l.alone sh) := by
  simp [State.select, State.nextLane, State.defaultLane, State.focus, State.lanes, Lane.alone, h]

/-- A lane that is not in RUN stays as it is. -/
theorem Lane.stepAlone_of_not_running {sh : Shared} {l : Lane} (h : l.state ≠ .run) :
    l.stepAlone sh = l := by
  have hend : (l.alone sh).runEnded = true :=
    (State.runEnded_iff _).2 fun k hk => List.mem_singleton.1 hk ▸ h
  rw [Lane.stepAlone, step_of_runEnded hend]

/-- A lane in front, in RUN, steps as it does alone. -/
theorem State.stepFront_eq_stepAlone {s : State} (h : s.lane.running = true) :
    s.stepFront = .next { s with lane := s.lane.stepAlone s.shared } := by
  have hview : s.SameView (s.lane.alone s.shared) := State.sameView_of_shared_eq rfl rfl
  obtain ⟨l, hs, halone⟩ := hview.stepFront
  rw [hs, Lane.stepAlone, step_of_select (Lane.select_alone h), halone]

/-- A step of the block leaves each lane as it is or moves it as it moves alone. -/
theorem step_lane_stays_or_stepAlone {s t : State} (h : step s = .next t) (k : Nat) :
    t.lanes[k]? = s.lanes[k]? ∨ t.lanes[k]? = s.lanes[k]?.map (Lane.stepAlone s.shared) := by
  obtain ⟨u, hselect, hfront⟩ := step_cases h
  obtain ⟨hlanes, hshared, -, hrun, -⟩ := State.select_spec hselect
  rw [State.stepFront_eq_stepAlone hrun] at hfront
  cases hfront
  by_cases hk : k = u.before.length
  · right
    rw [hk, ← hlanes, u.getElem?_lanes_before, ← hshared]
    exact State.getElem?_lanes_before { u with lane := u.lane.stepAlone u.shared }
  · left
    rw [State.getElem?_lanes_setLane u _ hk, hlanes]

/-! ### Whole runs -/

open Sys2Proof.Claims

theorem after_succ_eq_some {n : Nat} {s u : State} (h : after (n + 1) s = some u) :
    ∃ t, step s = .next t ∧ after n t = some u := by
  rw [after] at h
  split at h
  · exact ⟨_, ‹_›, h⟩
  · cases h
  · cases h

theorem after_keeps_shared {n : Nat} {s u : State} (h : after n s = some u) :
    u.shared = s.shared := by
  induction n generalizing s with
  | zero => cases h; rfl
  | succ n ih =>
    obtain ⟨t, hstep, hafter⟩ := after_succ_eq_some h
    exact (ih hafter).trans (step_keeps_shared hstep)

/-- After any number of steps of the block, each lane has taken some number of steps alone. -/
theorem after_lane_iterates {n : Nat} {s u : State} (h : after n s = some u) (k : Nat) :
    ∃ j, u.lanes[k]? = s.lanes[k]?.map (Lane.stepAlone s.shared)^[j] := by
  induction n generalizing s with
  | zero =>
    cases h
    exact ⟨0, by simp⟩
  | succ n ih =>
    obtain ⟨t, hstep, hafter⟩ := after_succ_eq_some h
    obtain ⟨j, hj⟩ := ih hafter
    rw [step_keeps_shared hstep] at hj
    rcases step_lane_stays_or_stepAlone hstep k with hk | hk
    · exact ⟨j, by rw [hj, hk]⟩
    · exact ⟨j + 1, by rw [hj, hk, Option.map_map, Function.iterate_succ]⟩

/-- A lane alone has one end: once it is not in RUN, more steps do not move it. -/
theorem Lane.iterate_stepAlone_unique {sh : Shared} {l : Lane} {i j : Nat}
    (hi : ((Lane.stepAlone sh)^[i] l).state ≠ .run) (hj : ((Lane.stepAlone sh)^[j] l).state ≠ .run) :
    (Lane.stepAlone sh)^[i] l = (Lane.stepAlone sh)^[j] l := by
  wlog hij : i ≤ j generalizing i j
  · exact (this hj hi (Nat.le_of_not_le hij)).symm
  obtain ⟨d, rfl⟩ := Nat.exists_eq_add_of_le' hij
  rw [Function.iterate_add_apply, Function.iterate_fixed (Lane.stepAlone_of_not_running hi)]

/-- Two runs that end, from the same lanes and shared spaces, end with the same lanes. -/
theorem after_lanes_unique {s s' u v : State} {n m : Nat} (hlanes : s'.lanes = s.lanes)
    (hshared : s'.shared = s.shared) (hu : after n s = some u) (hv : after m s' = some v)
    (huend : u.runEnded = true) (hvend : v.runEnded = true) : u.lanes = v.lanes := by
  refine List.ext_getElem? fun k => ?_
  obtain ⟨i, hi⟩ := after_lane_iterates hu k
  obtain ⟨j, hj⟩ := after_lane_iterates hv k
  rw [hlanes, hshared] at hj
  cases hk : s.lanes[k]? with
  | none => rw [hi, hj, hk]; rfl
  | some l =>
    rw [hk, Option.map_some] at hi hj
    have hui := (State.runEnded_iff u).1 huend _ (List.mem_of_getElem? hi)
    have hvj := (State.runEnded_iff v).1 hvend _ (List.mem_of_getElem? hj)
    rw [hi, hj, Lane.iterate_stepAlone_unique hui hvj]

end Sys2Proof.Machine

open Sys2Proof.Machine

/-- Settles O13: states that agree in what the obligation lists are in `SameView`. -/
theorem laneSeesOnlyItsOwnState : Obligations.LaneSeesOnlyItsOwnState := by
  intro s s' t hlane hwords himem hinput hiterations hseed ht
  have hview : s.SameView s' :=
    { lane := hlane
      imemWord := fun k => by rw [Shared.imemWord, Shared.imemWord, hwords, himem]
      inputWord := fun k => by rw [Shared.inputWord, Shared.inputWord, hinput]
      iterations := hiterations
      seed := hseed }
  obtain ⟨l, hs, hs'⟩ := hview.stepFront
  cases hs.symm.trans ht
  exact ⟨_, hs', rfl⟩

/-- Settles O14: a schedule is neither a lane nor a shared space, so both runs iterate the same lane
steps on the same lanes. -/
theorem interleavingsReachOneEnd : Obligations.InterleavingsReachOneEnd := by
  intro s u v a b n m hu hv huend hvend
  have hlanes : ({ s with sched := b } : State).lanes = ({ s with sched := a } : State).lanes := rfl
  exact ⟨after_lanes_unique hlanes rfl hu hv huend hvend,
    (after_keeps_shared hu).trans (after_keeps_shared hv).symm⟩

end

section
/-! What the host writes and reads: the loaded program word by word, and the byte view of a word
(20_memory.md R70, R75, R77, R85). -/

namespace Sys2Proof.Machine

/-- Byte `k` of a word is the word shifted down `k` bytes, cut to 8 bits. -/
theorem byteOf_eq (w : Word32) (k : Nat) :
    byteOf w k = BitVec.ofNat 8 (w.toNat / 2 ^ (8 * k)) := by
  have hwidth : 8 * k + 7 - 8 * k + 1 = 8 := by omega
  apply BitVec.eq_of_toNat_eq
  rw [byteOf, bits, hwidth, BitVec.toNat_ofNat, BitVec.toNat_ofNat, Nat.mod_mod]

/-- Word `k` of a program written from word `i` on is read at `i + k`. -/
theorem readWord_writeProgram {m : Memory} (h : m.wf) (i : Nat) {ws : List Word32} {k : Nat}
    (hk : k < ws.length) : (writeProgram m i ws).readWord (i + k) = ws[k] := by
  induction ws generalizing m i k with
  | nil => exact absurd hk (Nat.not_lt_zero k)
  | cons w ws ih =>
    have hw := Memory.wf_writeWord h i w
    rw [writeProgram]
    cases k with
    | zero =>
      have hbelow := readWord_writeProgram_below hw ws (Nat.lt_add_one i)
      rw [Nat.add_zero i, hbelow, Memory.readWord_writeWord h, if_pos rfl, List.getElem_cons_zero]
    | succ k =>
      have hnext : i + (k + 1) = i + 1 + k := by omega
      rw [hnext, ih hw (i + 1) (Nat.lt_of_succ_lt_succ hk), List.getElem_cons_succ]

theorem Memory.wf_nil : Memory.wf [] := ⟨.nil, by simp⟩

end Sys2Proof.Machine

open Sys2Proof.Machine

/-- Settles O20: below its length the program is read back word by word. -/
theorem loadedProgramIsFetched : Obligations.LoadedProgramIsFetched := by
  refine fun program input params k => ⟨?_, wf_writeProgram Memory.wf_nil 0 program⟩
  rw [Shared.imemWord, Shared.load]
  by_cases hk : k < program.length
  · rw [if_pos hk, List.getElem?_eq_getElem hk, ← readWord_writeProgram Memory.wf_nil 0 hk,
      Nat.zero_add]
  · rw [if_neg hk, List.getElem?_eq_none (Nat.le_of_not_lt hk)]

/-- Settles O21: address `4 * i + k` is byte `k` of word `i`, in the host's view and in IMEM's
bytes. -/
theorem hostBytesAreLittleEndian : Obligations.HostBytesAreLittleEndian := by
  refine ⟨fun s sp i k hk => ?_, fun m i w hm => ⟨fun k hk => ?_, fun a ha => ?_, ?_⟩⟩
  · have hword : (4 * i + k) / 4 = i := by omega
    have hbyte : (4 * i + k) % 4 = k := by omega
    simp only [State.hostByte, hword, hbyte, byteOf_eq]
  · have hbyte : (4 * i + k) % 4 = k := by omega
    rw [Memory.read_writeWord hm, if_pos (by omega), hbyte, byteOf_eq]
  · rw [Memory.read_writeWord hm, if_neg (by omega)]
  · rw [Memory.readWord_writeWord hm, if_pos rfl]

end

section
/-! The mask and match test of a row of the opcode map, read as a list of fields that must be zero
(30_encoding.md R109, R111 (b)). -/

namespace Sys2Proof

/-- The 32-bit word with ones exactly in bits `hi..lo`. -/
def fieldMask (hi lo : Nat) : Word32 := BitVec.ofNat 32 ((2 ^ (hi - lo + 1) - 1) * 2 ^ lo)

/-- The 32-bit word with ones in every field of the list. -/
def fieldsMask (fs : List (Nat × Nat)) : Word32 :=
  fs.foldr (fun f m => fieldMask f.1 f.2 ||| m) 0#32

/-- Every field of the list is zero in `w`. -/
def fieldsZero (fs : List (Nat × Nat)) (w : Nat) : Bool := fs.all fun f => bits w f.1 f.2 == 0

/-- Masking a field keeps its value in its place. -/
theorem toNat_and_fieldMask (w : Word32) (hi lo : Nat) :
    (w &&& fieldMask hi lo).toNat = bits w.toNat hi lo * 2 ^ lo := by
  apply Nat.eq_of_testBit_eq
  intro k
  have hk : w.toNat.testBit k = true → k < 32 := fun h => by
    by_contra hge
    have hlt := Nat.pow_le_pow_right (n := 2) (by omega) (Nat.le_of_not_lt hge)
    rw [Nat.testBit_lt_two_pow (w.isLt.trans_le hlt)] at h
    cases h
  rw [fieldMask, bits, BitVec.toNat_and, BitVec.toNat_ofNat, Nat.testBit_and,
    Nat.testBit_mod_two_pow, Nat.testBit_mul_two_pow, Nat.testBit_mul_two_pow,
    Nat.testBit_two_pow_sub_one, Nat.testBit_mod_two_pow, Nat.testBit_div_two_pow]
  by_cases hlo : lo ≤ k
  · rw [Nat.sub_add_cancel hlo]
    cases hw : w.toNat.testBit k with
    | false => simp
    | true => simp [hlo, hk hw]
  · simp [hlo]

theorem and_fieldMask_eq_zero {w : Word32} {hi lo : Nat} :
    w &&& fieldMask hi lo = 0#32 ↔ bits w.toNat hi lo = 0 := by
  rw [← BitVec.toNat_inj, toNat_and_fieldMask]
  simp

theorem and_fieldsMask_eq_zero {w : Word32} {fs : List (Nat × Nat)} :
    w &&& fieldsMask fs = 0#32 ↔ fieldsZero fs w.toNat = true := by
  induction fs with
  | nil => simp [fieldsMask, fieldsZero]
  | cons f fs ih =>
    have hcons : fieldsMask (f :: fs) = fieldMask f.1 f.2 ||| fieldsMask fs := rfl
    rw [hcons, BitVec.and_or_distrib_left, BitVec.or_eq_zero_iff, and_fieldMask_eq_zero, ih]
    simp [fieldsZero]

/-- The `op` of the words a row speaks of. -/
def OpcodeRow.op (row : OpcodeRow) : Nat := row.pattern.toNat / 2 ^ 26

/-- The row fixes the `op` field, demands that the fields `fs` are zero, and fixes no other bit. -/
def OpcodeRow.fixes (row : OpcodeRow) (fs : List (Nat × Nat)) : Bool :=
  row.mask == fieldMask 31 26 ||| fieldsMask fs &&
    row.pattern == BitVec.ofNat 32 (row.op * 2 ^ 26) && row.pattern &&& fieldsMask fs == 0#32

theorem bits_op (w : Word32) : bits w.toNat 31 26 = w.toNat / 2 ^ 26 := by
  have := w.isLt
  simp only [bits]
  omega

/-- On a word with the row's `op`, the mask and match test is the test of its zero fields. -/
theorem OpcodeRow.fits_eq_fieldsZero {row : OpcodeRow} {fs : List (Nat × Nat)}
    (hrow : row.fixes fs = true) {w : Word32} (hop : w.toNat / 2 ^ 26 = row.op) :
    row.fits w = fieldsZero fs w.toNat := by
  simp only [OpcodeRow.fixes, Bool.and_eq_true, beq_iff_eq] at hrow
  obtain ⟨⟨hmask, hpattern⟩, hdisjoint⟩ := hrow
  have hopField : w &&& fieldMask 31 26 = row.pattern := by
    apply BitVec.eq_of_toNat_eq
    have hlt : row.op * 2 ^ 26 < 2 ^ 32 := by have := w.isLt; omega
    rw [toNat_and_fieldMask, bits_op, hop, hpattern, BitVec.toNat_ofNat, Nat.mod_eq_of_lt hlt]
  have hsplit : w &&& row.mask = row.pattern ||| (w &&& fieldsMask fs) := by
    rw [hmask, BitVec.and_or_distrib_left, hopField]
  rw [Bool.eq_iff_iff, ← and_fieldsMask_eq_zero, OpcodeRow.fits, beq_iff_eq, hsplit]
  constructor
  · intro h
    have hzero := congrArg (· &&& fieldsMask fs) h
    simpa [BitVec.and_or_distrib_right, hdisjoint, BitVec.and_assoc] using hzero
  · intro h
    rw [h, BitVec.or_zero]

end Sys2Proof
end

section
/-! Every row of the opcode map says what the decoder makes of the words with its `op`
(30_encoding.md R109, R111). -/

namespace Sys2Proof

/-- The row says what the decoder makes of `w`, with `i` the command that the fields of `w` spell:
the field decoder answers `i` exactly when the row's test passes, the row names `i`, its extra
condition is the well-formedness of `i`, and no bit of a word that passes is ignored. -/
structure OpcodeRow.Describes (row : OpcodeRow) (w : Word32) (i : Instr) : Prop where
  fields : decodeFields w.toNat = whenZero (row.fits w) i
  mnemonic : i.mnemonic = row.mnemonic
  wellFormed : i.wellFormed = row.extra.holds w
  encode : row.fits w = true → encodeNat i = w.toNat

/-- The row describes every word with its `op`. -/
def OpcodeRow.DescribesItsWords (row : OpcodeRow) : Prop :=
  ∀ w : Word32, w.toNat / 2 ^ 26 = row.op → ∃ i, row.Describes w i

/-! ### No bit of a word is outside its fields, one lemma a format -/

theorem packR_fieldsOf {w op : Nat} (hop : w / 2 ^ 26 = op) (hlow : bits w 16 0 = 0) :
    packR op (bits w 25 23) (bits w 22 20) (bits w 19 17) = w := by
  simp only [bits, packR] at *
  omega

theorem packI_fieldsOf {w op : Nat} (hop : w / 2 ^ 26 = op) (hlow : bits w 18 16 = 0) :
    packI op (bits w 25 23) (bits w 22 19) (bits w 15 0) = w := by
  simp only [bits, packI] at *
  omega

theorem packK_fieldsOf {w op : Nat} (hop : w / 2 ^ 26 = op) (hlow : bits w 18 0 = 0) :
    packK op (bits w 25 23) (bits w 22 19) = w := by
  simp only [bits, packK] at *
  omega

theorem packB_fieldsOf {w op : Nat} (hop : w / 2 ^ 26 = op) (hlow : bits w 25 16 = 0) :
    packB op (bits w 15 0) = w := by
  simp only [bits, packB] at *
  omega

theorem packN_fieldsOf {w op : Nat} (hop : w / 2 ^ 26 = op) (hlow : bits w 25 0 = 0) :
    packN op = w := by
  simp only [bits, packN] at *
  omega

@[simp] theorem fieldRd_val (w : Nat) : (fieldRd w).val = bits w 25 23 :=
  Nat.mod_eq_of_lt (Nat.mod_lt _ (by decide))

@[simp] theorem fieldRs1_val (w : Nat) : (fieldRs1 w).val = bits w 22 20 :=
  Nat.mod_eq_of_lt (Nat.mod_lt _ (by decide))

@[simp] theorem fieldRs2_val (w : Nat) : (fieldRs2 w).val = bits w 19 17 :=
  Nat.mod_eq_of_lt (Nat.mod_lt _ (by decide))

@[simp] theorem fieldK4_val (w : Nat) : (fieldK4 w).val = bits w 22 19 :=
  Nat.mod_eq_of_lt (Nat.mod_lt _ (by decide))

@[simp] theorem fieldImm16_toNat (w : Nat) : (fieldImm16 w).toNat = bits w 15 0 :=
  Nat.mod_eq_of_lt (Nat.mod_lt _ (by decide))

/-! ### One lemma a format -/

/-- Row and decoder agree on `op` and the fields `fs` that must be zero, and name the command `i`
that the fields of a word spell, with its extra condition. For one row each part is a computation,
`decode` the choice of its arm. -/
structure OpcodeRow.Reads (row : OpcodeRow) (op : Nat) (fs : List (Nat × Nat)) (i : Nat → Instr) :
    Prop where
  op_eq : row.op = op := by rfl
  fixes : row.fixes fs = true := by rfl
  decode : ∀ w, bits w 31 26 = op → decodeFields w = whenZero (fieldsZero fs w) (i w) := by
    intro w h
    simp [decodeFields, h, formR3, formR2, formR1, formK, formB, formN, fieldsZero, Bool.and_assoc]
  mnemonic : ∀ w, (i w).mnemonic = row.mnemonic := by intro w; rfl
  extra : ∀ w : Word32, (i w.toNat).wellFormed = row.extra.holds w := by intro w; rfl

namespace OpcodeRow

theorem Reads.describesItsWords {row : OpcodeRow} {op : Nat} {fs : List (Nat × Nat)}
    {i : Nat → Instr} (h : row.Reads op fs i)
    (he : ∀ w, w / 2 ^ 26 = op → fieldsZero fs w = true → encodeNat (i w) = w) :
    row.DescribesItsWords := by
  intro w hop
  have hfits := OpcodeRow.fits_eq_fieldsZero h.fixes hop
  rw [h.op_eq] at hop
  exact ⟨i w.toNat, hfits ▸ h.decode _ (by rw [bits_op, hop]), h.mnemonic _, h.extra w,
    fun hz => he _ hop (hfits ▸ hz)⟩

variable {row : OpcodeRow}

theorem describes_cmp (h : row.Reads 0x01 [(25, 23), (16, 0)] fun w =>
    .cmp (fieldRs1 w) (fieldRs2 w)) : row.DescribesItsWords := by
  refine h.describesItsWords fun w hop hz => ?_
  obtain ⟨hrd, hlow⟩ : bits w 25 23 = 0 ∧ bits w 16 0 = 0 := by simpa [fieldsZero] using hz
  simpa [encodeNat, hrd] using packR_fieldsOf hop hlow

theorem describes_formR3 (op : Nat) (i : Reg → Reg → Reg → Instr)
    (h : row.Reads op [(16, 0)] fun w => i (fieldRd w) (fieldRs1 w) (fieldRs2 w))
    (he : ∀ rd rs1 rs2, encodeNat (i rd rs1 rs2) = packR op rd rs1 rs2 := by intros; rfl) :
    row.DescribesItsWords := by
  refine h.describesItsWords fun w hop hz => ?_
  have hlow : bits w 16 0 = 0 := by simpa [fieldsZero] using hz
  simpa [he] using packR_fieldsOf hop hlow

theorem describes_formR2 (op : Nat) (i : Reg → Reg → Instr)
    (h : row.Reads op [(19, 17), (16, 0)] fun w => i (fieldRd w) (fieldRs1 w))
    (he : ∀ rd rs1, encodeNat (i rd rs1) = packR op rd rs1 0 := by intros; rfl) :
    row.DescribesItsWords := by
  refine h.describesItsWords fun w hop hz => ?_
  obtain ⟨hrs2, hlow⟩ : bits w 19 17 = 0 ∧ bits w 16 0 = 0 := by simpa [fieldsZero] using hz
  simpa [he, hrs2] using packR_fieldsOf hop hlow

theorem describes_formR1 (op : Nat) (i : Reg → Instr)
    (h : row.Reads op [(22, 20), (19, 17), (16, 0)] fun w => i (fieldRd w))
    (he : ∀ rd, encodeNat (i rd) = packR op rd 0 0 := by intros; rfl) :
    row.DescribesItsWords := by
  refine h.describesItsWords fun w hop hz => ?_
  obtain ⟨hrs1, hrs2, hlow⟩ : bits w 22 20 = 0 ∧ bits w 19 17 = 0 ∧ bits w 16 0 = 0 := by
    simpa [fieldsZero] using hz
  simpa [he, hrs1, hrs2] using packR_fieldsOf hop hlow

theorem describes_stout (h : row.Reads 0x2B [(25, 23), (19, 17), (16, 0)] fun w =>
    .stout (fieldRs1 w)) : row.DescribesItsWords := by
  refine h.describesItsWords fun w hop hz => ?_
  obtain ⟨hrd, hrs2, hlow⟩ : bits w 25 23 = 0 ∧ bits w 19 17 = 0 ∧ bits w 16 0 = 0 := by
    simpa [fieldsZero] using hz
  simpa [encodeNat, hrd, hrs2] using packR_fieldsOf hop hlow

theorem describes_ldi (h : row.Reads 0x20 [(18, 16)] fun w =>
    .ldi (fieldRd w) (fieldK4 w) (fieldImm16 w)) : row.DescribesItsWords := by
  refine h.describesItsWords fun w hop hz => ?_
  have hzero : bits w 18 16 = 0 := by simpa [fieldsZero] using hz
  simpa [encodeNat] using packI_fieldsOf hop hzero

theorem describes_formK (op : Nat) (i : Reg → Fin 16 → Instr)
    (h : row.Reads op [(18, 0)] fun w => i (fieldRd w) (fieldK4 w))
    (he : ∀ rd k, encodeNat (i rd k) = packK op rd k := by intros; rfl) :
    row.DescribesItsWords := by
  refine h.describesItsWords fun w hop hz => ?_
  have hlow : bits w 18 0 = 0 := by simpa [fieldsZero] using hz
  simpa [he] using packK_fieldsOf hop hlow

theorem describes_formB (op : Nat) (i : BitVec 16 → Instr)
    (h : row.Reads op [(25, 16)] fun w => i (fieldImm16 w))
    (he : ∀ off, encodeNat (i off) = packB op off.toNat := by intros; rfl) :
    row.DescribesItsWords := by
  refine h.describesItsWords fun w hop hz => ?_
  have hzero : bits w 25 16 = 0 := by simpa [fieldsZero] using hz
  simpa [he] using packB_fieldsOf hop hzero

theorem describes_formN (op : Nat) (i : Instr) (h : row.Reads op [(25, 0)] fun _ => i)
    (he : encodeNat i = packN op := by rfl) : row.DescribesItsWords := by
  refine h.describesItsWords fun w hop hz => ?_
  have hlow : bits w 25 0 = 0 := by simpa [fieldsZero] using hz
  exact he.trans (packN_fieldsOf hop hlow)

/-! ### The extra conditions (30_encoding.md R108, R109) -/

theorem isPair_fieldRd (w : Nat) : Reg.isPair (fieldRd w) = (bits w 23 23 == 0) := by
  rw [Reg.isPair, fieldRd_val, Bool.eq_iff_iff, beq_iff_eq, beq_iff_eq]
  simp only [bits]
  omega

theorem isPair_fieldRs1 (w : Nat) : Reg.isPair (fieldRs1 w) = (bits w 20 20 == 0) := by
  rw [Reg.isPair, fieldRs1_val, Bool.eq_iff_iff, beq_iff_eq, beq_iff_eq]
  simp only [bits]
  omega

theorem ldk_wellFormed_eq (w : Nat) (rd : Reg) :
    (Instr.ldk rd (fieldK4 w)).wellFormed = decide (bits w 22 19 ≤ 3) := by
  rw [Instr.wellFormed, fieldK4_val]

/-! ### The rows -/

theorem arithmeticRows_describe : ∀ row ∈ arithmeticRows, row.DescribesItsWords :=
  List.forall_iff_forall_mem.1
    ⟨describes_cmp {},
     describes_formR3 0x02 .add {},
     describes_formR3 0x03 .sub {},
     describes_formR3 0x04 .mulw { extra := fun w => isPair_fieldRd w.toNat },
     describes_formR2 0x05 .sqrw { extra := fun w => isPair_fieldRd w.toNat },
     describes_formR2 0x08 .fred {},
     describes_formR3 0x09 .fadd {},
     describes_formR3 0x0A .fsub {},
     describes_formR2 0x0B .fneg {},
     describes_formR3 0x0C .fmul {},
     describes_formR2 0x0D .fsqr {},
     describes_formR2 0x0E .fmred { extra := fun w => isPair_fieldRs1 w.toNat },
     describes_formR2 0x0F .tomont {},
     describes_formR2 0x10 .frommont {}⟩

theorem movementRows_describe : ∀ row ∈ movementRows, row.DescribesItsWords :=
  List.forall_iff_forall_mem.1
    ⟨describes_formR2 0x14 .mred {},
     describes_formR3 0x15 .madd {},
     describes_formR3 0x16 .mmul {},
     describes_formR2 0x18 .mov {},
     describes_formR3 0x19 .xor {},
     describes_formR2 0x1A .lowb {},
     describes_formR3 0x1B .mul32 {},
     describes_formR2 0x1C .zguard {},
     describes_formR2 0x1D .xfold {},
     describes_formR1 0x1E .rdf {},
     describes_ldi {},
     describes_formK 0x21 .ldk { extra := fun w => ldk_wellFormed_eq w.toNat _ },
     describes_formK 0x22 .ldin {},
     describes_formR1 0x23 .ldtid {},
     describes_formR1 0x24 .ldseed {},
     describes_formN 0x28 .ldlc {},
     describes_formB 0x29 .lcbz {},
     describes_formB 0x2A .jmp {},
     describes_stout {},
     describes_formN 0x2C .halt {}⟩

/-- Every row of the opcode map describes the words with its `op`. -/
theorem describesItsWords_of_mem {row : OpcodeRow} (h : row ∈ opcodeMap) : row.DescribesItsWords :=
  (List.mem_append.1 h).elim (arithmeticRows_describe row) (movementRows_describe row)

end OpcodeRow

end Sys2Proof
end

section
/-! The round trips of the encoding, and which words are illegal (30_encoding.md R100 to R112). -/

namespace Sys2Proof

/-- The statement of Laws/PerInstr.lean, for every command. -/
theorem encoding_statement (i : Instr) : Laws.Encoding.Statement i :=
  match i with
  | .cmp a b => Laws.Encoding.cmp a b
  | .add d a b => Laws.Encoding.add d a b
  | .sub d a b => Laws.Encoding.sub d a b
  | .mulw d a b => Laws.Encoding.mulw d a b
  | .sqrw d a => Laws.Encoding.sqrw d a
  | .fred d a => Laws.Encoding.fred d a
  | .fadd d a b => Laws.Encoding.fadd d a b
  | .fsub d a b => Laws.Encoding.fsub d a b
  | .fneg d a => Laws.Encoding.fneg d a
  | .fmul d a b => Laws.Encoding.fmul d a b
  | .fsqr d a => Laws.Encoding.fsqr d a
  | .fmred d a => Laws.Encoding.fmred d a
  | .tomont d a => Laws.Encoding.tomont d a
  | .frommont d a => Laws.Encoding.frommont d a
  | .mred d a => Laws.Encoding.mred d a
  | .madd d a b => Laws.Encoding.madd d a b
  | .mmul d a b => Laws.Encoding.mmul d a b
  | .mov d a => Laws.Encoding.mov d a
  | .xor d a b => Laws.Encoding.xor d a b
  | .lowb d a => Laws.Encoding.lowb d a
  | .mul32 d a b => Laws.Encoding.mul32 d a b
  | .zguard d a => Laws.Encoding.zguard d a
  | .xfold d a => Laws.Encoding.xfold d a
  | .rdf d => Laws.Encoding.rdf d
  | .ldi d j imm16 => Laws.Encoding.ldi d j imm16
  | .ldk d k4 => Laws.Encoding.ldk d k4
  | .ldin d off4 => Laws.Encoding.ldin d off4
  | .ldtid d => Laws.Encoding.ldtid d
  | .ldseed d => Laws.Encoding.ldseed d
  | .ldlc => Laws.Encoding.ldlc
  | .lcbz off16 => Laws.Encoding.lcbz off16
  | .jmp off16 => Laws.Encoding.jmp off16
  | .stout a => Laws.Encoding.stout a
  | .halt => Laws.Encoding.halt

theorem encode_toNat (i : Instr) : (encode i).toNat = encodeNat i := by
  obtain ⟨hlt, -⟩ := encoding_statement i
  rw [encode, BitVec.toNat_ofNat, Nat.mod_eq_of_lt hlt]

theorem decode_encode {i : Instr} (h : i.wellFormed = true) : decode (encode i) = .ok i := by
  obtain ⟨-, hfields⟩ := encoding_statement i
  rw [decode, encode_toNat, hfields]
  exact if_pos h

theorem decodeBytes_bytesOf (w : Word32) : decodeBytes (bytesOf w) = decode w := by
  rw [bytesOf, decodeBytes, Machine.wordOfBytes_byteOf]

theorem decode_ok_wellFormed {w : Word32} {i : Instr} (h : decode w = .ok i) :
    i.wellFormed = true := by
  rw [decode] at h
  split at h
  · cases h
  · split at h
    · cases h
      assumption
    · cases h

/-- A word whose `op` no row has is illegal (30_encoding.md R111 (a)). -/
theorem decode_eq_error_of_op {w : Word32} (h : ∀ row ∈ opcodeMap, w.toNat / 2 ^ 26 ≠ row.op) :
    decode w = .error .unassignedOp := by
  have hop : ∀ n ∈ opcodeMap.map OpcodeRow.op, bits w.toNat 31 26 ≠ n := by
    simpa [bits_op] using h
  have hfields : decodeFields w.toNat = .error .unassignedOp := by
    rw [decodeFields]
    split
    case h_35 => rfl
    all_goals exact absurd ‹bits w.toNat 31 26 = _› (hop _ (by decide))
  rw [decode, hfields]

/-- The ops that R111 (a) lists are those of no row. -/
theorem opcodeMap_op : ∀ row ∈ opcodeMap,
    row.op ∉ [0x00, 0x06, 0x07, 0x11, 0x12, 0x13, 0x17, 0x1F, 0x25, 0x26, 0x27] ∧
      row.op < 0x2D := by
  decide

/-- A word that a row describes is legal exactly when the row accepts it, and the command is the one
its fields spell. -/
theorem OpcodeRow.Describes.decode_eq_ok_iff {row : OpcodeRow} {w : Word32} {i j : Instr}
    (h : row.Describes w i) : decode w = .ok j ↔ row.accepts w = true ∧ i = j := by
  rw [decode, h.fields, whenZero, OpcodeRow.accepts, ← h.wellFormed]
  cases row.fits w <;> cases hw : i.wellFormed <;> simp [hw]

/-- A word that a row describes is illegal exactly when the row's test or its extra condition fails
(30_encoding.md R111 (b), (c)). -/
theorem OpcodeRow.Describes.illegal_iff {row : OpcodeRow} {w : Word32} {i : Instr}
    (h : row.Describes w i) : (∃ e, decode w = .error e) ↔
      w &&& row.mask ≠ row.pattern ∨ row.extra.holds w = false := by
  have haccepts : row.accepts w = false ↔
      w &&& row.mask ≠ row.pattern ∨ row.extra.holds w = false := by
    rw [OpcodeRow.accepts, OpcodeRow.fits, Bool.and_eq_false_iff, beq_eq_false_iff_ne]
  have hillegal : (∃ e, decode w = .error e) ↔ ¬ ∃ j, decode w = .ok j := by
    cases decode w <;> simp
  rw [← haccepts, hillegal]
  simp [h.decode_eq_ok_iff]

theorem exists_row_of_decode_ok {w : Word32} {i : Instr} (h : decode w = .ok i) :
    ∃ row ∈ opcodeMap, row.accepts w = true ∧ row.Describes w i := by
  by_contra hnone
  have hop : ∀ row ∈ opcodeMap, w.toNat / 2 ^ 26 ≠ row.op := fun row hrow hw => by
    obtain ⟨j, hj⟩ := OpcodeRow.describesItsWords_of_mem hrow w hw
    obtain ⟨hacc, rfl⟩ := hj.decode_eq_ok_iff.1 h
    exact hnone ⟨row, hrow, hacc, hj⟩
  rw [decode_eq_error_of_op hop] at h
  cases h

/-- No bit of a legal word is ignored (30_encoding.md R111, R112). -/
theorem encode_of_decode_ok {w : Word32} {i : Instr} (h : decode w = .ok i) : encode i = w := by
  obtain ⟨row, -, hacc, hrow⟩ := exists_row_of_decode_ok h
  apply BitVec.eq_of_toNat_eq
  rw [encode_toNat, hrow.encode (Bool.and_eq_true_iff.1 hacc).1]

/-- The decoder is the inverse of the encoder on well-formed commands, and nothing more. -/
theorem decode_eq_ok_iff {w : Word32} {i : Instr} :
    decode w = .ok i ↔ encode i = w ∧ i.wellFormed = true := by
  constructor
  · exact fun h => ⟨encode_of_decode_ok h, decode_ok_wellFormed h⟩
  · rintro ⟨rfl, h⟩
    exact decode_encode h

end Sys2Proof

namespace Sys2Proof.Machine

theorem rom_eq_none {n : Nat} (h : 3 < n) : Config.rom n = none := by
  obtain ⟨m, rfl⟩ := Nat.exists_eq_add_of_le' h
  rfl

/-- A command that no word encodes raises ILLEGAL_INSN before any other check (log 10). -/
theorem exec_of_not_wellFormed {i : Instr} (s : State) (h : i.wellFormed = false) :
    exec i s = s.commit (.error .illegalInsn) := by
  cases i with
  | mulw rd rs1 rs2 => rw [exec, execMulw, checkPair_error h, Except.error_bind_eq]
  | sqrw rd rs1 => rw [exec, execSqrw, checkPair_error h, Except.error_bind_eq]
  | fmred rd rs1 => rw [exec, execFmred, checkPair_error h, Except.error_bind_eq]
  | ldk rd k4 => rw [exec, execLdk, rom_eq_none (Nat.lt_of_not_le (of_decide_eq_false h))]
  | _ => cases h

end Sys2Proof.Machine

open Sys2Proof Sys2Proof.Machine

/-- Settles O2: each command's fields are read back, and a word is its four bytes. -/
theorem decodeEncodeRoundTrip : Obligations.DecodeEncodeRoundTrip := by
  intro i h
  exact ⟨decode_encode h, by rw [encodeBytes, decodeBytes_bytesOf, decode_encode h]⟩

/-- Settles O3: the row that accepts the word ignores none of its bits. -/
theorem decodedWordReencodes : Obligations.DecodedWordReencodes :=
  fun _ _ h => decode_eq_ok_iff.1 h

/-- Settles O4: a word whose `op` no row has is unassigned; a row with its `op` describes it. -/
theorem illegalWordsExactly : Obligations.IllegalWordsExactly := by
  refine ⟨fun w => ⟨fun herror => ?_, ?_⟩, fun w i h => ?_, fun w hw => ?_⟩
  · by_cases hop : ∃ row ∈ opcodeMap, w.toNat / 2 ^ 26 = row.op
    · obtain ⟨row, hrow, hop⟩ := hop
      obtain ⟨i, hi⟩ := OpcodeRow.describesItsWords_of_mem hrow w hop
      exact .inr ((hi.illegal_iff.1 herror).imp (fun hmask => ⟨row, hrow, hop, hmask⟩)
        fun hextra => ⟨row, hrow, hop, hextra⟩)
    · exact .inl fun row hrow heq => hop ⟨row, hrow, heq⟩
  · rintro (hop | ⟨row, hrow, hop, hmask⟩ | ⟨row, hrow, hop, hextra⟩)
    · exact ⟨_, decode_eq_error_of_op hop⟩
    · obtain ⟨i, hi⟩ := OpcodeRow.describesItsWords_of_mem hrow w hop
      exact hi.illegal_iff.2 (.inl hmask)
    · obtain ⟨i, hi⟩ := OpcodeRow.describesItsWords_of_mem hrow w hop
      exact hi.illegal_iff.2 (.inr hextra)
  · obtain ⟨row, hrow, hacc, hi⟩ := exists_row_of_decode_ok h
    exact ⟨row, hrow, hacc, hi.mnemonic.symm⟩
  · refine ⟨_, decode_eq_error_of_op fun row hrow hop => ?_⟩
    obtain ⟨hlisted, hlt⟩ := opcodeMap_op row hrow
    rw [hop] at hw
    exact hw.elim hlisted (Nat.not_le.2 hlt)

/-- Settles O1: the nine words are computed, and decoding them back is the round trip. -/
theorem workedWordsDecode : Obligations.WorkedWordsDecode := by
  intro c hc
  have hencode : encode c.1 = c.2 ∧ c.1.wellFormed = true := by
    revert c
    decide
  obtain ⟨he, hwf⟩ := hencode
  exact ⟨he, decode_eq_ok_iff.2 ⟨he, hwf⟩⟩

/-- Settles O10: no decoded command is ill-formed. -/
theorem illFormedCommandIsIllegal : Obligations.IllFormedCommandIsIllegal := by
  intro i s h
  refine ⟨exec_of_not_wellFormed s h, fun w hw => ?_⟩
  obtain ⟨-, hwf⟩ := decode_eq_ok_iff.1 hw
  rw [h] at hwf
  cases hwf

end

section
/-! The big-integer commands (40_bigint.md R131 to R135). What every command shares stands first: the
words that stand for it, the words that its row refuses, and the fault of an operand without a value. -/

namespace Sys2Proof

open Claims

/-! ### Words -/

/-- The words of a well-formed command are the one number that its fields make (30_encoding.md R109,
R112). -/
theorem encodedBy_of_encodeNat_eq {i : Instr} {n : Nat} (hwf : i.wellFormed = true)
    (hn : encodeNat i = n) : EncodedBy i n := by
  intro w
  rw [decode_eq_ok_iff, ← BitVec.toNat_inj, encode_toNat, hn, eq_comm]
  exact and_iff_left hwf

/-- A word that breaks the extra condition of its row is illegal (30_encoding.md R111 (c)). -/
theorem illegal_of_extra {row : OpcodeRow} (hrow : row ∈ opcodeMap) {w : Word32}
    (hop : w.toNat / 2 ^ 26 = row.op) (h : row.extra.holds w = false) :
    ∃ e, decode w = .error e := by
  obtain ⟨_, hi⟩ := OpcodeRow.describesItsWords_of_mem hrow w hop
  exact hi.illegal_iff.2 (.inr h)

/-- A word in which a field that its row fixes is not zero is illegal (30_encoding.md R111 (b)). -/
theorem illegal_of_field {row : OpcodeRow} (hrow : row ∈ opcodeMap) {w : Word32}
    (hop : w.toNat / 2 ^ 26 = row.op) {fs : List (Nat × Nat)} (hfs : row.fixes fs = true)
    {hi lo : Nat} (hf : (hi, lo) ∈ fs) (h : bits w.toNat hi lo ≠ 0) :
    ∃ e, decode w = .error e := by
  obtain ⟨_, hi⟩ := OpcodeRow.describesItsWords_of_mem hrow w hop
  refine hi.illegal_iff.2 (.inl fun hfits => h ?_)
  have hzero : fieldsZero fs w.toNat = true :=
    (OpcodeRow.fits_eq_fieldsZero hfs hop).symm.trans (beq_iff_eq.2 hfits)
  exact beq_iff_eq.1 (List.all_eq_true.1 hzero _ hf)

/-- A word whose row asks for an even `rd` and whose `rd` is odd is illegal (30_encoding.md R108). -/
theorem illegal_of_odd_rd {row : OpcodeRow} (hrow : row ∈ opcodeMap) (hextra : row.extra = .rdEven)
    {w : Word32} (hop : w.toNat / 2 ^ 26 = row.op) (hodd : w.toNat / 2 ^ 23 % 2 = 1) :
    ∃ e, decode w = .error e := by
  refine illegal_of_extra hrow hop ?_
  simpa [hextra, ExtraCondition.holds, bits] using hodd

end Sys2Proof

namespace Sys2Proof.Machine

open Sys2Proof.Claims

/-! ### Operands without a value, and pairs -/

section
variable {s : State} {rs1 rs2 : Reg}

/-- A command that reads one source faults when it holds no value (60_exceptions.md R243 (b)). -/
theorem commit_source_unwritten (h : s.lane.x[rs1] = none) (f : Nat → Except Cause Lane) :
    s.commit (s.lane.source rs1 >>= f) = .next (faulted s .unwrittenReg) := by
  rw [Lane.source_error h]
  rfl

/-- A command that reads two sources faults when one of them holds no value (60_exceptions.md
R243 (b)). -/
theorem commit_sources_unwritten (h : s.lane.x[rs1] = none ∨ s.lane.x[rs2] = none)
    (f : Nat × Nat → Except Cause Lane) :
    s.commit (s.lane.sources rs1 rs2 >>= f) = .next (faulted s .unwrittenReg) := by
  rw [Lane.sources_error h]
  rfl

end

theorem Reg.isPair_iff (n : Reg) : n.isPair = true ↔ n.val % 2 = 0 := beq_iff_eq

theorem Reg.eq_high {n hi : Reg} (h : hi.val = n.val + 1) : hi = Reg.high n := by
  apply Fin.ext
  rw [Reg.high, Fin.val_add, h]
  exact (Nat.mod_eq_of_lt (h ▸ hi.isLt)).symm

/-! ### MULW and SQRW on an even pair -/

section
variable {s : State} {rd rs1 rs2 : Reg} {a b : Word256} (hrd : rd.isPair = true)
include hrd

theorem exec_mulw_of_isPair : exec (.mulw rd rs1 rs2) s =
    s.commit (s.lane.sources rs1 rs2 >>= fun v =>
      .ok (s.lane.writePair rd (mulValues v.1 v.2).1 (mulValues v.1 v.2).2).advance) := by
  rw [exec, execMulw, checkPair_ok hrd]
  rfl

theorem exec_sqrw_of_isPair : exec (.sqrw rd rs1) s =
    s.commit (s.lane.source rs1 >>= fun v =>
      .ok (s.lane.writePair rd (sqrValues v).1 (sqrValues v).2).advance) := by
  rw [exec, execSqrw, checkPair_ok hrd]
  rfl

theorem exec_mulw_of_values (ha : s.lane.x[rs1] = some a) (hb : s.lane.x[rs2] = some b) :
    exec (.mulw rd rs1 rs2) s = .next { s with
      lane := (s.lane.writePair rd (a.toNat * b.toNat % 2 ^ 256)
        (a.toNat * b.toNat / 2 ^ 256)).advance } := by
  rw [exec_mulw_of_isPair hrd, Lane.sources_ok ha hb, Except.ok_bind_eq,
    mulValues_spec a.isLt b.isLt, State.commit_ok]

theorem exec_sqrw_of_value (ha : s.lane.x[rs1] = some a) :
    exec (.sqrw rd rs1) s = .next { s with
      lane := (s.lane.writePair rd (a.toNat * a.toNat % 2 ^ 256)
        (a.toNat * a.toNat / 2 ^ 256)).advance } := by
  rw [exec_sqrw_of_isPair hrd, Lane.source_ok ha, Except.ok_bind_eq, sqrValues_spec a.isLt,
    State.commit_ok]

theorem exec_mulw_unwritten (h : s.lane.x[rs1] = none ∨ s.lane.x[rs2] = none) :
    exec (.mulw rd rs1 rs2) s = .next (faulted s .unwrittenReg) := by
  rw [exec_mulw_of_isPair hrd, commit_sources_unwritten h]

theorem exec_sqrw_unwritten (h : s.lane.x[rs1] = none) :
    exec (.sqrw rd rs1) s = .next (faulted s .unwrittenReg) := by
  rw [exec_sqrw_of_isPair hrd, commit_source_unwritten h]

end

/-- The squarer gives what the multiplier gives, in every state (40_bigint.md R135, R136): both refuse
an odd pair, both fault on a source without a value, and both write the exact product. -/
theorem exec_sqrw_eq_mulw (s : State) (rd rs1 : Reg) :
    exec (.sqrw rd rs1) s = exec (.mulw rd rs1 rs1) s := by
  cases hrd : rd.isPair with
  | false =>
    rw [exec_of_not_wellFormed (i := .sqrw rd rs1) s hrd,
      exec_of_not_wellFormed (i := .mulw rd rs1 rs1) s hrd]
  | true =>
    cases ha : s.lane.x[rs1] with
    | none => rw [exec_sqrw_unwritten hrd ha, exec_mulw_unwritten hrd (.inl ha)]
    | some a => rw [exec_sqrw_of_value hrd ha, exec_mulw_of_values hrd ha ha]

end Sys2Proof.Machine

open Sys2Proof Sys2Proof.Machine Sys2Proof.Claims

/-- Settles O28: the limb comparator decides as the two numbers compare. -/
theorem cmpComparesUnsigned : Obligations.CmpComparesUnsigned := by
  intro s rs1 rs2
  refine ⟨encodedBy_of_encodeNat_eq rfl rfl, fun a b ha hb => ?_,
    fun h => commit_sources_unwritten h _⟩
  exact exec_cmp_of_values ha hb

/-- Settles O29: the limb adder gives sum and carry. -/
theorem addGivesSumAndCarry : Obligations.AddGivesSumAndCarry := by
  intro s rd rs1 rs2
  refine ⟨encodedBy_of_encodeNat_eq rfl rfl, fun a b ha hb => ?_,
    fun h => commit_sources_unwritten h _⟩
  exact exec_add_of_values rd ha hb

/-- Settles O30: the limb subtractor gives difference and borrow; its borrow of 1 or 0 is the flag. -/
theorem subGivesDifferenceAndBorrow : Obligations.SubGivesDifferenceAndBorrow := by
  intro s rd rs1 rs2
  refine ⟨encodedBy_of_encodeNat_eq rfl rfl, fun a b ha hb => ?_,
    fun h => commit_sources_unwritten h _⟩
  have hborrow : decide (a.toNat < b.toNat) = decide ((if a.toNat < b.toNat then 1 else 0) = 1) := by
    by_cases h : a.toNat < b.toNat <;> simp [h]
  rw [hborrow]
  exact exec_sub_of_values rd ha hb

/-- Settles O31: the multiplier's two halves, written to the pair after both sources were read. -/
theorem mulwGivesExactProduct : Obligations.MulwGivesExactProduct := by
  intro s rd hi rs1 rs2
  refine ⟨fun hrd => encodedBy_of_encodeNat_eq ((Reg.isPair_iff rd).2 hrd) rfl,
    fun a b hrd hhi ha hb => ?_, fun hrd => exec_mulw_unwritten ((Reg.isPair_iff rd).2 hrd),
    fun w hop hodd => ?_⟩
  · obtain rfl := Reg.eq_high hhi
    exact exec_mulw_of_values ((Reg.isPair_iff rd).2 hrd) ha hb
  · exact illegal_of_odd_rd (row := ⟨"MULW", 0x10000000#32, 0xFC01FFFF#32, .rdEven⟩) (by decide)
      rfl hop hodd

/-- Settles O32: the squarer's two halves, and the same outcome as MULW case by case. -/
theorem sqrwGivesExactSquare : Obligations.SqrwGivesExactSquare := by
  intro s rd hi rs1
  refine ⟨fun hrd => encodedBy_of_encodeNat_eq ((Reg.isPair_iff rd).2 hrd) rfl,
    fun a hrd hhi ha => ?_, fun hrd => exec_sqrw_unwritten ((Reg.isPair_iff rd).2 hrd),
    fun w hop hw => ?_, exec_sqrw_eq_mulw s rd rs1⟩
  · obtain rfl := Reg.eq_high hhi
    exact exec_sqrw_of_value ((Reg.isPair_iff rd).2 hrd) ha
  · have hrow : (⟨"SQRW", 0x14000000#32, 0xFC0FFFFF#32, .rdEven⟩ : OpcodeRow) ∈ opcodeMap := by
      decide
    rcases hw with hodd | hrs2
    · exact illegal_of_odd_rd hrow rfl hop hodd
    · exact illegal_of_field hrow hop (fs := [(19, 17), (16, 0)]) rfl (hi := 19) (lo := 17)
        (by decide) hrs2

end

section
/-! The BN254 field commands (41_bn254.md R150 to R161). All nine do the same three things: they read
their operands, check them against a domain, and write what a datapath makes of them
(`State.fieldCommand`). What each gives in its domain is said once, and the laws follow from it. -/

namespace Sys2Proof.Machine

open Config Claims

/-! ### What the nine commands share -/

/-- The operands `m` are read, PRECOND is raised unless they are in the domain `D`, and `X[rd]` becomes
what the datapath `g` makes of them (41_bn254.md R150, 60_exceptions.md R246). -/
def State.fieldCommand {α : Type} (s : State) (rd : Reg) (m : Except Cause α) (D : α → Prop)
    [DecidablePred D] (g : α → Nat) : Host.Outcome State Fault Refusal :=
  s.commit do
    let v ← m
    domain (decide (D v))
    return s.lane.result rd (g v)

/-- The domain of the two-source commands (60_exceptions.md R244). -/
abbrev BothBelowP (v : Nat × Nat) : Prop := v.1 < p ∧ v.2 < p

section
variable {α : Type} {s : State} {rd : Reg} {m : Except Cause α} {v : α} {D : α → Prop}
  [DecidablePred D] {g : α → Nat}

theorem State.fieldCommand_of_mem (hm : m = .ok v) (hD : D v) :
    s.fieldCommand rd m D g = .next (wrote s rd (g v)) := by
  rw [State.fieldCommand, hm, Except.ok_bind_eq, decide_eq_true hD]
  rfl

theorem State.fieldCommand_of_not_mem (hm : m = .ok v) (hD : ¬ D v) :
    s.fieldCommand rd m D g = .next (faulted s .precond) := by
  rw [State.fieldCommand, hm, Except.ok_bind_eq, decide_eq_false hD]
  rfl

theorem State.fieldCommand_unread (hm : m = .error .unwrittenReg) :
    s.fieldCommand rd m D g = .next (faulted s .unwrittenReg) := by
  rw [State.fieldCommand, hm]
  rfl

end

section
variable {s : State} {rd rs1 rs2 : Reg} {a b : Word256}

theorem State.fieldCommand_source_precond {n : Nat} {g : Nat → Nat} (ha : s.lane.x[rs1] = some a)
    (h : n ≤ a.toNat) :
    s.fieldCommand rd (s.lane.source rs1) (· < n) g = .next (faulted s .precond) :=
  fieldCommand_of_not_mem (Lane.source_ok ha) (Nat.not_lt.2 h)

theorem State.fieldCommand_sources_precond {g : Nat × Nat → Nat} (ha : s.lane.x[rs1] = some a)
    (hb : s.lane.x[rs2] = some b) (h : p ≤ a.toNat ∨ p ≤ b.toNat) :
    s.fieldCommand rd (s.lane.sources rs1 rs2) BothBelowP g = .next (faulted s .precond) :=
  fieldCommand_of_not_mem (Lane.sources_ok ha hb)
    fun hD => h.elim (Nat.not_le.2 hD.1) (Nat.not_le.2 hD.2)

/-- A symmetric datapath makes the order of the sources invisible, faults included. -/
theorem State.fieldCommand_sources_comm (s : State) (rd rs1 rs2 : Reg) {g : Nat × Nat → Nat}
    (hg : ∀ a b, a < p → b < p → g (a, b) = g (b, a)) :
    s.fieldCommand rd (s.lane.sources rs1 rs2) BothBelowP g =
      s.fieldCommand rd (s.lane.sources rs2 rs1) BothBelowP g := by
  by_cases hnone : s.lane.x[rs1] = none ∨ s.lane.x[rs2] = none
  · rw [fieldCommand_unread (Lane.sources_error hnone),
      fieldCommand_unread (Lane.sources_error hnone.symm)]
  · obtain ⟨h1, h2⟩ := not_or.1 hnone
    obtain ⟨a, ha⟩ := Option.ne_none_iff_exists'.1 h1
    obtain ⟨b, hb⟩ := Option.ne_none_iff_exists'.1 h2
    by_cases hD : a.toNat < p ∧ b.toNat < p
    · rw [fieldCommand_of_mem (Lane.sources_ok ha hb) hD,
        fieldCommand_of_mem (Lane.sources_ok hb ha) hD.symm, hg _ _ hD.1 hD.2]
    · rw [fieldCommand_of_not_mem (Lane.sources_ok ha hb) hD,
        fieldCommand_of_not_mem (Lane.sources_ok hb ha) (mt And.symm hD)]

end

/-! ### Each command as such a command -/

section
variable (s : State) (rd rs1 rs2 : Reg)

theorem exec_fred : exec (.fred rd rs1) s =
    s.fieldCommand rd (s.lane.source rs1) (· < 2 * p) reduceOnce := rfl

theorem exec_fadd : exec (.fadd rd rs1 rs2) s =
    s.fieldCommand rd (s.lane.sources rs1 rs2) BothBelowP fun v => fieldAdd v.1 v.2 := rfl

theorem exec_fsub : exec (.fsub rd rs1 rs2) s =
    s.fieldCommand rd (s.lane.sources rs1 rs2) BothBelowP fun v => fieldSub v.1 v.2 := rfl

theorem exec_fneg : exec (.fneg rd rs1) s =
    s.fieldCommand rd (s.lane.source rs1) (· < p) fieldNeg := rfl

theorem exec_fmul : exec (.fmul rd rs1 rs2) s =
    s.fieldCommand rd (s.lane.sources rs1 rs2) BothBelowP fun v => montMul v.1 v.2 := rfl

theorem exec_fsqr : exec (.fsqr rd rs1) s =
    s.fieldCommand rd (s.lane.source rs1) (· < p) montSqr := rfl

theorem exec_fmred {rs1 : Reg} (h : rs1.isPair = true) : exec (.fmred rd rs1) s =
    s.fieldCommand rd (s.lane.sourcePair rs1) (· < p * r) montReduce := by
  rw [exec, execFmred, checkPair_ok h]
  rfl

theorem exec_tomont : exec (.tomont rd rs1) s =
    s.fieldCommand rd (s.lane.source rs1) (· < p) fun a => montMul a r2 := rfl

theorem exec_frommont : exec (.frommont rd rs1) s =
    s.fieldCommand rd (s.lane.source rs1) (· < p) montReduce := rfl

end

/-! ### Arithmetic mod `P` -/

/-- Multiplication by `R` mod `P` loses nothing. -/
theorem eq_of_r_mul_mod_eq {x y : Nat} (hx : x < p) (hy : y < p) (h : r * x % p = r * y % p) :
    x = y := by
  have hxy : x % p = y % p := Nat.ModEq.cancel_left_of_coprime r_coprime_p.symm h
  rwa [Nat.mod_eq_of_lt hx, Nat.mod_eq_of_lt hy] at hxy

theorem exists_isRinv : ∃ rinv, IsRinv rinv :=
  Nat.exists_mul_mod_eq_one_of_coprime r_coprime_p (by decide)

/-- The multiplication by `R2` is the one by `R` (41_bn254.md R158). -/
theorem montMul_r2 {a : Nat} (ha : a < p) : montMul a r2 = r * a % p := by
  obtain ⟨hlt, hmod⟩ := montMul_spec ha r2_lt
  refine eq_of_r_mul_mod_eq hlt (Nat.mod_lt _ p_pos) ?_
  rw [hmod, r2_spec, Nat.mul_mod_mod, Nat.mul_mod_mod, Nat.mul_comm a, Nat.mul_assoc]

theorem montMul_comm {a b : Nat} (ha : a < p) (hb : b < p) : montMul a b = montMul b a := by
  obtain ⟨hlt, hmod⟩ := montMul_spec ha hb
  obtain ⟨hlt', hmod'⟩ := montMul_spec hb ha
  exact eq_of_r_mul_mod_eq hlt hlt' (by rw [hmod, hmod', Nat.mul_comm])

theorem montSqr_eq_montMul {a : Nat} (ha : a < p) : montSqr a = montMul a a := by
  obtain ⟨hlt, hmod⟩ := montSqr_spec ha
  obtain ⟨hlt', hmod'⟩ := montMul_spec ha ha
  exact eq_of_r_mul_mod_eq hlt hlt' (hmod.trans hmod'.symm)

theorem fieldAdd_comm {a b : Nat} (ha : a < p) (hb : b < p) : fieldAdd a b = fieldAdd b a := by
  rw [fieldAdd_spec ha hb, fieldAdd_spec hb ha, Nat.add_comm]

theorem lt_p_mul_r {a : Nat} (ha : a < p) : a < p * r :=
  ha.trans_le (Nat.le_mul_of_pos_right p (by decide))

/-- `(P + a - b) mod P` is the least non-negative residue of the integer `a - b`. -/
theorem emod_sub_toNat (a : Nat) {b : Nat} (hb : b < p) :
    (((a : Int) - (b : Int)) % (p : Int)).toNat = (a + p - b) % p := by
  have hsub : ((a + p - b : Nat) : Int) = (a : Int) - b + p := by omega
  rw [← Int.toNat_natCast ((a + p - b) % p), Int.natCast_mod, hsub, Int.add_emod_right]

section
variable {rinv : Nat} (hr : IsRinv rinv)
include hr

/-- FROMMONT undoes the factor `R` (41_bn254.md R159). -/
theorem mul_rinv_cancel (x : Nat) : 2 ^ 256 * x % p * rinv % p = x % p := by
  rw [Nat.mod_mul_mod, show 2 ^ 256 * x * rinv = 2 ^ 256 * rinv * x by ring, Nat.mul_mod, hr.2,
    Nat.one_mul, Nat.mod_mod]

/-- The Montgomery product of two Montgomery forms is the Montgomery form of the product
(41_bn254.md R161). -/
theorem montgomery_form_mul (a b : Nat) :
    (2 ^ 256 * a % p) * (2 ^ 256 * b % p) * rinv % p = 2 ^ 256 * (a * b) % p := by
  have hb : 2 ^ 256 * b % p * rinv % p = b % p := mul_rinv_cancel hr b
  rw [Nat.mul_assoc, Nat.mod_mul_mod, Nat.mul_mod, hb, ← Nat.mul_mod, Nat.mul_assoc]

end

/-! ### What each command gives in its domain -/

section
variable {s : State} (rd : Reg) {rs1 rs2 : Reg} {a b : Word256} {rinv : Nat}

theorem exec_fred_of_value (ha : s.lane.x[rs1] = some a) (h : a.toNat < 2 * p) :
    exec (.fred rd rs1) s = .next (wrote s rd (a.toNat % p)) := by
  rw [exec_fred, State.fieldCommand_of_mem (Lane.source_ok ha) h, reduceOnce_spec h]

theorem exec_fadd_of_values (ha : s.lane.x[rs1] = some a) (hb : s.lane.x[rs2] = some b)
    (hap : a.toNat < p) (hbp : b.toNat < p) :
    exec (.fadd rd rs1 rs2) s = .next (wrote s rd ((a.toNat + b.toNat) % p)) := by
  rw [exec_fadd, State.fieldCommand_of_mem (Lane.sources_ok ha hb) ⟨hap, hbp⟩,
    fieldAdd_spec hap hbp]

theorem exec_fsub_of_values (ha : s.lane.x[rs1] = some a) (hb : s.lane.x[rs2] = some b)
    (hap : a.toNat < p) (hbp : b.toNat < p) :
    exec (.fsub rd rs1 rs2) s = .next (wrote s rd ((a.toNat + p - b.toNat) % p)) := by
  rw [exec_fsub, State.fieldCommand_of_mem (Lane.sources_ok ha hb) ⟨hap, hbp⟩,
    fieldSub_spec hap hbp]

theorem exec_fneg_of_value (ha : s.lane.x[rs1] = some a) (h : a.toNat < p) :
    exec (.fneg rd rs1) s = .next (wrote s rd ((p - a.toNat) % p)) := by
  rw [exec_fneg, State.fieldCommand_of_mem (Lane.source_ok ha) h, fieldNeg_spec h]

theorem exec_tomont_of_value (ha : s.lane.x[rs1] = some a) (h : a.toNat < p) :
    exec (.tomont rd rs1) s = .next (wrote s rd (2 ^ 256 * a.toNat % p)) := by
  rw [exec_tomont, State.fieldCommand_of_mem (Lane.source_ok ha) h, montMul_r2 h, r]

section
variable (hr : IsRinv rinv)
include hr

theorem exec_fmul_of_values (ha : s.lane.x[rs1] = some a) (hb : s.lane.x[rs2] = some b)
    (hap : a.toNat < p) (hbp : b.toNat < p) :
    exec (.fmul rd rs1 rs2) s = .next (wrote s rd (a.toNat * b.toNat * rinv % p)) := by
  obtain ⟨hlt, hmod⟩ := montMul_spec hap hbp
  rw [exec_fmul, State.fieldCommand_of_mem (Lane.sources_ok ha hb) ⟨hap, hbp⟩,
    eq_mul_rinv hlt hmod hr.2]

theorem exec_fsqr_of_value (ha : s.lane.x[rs1] = some a) (h : a.toNat < p) :
    exec (.fsqr rd rs1) s = .next (wrote s rd (a.toNat * a.toNat * rinv % p)) := by
  obtain ⟨hlt, hmod⟩ := montSqr_spec h
  rw [exec_fsqr, State.fieldCommand_of_mem (Lane.source_ok ha) h, eq_mul_rinv hlt hmod hr.2]

theorem exec_fmred_of_values (hpair : rs1.isPair = true) (ha : s.lane.x[rs1] = some a)
    (hb : s.lane.x[Reg.high rs1] = some b) (h : a.toNat + 2 ^ 256 * b.toNat < p * 2 ^ 256) :
    exec (.fmred rd rs1) s =
      .next (wrote s rd ((a.toNat + 2 ^ 256 * b.toNat) * rinv % p)) := by
  obtain ⟨hlt, hmod⟩ := montReduce_spec h
  rw [exec_fmred s rd hpair, State.fieldCommand_of_mem (Lane.sourcePair_ok ha hb) h,
    eq_mul_rinv hlt hmod hr.2]

theorem exec_frommont_of_value (ha : s.lane.x[rs1] = some a) (h : a.toNat < p) :
    exec (.frommont rd rs1) s = .next (wrote s rd (a.toNat * rinv % p)) := by
  obtain ⟨hlt, hmod⟩ := montReduce_spec (lt_p_mul_r h)
  rw [exec_frommont, State.fieldCommand_of_mem (Lane.source_ok ha) h, eq_mul_rinv hlt hmod hr.2]

end

end

/-- The two datapaths of a square agree in every state, faults included (41_bn254.md R156). -/
theorem exec_fsqr_eq_fmul (s : State) (rd rs1 : Reg) :
    exec (.fsqr rd rs1) s = exec (.fmul rd rs1 rs1) s := by
  rw [exec_fsqr, exec_fmul]
  cases ha : s.lane.x[rs1] with
  | none =>
    rw [State.fieldCommand_unread (Lane.source_error ha),
      State.fieldCommand_unread (Lane.sources_error (.inl ha))]
  | some a =>
    rcases Nat.lt_or_ge a.toNat p with h | h
    · rw [State.fieldCommand_of_mem (Lane.source_ok ha) h,
        State.fieldCommand_of_mem (Lane.sources_ok ha ha) ⟨h, h⟩, montSqr_eq_montMul h]
    · rw [State.fieldCommand_source_precond ha h,
        State.fieldCommand_sources_precond ha ha (.inl h)]

/-! ### Reading a result -/

section
variable (s : State) (rd : Reg) (v : Nat)

@[simp] theorem wrote_x_same : (wrote s rd v).lane.x[rd] = some (BitVec.ofNat 256 v) := by
  simp [wrote]

theorem wrote_x_of_ne {rd n : Reg} (h : n ≠ rd) : (wrote s rd v).lane.x[n] = s.lane.x[n] := by
  have hval : (rd : Nat) ≠ n := fun e => h (Fin.ext e.symm)
  simp only [wrote, Fin.getElem_fin]
  exact Vector.getElem_set_ne _ _ hval

/-- A residue mod `P` fits a register. -/
theorem toNat_ofNat_mod_p : (BitVec.ofNat 256 (v % p)).toNat = v % p := by
  rw [BitVec.toNat_ofNat]
  exact Nat.mod_eq_of_lt ((Nat.mod_lt v p_pos).trans (p_lt.trans (by decide)))

theorem toNat_ofNat_mod_p_lt : (BitVec.ofNat 256 (v % p)).toNat < p := by
  rw [toNat_ofNat_mod_p]
  exact Nat.mod_lt v p_pos

end

/-- A command that writes a residue mod `P` gives a value below `P` (41_bn254.md R150). -/
theorem result_lt_p {i : Instr} {s : State} {rd : Reg} {v : Nat}
    (h : exec i s = .next (wrote s rd (v % p))) :
    ∃ t c, exec i s = .next t ∧ t.lane.x[rd] = some c ∧ c.toNat < p :=
  ⟨_, _, h, wrote_x_same .., toNat_ofNat_mod_p_lt v⟩

end Sys2Proof.Machine

namespace Sys2Proof

/-- A word whose row asks for an even `rs1` and whose `rs1` is odd is illegal (30_encoding.md R108). -/
theorem illegal_of_odd_rs1 {row : OpcodeRow} (hrow : row ∈ opcodeMap) (hextra : row.extra = .rs1Even)
    {w : Word32} (hop : w.toNat / 2 ^ 26 = row.op) (hodd : w.toNat / 2 ^ 20 % 2 = 1) :
    ∃ e, decode w = .error e := by
  refine illegal_of_extra hrow hop ?_
  simpa [hextra, ExtraCondition.holds, bits] using hodd

end Sys2Proof

open Sys2Proof Sys2Proof.Machine Sys2Proof.Claims

/-- Settles O33: below `2P` one conditional subtraction is the reduction. -/
theorem fredReducesOnce : Obligations.FredReducesOnce := by
  intro s rd rs1
  refine ⟨encodedBy_of_encodeNat_eq rfl rfl, fun a ha h => exec_fred_of_value rd ha h,
    fun a ha h => ?_, fun h => commit_source_unwritten h _⟩
  rw [exec_fred, State.fieldCommand_source_precond ha h]

/-- Settles O34: below `P` the sum needs at most one subtraction of `P`. -/
theorem faddAddsModP : Obligations.FaddAddsModP := by
  intro s rd rs1 rs2
  refine ⟨encodedBy_of_encodeNat_eq rfl rfl,
    fun a b ha hb => ⟨exec_fadd_of_values rd ha hb, fun h => ?_⟩,
    fun h => commit_sources_unwritten h _⟩
  rw [exec_fadd, State.fieldCommand_sources_precond ha hb h]

/-- Settles O35: the datapath adds `P` after a borrow, which is the residue of the integer `a - b`. -/
theorem fsubSubtractsModP : Obligations.FsubSubtractsModP := by
  intro s rd rs1 rs2
  refine ⟨encodedBy_of_encodeNat_eq rfl rfl,
    fun a b ha hb => ⟨fun hap hbp => ?_, fun h => ?_⟩, fun h => commit_sources_unwritten h _⟩
  · rw [exec_fsub_of_values rd ha hb hap hbp, emod_sub_toNat a.toNat hbp]
  · rw [exec_fsub, State.fieldCommand_sources_precond ha hb h]

/-- Settles O36: `P - a`, and 0 for 0. -/
theorem fnegNegatesModP : Obligations.FnegNegatesModP := by
  intro s rd rs1
  refine ⟨encodedBy_of_encodeNat_eq rfl rfl, fun a ha h => exec_fneg_of_value rd ha h,
    fun a ha h => ?_, fun h => commit_source_unwritten h _⟩
  rw [exec_fneg, State.fieldCommand_source_precond ha h]

/-- Settles O37: the CIOS rounds give the reduced number whose product with `R` is `a * b` mod `P`. -/
theorem fmulIsMontgomeryProduct : Obligations.FmulIsMontgomeryProduct := by
  intro s rd rs1 rs2 rinv hr
  refine ⟨encodedBy_of_encodeNat_eq rfl rfl,
    fun a b ha hb => ⟨exec_fmul_of_values rd hr ha hb, fun h => ?_⟩,
    fun h => commit_sources_unwritten h _⟩
  rw [exec_fmul, State.fieldCommand_sources_precond ha hb h]

/-- Settles O38: square-then-reduce and CIOS give the same reduced number. -/
theorem fsqrIsMontgomerySquare : Obligations.FsqrIsMontgomerySquare := by
  intro s rd rs1 rinv hr
  refine ⟨encodedBy_of_encodeNat_eq rfl rfl, fun a ha h => exec_fsqr_of_value rd hr ha h,
    fun a ha h => ?_, fun h => commit_source_unwritten h _, exec_fsqr_eq_fmul s rd rs1⟩
  rw [exec_fsqr, State.fieldCommand_source_precond ha h]

/-- Settles O39: on an even pair the reduction is `montReduce_spec`; an odd pair breaks the row's extra
condition. -/
theorem fmredReducesPair : Obligations.FmredReducesPair := by
  intro s rd rs1 hi rinv hr
  refine ⟨fun hpair => encodedBy_of_encodeNat_eq ((Reg.isPair_iff rs1).2 hpair) rfl,
    fun a b hpair hhi ha hb => ?_, fun hpair hhi h => ?_, fun w hop hodd => ?_⟩
  · obtain rfl := Reg.eq_high hhi
    have hpair' := (Reg.isPair_iff rs1).2 hpair
    refine ⟨exec_fmred_of_values rd hr hpair' ha hb, fun h => ?_⟩
    rw [exec_fmred s rd hpair']
    exact State.fieldCommand_of_not_mem (Lane.sourcePair_ok ha hb) (Nat.not_lt.2 h)
  · obtain rfl := Reg.eq_high hhi
    rw [exec_fmred s rd ((Reg.isPair_iff rs1).2 hpair),
      State.fieldCommand_unread (Lane.sourcePair_error h)]
  · exact illegal_of_odd_rs1 (row := ⟨"FMRED", 0x38000000#32, 0xFC0FFFFF#32, .rs1Even⟩) (by decide)
      rfl hop hodd

/-- Settles O40: TOMONT multiplies by `R2`, FROMMONT reduces the zero-extended value. -/
theorem montgomeryConversions : Obligations.MontgomeryConversions := by
  intro s rd rs1 rinv hr
  refine ⟨encodedBy_of_encodeNat_eq rfl rfl, encodedBy_of_encodeNat_eq rfl rfl,
    fun a ha h => ⟨exec_tomont_of_value rd ha h, exec_frommont_of_value rd hr ha h⟩,
    fun a ha h => ⟨?_, ?_⟩,
    fun h => ⟨commit_source_unwritten h _, commit_source_unwritten h _⟩⟩
  · rw [exec_tomont, State.fieldCommand_source_precond ha h]
  · rw [exec_frommont, State.fieldCommand_source_precond ha h]

/-- Settles O41: `(R * a mod P) * Rinv mod P` is `a`. -/
theorem montgomeryRoundTrip : Obligations.MontgomeryRoundTrip := by
  intro s r0 r1 r2 a ha h
  obtain ⟨rinv, hr⟩ := exists_isRinv
  refine ⟨_, _, exec_tomont_of_value r1 ha h,
    exec_frommont_of_value r2 hr (wrote_x_same ..) (toNat_ofNat_mod_p_lt _), ?_⟩
  rw [wrote_x_same, toNat_ofNat_mod_p, mul_rinv_cancel hr, Nat.mod_eq_of_lt h, BitVec.ofNat_toNat,
    BitVec.setWidth_eq]

/-- Settles O42: FMUL of the two Montgomery forms is the form of the product, which FROMMONT undoes. -/
theorem montgomeryFormMultiplies : Obligations.MontgomeryFormMultiplies := by
  intro s ra rb m n rd a b ha hb hap hbp hmrb hmn
  obtain ⟨rinv, hr⟩ := exists_isRinv
  have hb' := (wrote_x_of_ne s (2 ^ 256 * a.toNat % Config.p) hmrb.symm).trans hb
  refine ⟨_, _, _, _, exec_tomont_of_value m ha hap, exec_tomont_of_value n hb' hbp,
    exec_fmul_of_values rd hr ((wrote_x_of_ne _ _ hmn).trans (wrote_x_same ..)) (wrote_x_same ..)
      (toNat_ofNat_mod_p_lt _) (toNat_ofNat_mod_p_lt _),
    exec_frommont_of_value rd hr (wrote_x_same ..) (toNat_ofNat_mod_p_lt _), ?_⟩
  rw [wrote_x_same, toNat_ofNat_mod_p, toNat_ofNat_mod_p, toNat_ofNat_mod_p,
    montgomery_form_mul hr, mul_rinv_cancel hr]

/-- Settles O43: the closed forms of FADD, FSUB and FNEG, and the symmetry of the datapaths. -/
theorem fieldLaws : Obligations.FieldLaws := by
  refine ⟨fun s r0 r1 r2 a ha h hne => ⟨?_, ?_⟩, fun s rd rs1 rs2 => ⟨?_, ?_⟩, ?_⟩
  · refine ⟨_, _, exec_fneg_of_value r1 ha h,
      exec_fadd_of_values r2 ((wrote_x_of_ne s _ hne.symm).trans ha) (wrote_x_same ..) h
        (toNat_ofNat_mod_p_lt _), ?_⟩
    rw [wrote_x_same, toNat_ofNat_mod_p, Nat.add_mod_mod, Nat.add_sub_of_le h.le, Nat.mod_self]
    rfl
  · refine ⟨_, exec_fsub_of_values r2 ha ha h h, ?_⟩
    rw [wrote_x_same, Nat.add_sub_cancel_left, Nat.mod_self]
    rfl
  · exact State.fieldCommand_sources_comm s rd rs1 rs2 fun a b => fieldAdd_comm
  · exact State.fieldCommand_sources_comm s rd rs1 rs2 fun a b => montMul_comm
  · intro s ra rb rc r1 r2 a b c ha hb hc hap hbp hcp hrc hra
    refine ⟨_, _, _, _, exec_fadd_of_values r1 ha hb hap hbp,
      exec_fadd_of_values r1 (wrote_x_same ..) ((wrote_x_of_ne s _ hrc.symm).trans hc)
        (toNat_ofNat_mod_p_lt _) hcp,
      exec_fadd_of_values r2 hb hc hbp hcp,
      exec_fadd_of_values r2 ((wrote_x_of_ne s _ hra.symm).trans ha) (wrote_x_same ..) hap
        (toNat_ofNat_mod_p_lt _), ?_⟩
    rw [wrote_x_same, wrote_x_same, toNat_ofNat_mod_p, toNat_ofNat_mod_p, Nat.mod_add_mod,
      Nat.add_mod_mod, Nat.add_assoc]

/-- Settles O44: every closed form is a residue mod `P`. -/
theorem fieldResultsBelowP : Obligations.FieldResultsBelowP := by
  obtain ⟨rinv, hr⟩ := exists_isRinv
  refine ⟨fun s rd rs1 rs2 a b ha hb hap hbp i hi => ?_,
    fun s rd rs1 a ha h => result_lt_p (exec_fred_of_value rd ha h),
    fun s rd rs1 hi a b hpair hhi ha hb h => ?_⟩
  · simp only [List.mem_cons, List.not_mem_nil, or_false] at hi
    rcases hi with rfl | rfl | rfl | rfl | rfl | rfl | rfl
    · exact result_lt_p (exec_fadd_of_values rd ha hb hap hbp)
    · exact result_lt_p (exec_fsub_of_values rd ha hb hap hbp)
    · exact result_lt_p (exec_fneg_of_value rd ha hap)
    · exact result_lt_p (exec_fmul_of_values rd hr ha hb hap hbp)
    · exact result_lt_p (exec_fsqr_of_value rd hr ha hap)
    · exact result_lt_p (exec_tomont_of_value rd ha hap)
    · exact result_lt_p (exec_frommont_of_value rd hr ha hap)
  · obtain rfl := Reg.eq_high hhi
    exact result_lt_p (exec_fmred_of_values rd hr ((Reg.isPair_iff rs1).2 hpair) ha hb h)

end

section
/-! The Mersenne commands (42_m31.md R180 to R184). They are field commands over Q31, so what such a
command shares with the BN254 ones stands there (`State.fieldCommand`). -/

namespace Sys2Proof.Machine

open Config Claims

/-! ### Each command as a field command -/

/-- The domain of MADD and MMUL (60_exceptions.md R244). -/
abbrev BothBelowQ31 (v : Nat × Nat) : Prop := v.1 < q31 ∧ v.2 < q31

theorem not_bothBelowQ31 {v : Nat × Nat} (h : q31 ≤ v.1 ∨ q31 ≤ v.2) : ¬ BothBelowQ31 v :=
  fun hv => h.elim (Nat.not_le.2 hv.1) (Nat.not_le.2 hv.2)

section
variable (s : State) (rd rs1 rs2 : Reg)

theorem exec_mred : exec (.mred rd rs1) s =
    s.fieldCommand rd (s.lane.source rs1) (· < 2 ^ 32) mersenneReduce := rfl

theorem exec_madd : exec (.madd rd rs1 rs2) s =
    s.fieldCommand rd (s.lane.sources rs1 rs2) BothBelowQ31 fun v => mersenneAdd v.1 v.2 := rfl

theorem exec_mmul : exec (.mmul rd rs1 rs2) s =
    s.fieldCommand rd (s.lane.sources rs1 rs2) BothBelowQ31 fun v => mersenneMul v.1 v.2 := rfl

end

/-! ### What each command gives in its domain -/

section
variable {s : State} (rd : Reg) {rs1 rs2 : Reg} {a b : Word256} (ha : s.lane.x[rs1] = some a)
include ha

theorem exec_mred_of_value (h : a.toNat < 2 ^ 32) :
    exec (.mred rd rs1) s = .next (wrote s rd (a.toNat % q31)) := by
  rw [exec_mred, State.fieldCommand_of_mem (Lane.source_ok ha) h, mersenneReduce_spec h]

variable (hb : s.lane.x[rs2] = some b)
include hb

theorem exec_madd_of_values (haq : a.toNat < q31) (hbq : b.toNat < q31) :
    exec (.madd rd rs1 rs2) s = .next (wrote s rd ((a.toNat + b.toNat) % q31)) := by
  rw [exec_madd, State.fieldCommand_of_mem (Lane.sources_ok ha hb) ⟨haq, hbq⟩,
    mersenneAdd_spec haq hbq]

theorem exec_mmul_of_values (haq : a.toNat < q31) (hbq : b.toNat < q31) :
    exec (.mmul rd rs1 rs2) s = .next (wrote s rd (a.toNat * b.toNat % q31)) := by
  rw [exec_mmul, State.fieldCommand_of_mem (Lane.sources_ok ha hb) ⟨haq, hbq⟩,
    mersenneMul_spec haq hbq]

end

/-! ### The order of the operands -/

theorem Lane.sources_swap (l : Lane) (rs1 rs2 : Reg) :
    l.sources rs2 rs1 = (l.sources rs1 rs2).map Prod.swap := by
  by_cases hnone : l.x[rs1] = none ∨ l.x[rs2] = none
  · rw [Lane.sources_error hnone, Lane.sources_error hnone.symm]
    rfl
  · obtain ⟨h1, h2⟩ := not_or.1 hnone
    obtain ⟨a, ha⟩ := Option.ne_none_iff_exists'.1 h1
    obtain ⟨b, hb⟩ := Option.ne_none_iff_exists'.1 h2
    rw [Lane.sources_ok ha hb, Lane.sources_ok hb ha]
    rfl

/-- A domain and a datapath that do not see the order of two operands make a command that does not,
faults included. -/
theorem State.fieldCommand_sources_swap (s : State) (rd rs1 rs2 : Reg) {D : Nat × Nat → Prop}
    [DecidablePred D] {g : Nat × Nat → Nat} (hD : ∀ v, D v.swap ↔ D v) (hg : ∀ v, g v.swap = g v) :
    s.fieldCommand rd (s.lane.sources rs1 rs2) D g =
      s.fieldCommand rd (s.lane.sources rs2 rs1) D g := by
  rw [Lane.sources_swap s.lane rs1 rs2]
  cases s.lane.sources rs1 rs2 with
  | error c => rfl
  | ok v =>
    simp only [State.fieldCommand, Except.map, Except.ok_bind_eq, hg, decide_eq_decide.2 (hD v)]

theorem mersenneAdd_comm (a b : Nat) : mersenneAdd a b = mersenneAdd b a := by
  rw [mersenneAdd, mersenneAdd, Nat.add_comm]

theorem mersenneMul_comm (a b : Nat) : mersenneMul a b = mersenneMul b a := by
  rw [mersenneMul, mersenneMul, Nat.mul_comm]

/-! ### Residues mod Q31 -/

/-- Q31 is prime (42_m31.md R184), by the Lucas-Lehmer test of its exponent 31. -/
theorem q31_prime : q31.Prime := lucas_lehmer_sufficiency 31 (by decide) (by norm_num)

theorem mul_mod_q31_ne_zero {a b : Nat} (ha : a < q31) (hb : b < q31) (ha' : 0 < a) (hb' : 0 < b) :
    a * b % q31 ≠ 0 := fun h =>
  (q31_prime.dvd_mul.1 (Nat.dvd_of_mod_eq_zero h)).elim
    (Nat.not_dvd_of_pos_of_lt ha' ha)
    (Nat.not_dvd_of_pos_of_lt hb' hb)

/-- A residue mod Q31 fits a register. -/
theorem toNat_ofNat_mod_q31 (v : Nat) : (BitVec.ofNat 256 (v % q31)).toNat = v % q31 :=
  Nat.mod_eq_of_lt ((Nat.mod_lt v q31_prime.pos).trans (by decide))

theorem toNat_ofNat_mod_q31_lt (v : Nat) : (BitVec.ofNat 256 (v % q31)).toNat < q31 :=
  (toNat_ofNat_mod_q31 v).trans_lt (Nat.mod_lt v q31_prime.pos)

/-- A command that writes a residue mod Q31 gives a value below Q31 (42_m31.md R184). -/
theorem result_lt_q31 {i : Instr} {s : State} {rd : Reg} {v : Nat}
    (h : exec i s = .next (wrote s rd (v % q31))) :
    ∃ t c, exec i s = .next t ∧ t.lane.x[rd] = some c ∧ c.toNat < q31 :=
  ⟨_, _, h, wrote_x_same .., toNat_ofNat_mod_q31_lt v⟩

end Sys2Proof.Machine

open Sys2Proof Sys2Proof.Machine Sys2Proof.Claims

/-- Settles O45: below `2^32` the shift-add with one conditional subtraction is the reduction. -/
theorem mredReducesModQ31 : Obligations.MredReducesModQ31 := by
  intro s rd rs1
  refine ⟨encodedBy_of_encodeNat_eq rfl rfl, fun a ha h => exec_mred_of_value rd ha h,
    fun a ha h => ?_, fun h => commit_source_unwritten h _⟩
  rw [exec_mred, State.fieldCommand_source_precond ha h]

/-- Settles O46: a sum of two operands below Q31 is in the reduction's range. -/
theorem maddAddsModQ31 : Obligations.MaddAddsModQ31 := by
  intro s rd rs1 rs2
  refine ⟨encodedBy_of_encodeNat_eq rfl rfl,
    fun a b ha hb => ⟨exec_madd_of_values rd ha hb, fun h => ?_⟩,
    fun h => commit_sources_unwritten h _⟩
  rw [exec_madd, State.fieldCommand_of_not_mem (Lane.sources_ok ha hb) (not_bothBelowQ31 h)]

/-- Settles O47: the chunks sum to the product mod Q31, and two reductions make it a residue. -/
theorem mmulMultipliesModQ31 : Obligations.MmulMultipliesModQ31 := by
  intro s rd rs1 rs2
  refine ⟨encodedBy_of_encodeNat_eq rfl rfl,
    fun a b ha hb => ⟨exec_mmul_of_values rd ha hb, fun h => ?_⟩,
    fun h => commit_sources_unwritten h _⟩
  rw [exec_mmul, State.fieldCommand_of_not_mem (Lane.sources_ok ha hb) (not_bothBelowQ31 h)]

/-- Settles O48: the closed forms are residues mod Q31, the datapaths see only the sum and the
product, and Q31 is prime. -/
theorem mersenneLaws : Obligations.MersenneLaws := by
  refine ⟨fun s rd rs1 a ha h => result_lt_q31 (exec_mred_of_value rd ha h),
    fun s rd rs1 rs2 a b ha hb haq hbq =>
      ⟨result_lt_q31 (exec_madd_of_values rd ha hb haq hbq), ?_⟩,
    fun s rd rs1 rs2 => ⟨?_, ?_⟩, ?_⟩
  · refine ⟨_, _, exec_mmul_of_values rd ha hb haq hbq, wrote_x_same .., toNat_ofNat_mod_q31_lt _,
      fun ha0 hb0 hc => ?_⟩
    have hne := mul_mod_q31_ne_zero haq hbq (BitVec.toNat_pos_of_ne_zero ha0)
      (BitVec.toNat_pos_of_ne_zero hb0)
    exact hne ((toNat_ofNat_mod_q31 _).symm.trans (congrArg BitVec.toNat hc))
  · exact State.fieldCommand_sources_swap s rd rs1 rs2 (fun _ => and_comm)
      fun _ => mersenneAdd_comm _ _
  · exact State.fieldCommand_sources_swap s rd rs1 rs2 (fun _ => and_comm)
      fun _ => mersenneMul_comm _ _
  · intro s ra rb rc r1 r2 a b c ha hb hc haq hbq hcq hrc hra
    refine ⟨_, _, _, _, exec_madd_of_values r1 ha hb haq hbq,
      exec_madd_of_values r1 (wrote_x_same ..) ((wrote_x_of_ne s _ hrc.symm).trans hc)
        (toNat_ofNat_mod_q31_lt _) hcq,
      exec_madd_of_values r2 hb hc hbq hcq,
      exec_madd_of_values r2 ((wrote_x_of_ne s _ hra.symm).trans ha) (wrote_x_same ..) haq
        (toNat_ofNat_mod_q31_lt _), ?_⟩
    rw [wrote_x_same, wrote_x_same, toNat_ofNat_mod_q31, toNat_ofNat_mod_q31, Nat.mod_add_mod,
      Nat.add_mod_mod, Nat.add_assoc]

end

section
/-! The data movement commands (43_datamove.md R190 to R202). They have no domain: a command reads
its operands, if any, and writes one register. -/

namespace Sys2Proof.Machine

open Claims

/-! ### What the commands share -/

section
variable {s : State} {rs1 rs2 : Reg} {a b : Word256} (rd : Reg)

/-- A command without a domain writes what it makes of its one source (43_datamove.md R190). -/
theorem commit_source_result (ha : s.lane.x[rs1] = some a) (g : Nat → Nat) :
    s.commit (s.lane.source rs1 >>= fun v => .ok (s.lane.result rd (g v))) =
      .next (wrote s rd (g a.toNat)) := by
  rw [Lane.source_ok ha, Except.ok_bind_eq]
  rfl

/-- A command without a domain writes what it makes of its two sources (43_datamove.md R190). -/
theorem commit_sources_result (ha : s.lane.x[rs1] = some a) (hb : s.lane.x[rs2] = some b)
    (g : Nat → Nat → Nat) :
    s.commit (s.lane.sources rs1 rs2 >>= fun v => .ok (s.lane.result rd (g v.1 v.2))) =
      .next (wrote s rd (g a.toNat b.toNat)) := by
  rw [Lane.sources_ok ha hb, Except.ok_bind_eq]
  rfl

end

/-- The low bits of a value are a residue (00_scope.md R11). -/
theorem bits_zero_eq_mod (v hi : Nat) : bits v hi 0 = v % 2 ^ (hi + 1) := by
  rw [bits, pow_zero, Nat.div_one, Nat.sub_zero]

/-! ### The commands with sources -/

section
variable {s : State} {rs1 rs2 : Reg} {a b : Word256} (rd : Reg) (ha : s.lane.x[rs1] = some a)
include ha

theorem exec_mov_of_value : exec (.mov rd rs1) s = .next (wrote s rd a.toNat) :=
  commit_source_result rd ha fun v => v

theorem exec_lowb_of_value : exec (.lowb rd rs1) s = .next (wrote s rd (a.toNat % 256)) := by
  have hlow : a.toNat % 256 = bits a.toNat 7 0 := (bits_zero_eq_mod _ 7).symm
  rw [hlow]
  exact commit_source_result rd ha fun v => bits v 7 0

theorem exec_zguard_of_value :
    exec (.zguard rd rs1) s = .next (wrote s rd (if a.toNat = 0 then 1 else a.toNat)) :=
  commit_source_result rd ha fun v => if v = 0 then 1 else v

theorem exec_xfold_of_value : exec (.xfold rd rs1) s = .next (wrote s rd (foldLimbs a.toNat)) :=
  commit_source_result rd ha foldLimbs

variable (hb : s.lane.x[rs2] = some b)
include hb

theorem exec_xor_of_values : exec (.xor rd rs1 rs2) s = .next (wrote s rd (a ^^^ b).toNat) := by
  rw [BitVec.toNat_xor]
  exact commit_sources_result rd ha hb (· ^^^ ·)

theorem exec_mul32_of_values : exec (.mul32 rd rs1 rs2) s =
    .next (wrote s rd (a.toNat % 2 ^ 32 * (b.toNat % 2 ^ 32) % 2 ^ 32)) := by
  have hlow (v : Nat) : v % 2 ^ 32 = bits v 31 0 := (bits_zero_eq_mod v 31).symm
  rw [hlow a.toNat, hlow b.toNat]
  exact commit_sources_result rd ha hb fun v w => bits v 31 0 * bits w 31 0 % 2 ^ 32

end

/-! ### The commands without sources -/

section
variable (s : State) (rd : Reg)

theorem exec_rdf : exec (.rdf rd) s = .next (wrote s rd s.lane.flagWord) := rfl

theorem exec_ldi (j : Fin 16) (imm16 : BitVec 16) :
    exec (.ldi rd j imm16) s = .next (wrote s rd (limbImmediate j imm16)) := rfl

theorem exec_ldk_of_rom {k4 : Fin 16} {c : Nat} (h : Config.rom k4.val = some c) :
    exec (.ldk rd k4) s = .next (wrote s rd c) := by
  rw [exec, execLdk, h]
  rfl

theorem exec_ldin (off4 : Fin 16) : exec (.ldin rd off4) s =
    .next (wrote s rd (s.shared.inputWord (s.lane.tid.toNat + off4.val)).toNat) := rfl

theorem exec_ldtid : exec (.ldtid rd) s = .next (wrote s rd s.lane.tid.toNat) := rfl

theorem exec_ldseed : exec (.ldseed rd) s = .next (wrote s rd s.shared.seed.toNat) := rfl

end

/-- INPUT is read modulo its 16 words (20_memory.md R71). -/
theorem Shared.inputWord_of_mod_eq (sh : Shared) {i k : Nat} (hk : k < 16) (h : i % 16 = k) :
    sh.inputWord i = sh.input[k] := by
  subst h
  rfl

end Sys2Proof.Machine

open Sys2Proof Sys2Proof.Machine Sys2Proof.Claims

/-- Settles O50: the exclusive or of the numbers is that of the 256-bit values, and bits 31..0 of
both factors are all that the product sees. -/
theorem xorAndMul32 : Obligations.XorAndMul32 := by
  intro s rd rs1 rs2
  exact ⟨encodedBy_of_encodeNat_eq rfl rfl, encodedBy_of_encodeNat_eq rfl rfl,
    fun a b ha hb => ⟨exec_xor_of_values rd ha hb, exec_mul32_of_values rd ha hb⟩,
    fun h => ⟨commit_sources_unwritten h _, commit_sources_unwritten h _⟩⟩

/-- Settles O51: the fold over the limbs, which stays below `2^16` because every limb is. -/
theorem xfoldXorsTheLimbs : Obligations.XfoldXorsTheLimbs := by
  intro s rd rs1
  refine ⟨encodedBy_of_encodeNat_eq rfl rfl,
    fun a ha => ⟨foldLimbs a.toNat, foldLimbs_lt _, exec_xfold_of_value rd ha, ?_⟩,
    fun h => commit_source_unwritten h _⟩
  rw [foldLimbs_eq, List.foldl_map]

/-- Settles O53: the ROM gives each of the four constants, and LDK's row of the opcode map refuses
an index above 3. -/
theorem immediatesAndConstants : Obligations.ImmediatesAndConstants := by
  intro s rd
  refine ⟨fun j imm => ⟨encodedBy_of_encodeNat_eq rfl rfl, exec_ldi s rd j imm⟩,
    fun k hk => encodedBy_of_encodeNat_eq (decide_eq_true hk) rfl,
    exec_ldk_of_rom s rd rfl, exec_ldk_of_rom s rd rfl, exec_ldk_of_rom s rd rfl,
    exec_ldk_of_rom s rd rfl, fun w hop hk => ?_⟩
  exact illegal_of_extra (row := ⟨"LDK", 0x84000000#32, 0xFC07FFFF#32, .k4AtMost3⟩) (by decide)
    hop (decide_eq_false (Nat.not_le.2 hk))

/-- Settles O49: each of the three writes a function of its one source. -/
theorem oneSourceMoves : Obligations.OneSourceMoves := by
  intro s rd rs1
  exact ⟨encodedBy_of_encodeNat_eq rfl rfl, encodedBy_of_encodeNat_eq rfl rfl,
    encodedBy_of_encodeNat_eq rfl rfl,
    fun a ha =>
      ⟨exec_mov_of_value rd ha, exec_lowb_of_value rd ha, exec_zguard_of_value rd ha⟩,
    fun h => ⟨commit_source_unwritten h _, commit_source_unwritten h _,
      commit_source_unwritten h _⟩⟩

/-- Settles O52: `flagWord` by the three codes of CMPF and the two values of CF. -/
theorem rdfReadsFlags : Obligations.RdfReadsFlags := by
  intro s rd
  refine ⟨encodedBy_of_encodeNat_eq rfl rfl, ?_⟩
  rw [exec_rdf, Lane.flagWord]
  cases s.lane.cmpf <;> cases s.lane.cf <;> rfl

/-- Settles O54: the index wraps at the 16 words of INPUT. -/
theorem ldinReadsPermutedInput : Obligations.LdinReadsPermutedInput := by
  intro s rd off4 k hk
  refine ⟨encodedBy_of_encodeNat_eq rfl rfl, fun h => ?_⟩
  rw [exec_ldin, Shared.inputWord_of_mod_eq s.shared hk h]

/-- Settles O55: TID and PARAMS[1] as they stand. -/
theorem threadIdAndSeed : Obligations.ThreadIdAndSeed := by
  intro s rd
  exact ⟨encodedBy_of_encodeNat_eq rfl rfl, encodedBy_of_encodeNat_eq rfl rfl, exec_ldtid s rd,
    exec_ldseed s rd⟩

end

section
/-! The loop controller (44_loop_control.md R210 to R215): the branch target as a residue,
the word of OUTBUF that belongs to the lane in front, and the two ways of each command that has a
check. -/

namespace Sys2Proof.Machine

open Claims

/-! ### Branch targets -/

/-- `sext_16` by the sign bit as an order (00_scope.md R12). -/
theorem sext16_eq_ite (off : BitVec 16) : sext16 off =
    if off.toNat < 2 ^ 15 then (off.toNat : Int) else (off.toNat : Int) - 2 ^ 16 := by
  have hlt := off.isLt
  have hsign : bits off.toNat 15 15 = 0 ↔ off.toNat < 2 ^ 15 := by
    rw [bits]
    omega
  simp only [sext16, hsign]
  rfl

/-- A branch lands on `(pc + sext_16(off16)) mod 2^16` (10_state.md R35). -/
theorem Lane.branch_pc_toNat (l : Lane) (off : BitVec 16) :
    ((l.branch off).pc.toNat : Int) = ((l.pc.toNat : Int) +
      (if off.toNat < 2 ^ 15 then (off.toNat : Int) else (off.toNat : Int) - 2 ^ 16)) % 2 ^ 16 := by
  rw [Lane.branch_pc, BitVec.toNat_ofInt, sext16_eq_ite]
  exact Int.toNat_of_nonneg (Int.emod_nonneg _ (by decide))

/-! ### The OUTBUF word of the lane in front -/

/-- In a numbered block the thread id of the lane in front is how many lanes stand below it
(10_state.md R43). -/
theorem State.LanesNumbered.tid_lane {s : State} (h : s.LanesNumbered) :
    s.lane.tid.toNat = s.before.length := by
  obtain ⟨hmax, htids⟩ := h
  have hlt : s.before.length < s.nLanes := by simp [State.nLanes, State.lanes]
  have htid : s.lane.tid = BitVec.ofNat 32 s.before.length := by
    have hk := congrArg (·[s.before.length]?) htids
    simpa [State.getElem?_lanes_before, hlt] using hk
  rw [htid, BitVec.toNat_ofNat]
  exact Nat.mod_eq_of_lt (hlt.trans_le hmax)

/-- In a numbered block, replacing the lane in front replaces the one OUTBUF word whose index is
that lane's TID (20_memory.md R73). -/
theorem State.LanesNumbered.memRead_outbuf_setLane {s : State} (h : s.LanesNumbered) (l : Lane)
    (k : Nat) : ({ s with lane := l } : State).memRead .outbuf k =
      if k = s.lane.tid.toNat then l.out else s.memRead .outbuf k := by
  rw [h.tid_lane, State.memRead_outbuf, State.memRead_outbuf]
  split
  next hk =>
    have hfront := ({ s with lane := l } : State).getElem?_lanes_before
    rw [hk, hfront, Option.bind_some]
  next hk => rw [State.getElem?_lanes_setLane s l hk]

/-! ### What each command does -/

theorem exec_ldlc (s : State) : exec .ldlc s =
    .next { s with lane := { s.lane with lc := s.shared.params[0], pc := s.lane.pc + 1 } } := rfl

theorem exec_jmp (s : State) (off : BitVec 16) :
    exec (.jmp off) s = .next { s with lane := s.lane.branch off } := rfl

section
variable {s : State} {rs1 : Reg} {a : Word256}

theorem exec_stout_of_not_outw (ha : s.lane.x[rs1] = some a) (hw : s.lane.outw = false) :
    exec (.stout rs1) s = .next
      { s with
        lane :=
          { s.lane with
            out := some (BitVec.ofNat 32 (a.toNat % 2 ^ 32)), outw := true
            pc := s.lane.pc + 1 } } := by
  show execStout rs1 s = _
  rw [execStout, Lane.source_ok ha, Except.ok_bind_eq, hw, bits_zero_eq_mod]
  rfl

theorem exec_stout_of_outw (ha : s.lane.x[rs1] = some a) (hw : s.lane.outw = true) :
    exec (.stout rs1) s = .next (faulted s .outTwice) := by
  show execStout rs1 s = _
  rw [execStout, Lane.source_ok ha, Except.ok_bind_eq, hw]
  rfl

theorem exec_halt_of_outw (hw : s.lane.outw = true) :
    exec .halt s = .next { s with lane := { s.lane with state := .done } } := by
  show execHalt s = _
  rw [execHalt, hw]
  rfl

theorem exec_halt_of_not_outw (hw : s.lane.outw = false) :
    exec .halt s = .next (faulted s .noOutput) := by
  show execHalt s = _
  rw [execHalt, hw]
  rfl

end

end Sys2Proof.Machine

open Sys2Proof Sys2Proof.Machine

/-- Settles O57: the branch target is the residue, and a count that is not 0 goes down by one
without a wrap. -/
theorem lcbzExitsAtZeroElseCountsDown : Obligations.LcbzExitsAtZeroElseCountsDown := by
  intro s off
  refine ⟨encodedBy_of_encodeNat_eq rfl rfl,
    fun h => ⟨_, exec_lcbz_of_zero off h, s.lane.branch_pc_toNat off⟩,
    fun h => ⟨_, exec_lcbz_of_ne_zero off h, ?_⟩⟩
  bv_omega

/-- Settles O59: the word that STOUT writes is the OUT register of the lane in front, which in a
numbered block is the OUTBUF word of index TID. -/
theorem stoutWritesOutputWord : Obligations.StoutWritesOutputWord := by
  intro s rs1
  exact ⟨encodedBy_of_encodeNat_eq rfl rfl,
    fun a ha hw => ⟨_, exec_stout_of_not_outw ha hw, rfl,
      fun hnum k _ => hnum.memRead_outbuf_setLane _ k⟩,
    fun a ha hw => exec_stout_of_outw ha hw, fun h => commit_source_unwritten h _⟩

/-- Settles O56: LDLC has no check, and what it loads is the iteration count. -/
theorem ldlcLoadsIterations : Obligations.LdlcLoadsIterations :=
  ⟨encodedBy_of_encodeNat_eq rfl rfl, exec_ldlc⟩

/-- Settles O58: JMP is the branch of LCBZ without its condition. -/
theorem jmpIsRelative : Obligations.JmpIsRelative := by
  intro s off
  exact ⟨encodedBy_of_encodeNat_eq rfl rfl, _, exec_jmp s off, s.lane.branch_pc_toNat off⟩

/-- Settles O60: HALT's one check is OUTW, and a lane in DONE is not in RUN, so no step moves it. -/
theorem haltFinishesTheLane : Obligations.HaltFinishesTheLane := by
  refine ⟨encodedBy_of_encodeNat_eq rfl rfl,
    fun s => ⟨fun hw => exec_halt_of_outw hw, fun hw => exec_halt_of_not_outw hw⟩,
    fun s t k l h hk hdone => onlyRunningLanesMove s t k l h hk ?_⟩
  rw [hdone]
  decide

end

section
/-! The exceptions (60_exceptions.md R240 to R248): the two faults before a command runs, the frame
of a fault, and the checks of a command in their order. Every command reads its operands, checks
their domain, checks the output protocol and then completes (R246): `State.FaultsInOrder` says so of
an outcome, and `State.faultsInOrder_commit` derives it from the two halves of a
command's meaning. -/

namespace Sys2Proof.Machine

open Config Claims

/-! ### Before a command runs -/

section
variable {s : State}

theorem State.fetchInstr_of_no_word (h : s.shared.imemWords ≤ s.lane.pc.toNat) :
    s.fetchInstr = .error .fetchOob := by
  rw [State.fetchInstr, Shared.imemWord, if_neg (Nat.not_lt.2 h)]

theorem State.fetchInstr_of_illegal {e : DecodeError} (h : s.lane.pc.toNat < s.shared.imemWords)
    (he : decode (s.shared.imem.readWord s.lane.pc.toNat) = .error e) :
    s.fetchInstr = .error .illegalInsn := by
  simp only [State.fetchInstr, Shared.imemWord, if_pos h, he]

theorem State.stepFront_of_fetch_error {c : Cause} (h : s.fetchInstr = .error c) :
    s.stepFront = .next (faulted s c) := by
  rw [State.stepFront, h]
  rfl

/-- A lane in RUN whose step leaves it FAULTED raised a fault: a command that completes leaves its
lane in RUN or in DONE. -/
theorem State.stepFront_faulted {u : State} (hrun : s.lane.state = .run)
    (h : s.stepFront = .next u) (hu : u.lane.state = .faulted) : ∃ c, u = faulted s c := by
  rcases State.stepFront_lane h with ⟨c, rfl⟩ | ⟨l, rfl, -, -, -, hstate⟩
  · exact ⟨c, rfl⟩
  · replace hu : l.state = .faulted := hu
    simp [hu, hrun] at hstate

end

/-! ### The checks of a command, in their order -/

/-- `m` reads the registers `rs` of the lane in front: it gives `v` when all of them hold a value,
and UNWRITTEN_REG otherwise (60_exceptions.md R243 (b)). -/
structure State.ReadsAs {α : Type} (s : State) (rs : List Reg) (m : Except Cause α) (v : α) :
    Prop where
  unwritten : (∃ n ∈ rs, s.lane.x[n] = none) → m = .error .unwrittenReg
  written : (∀ n ∈ rs, s.lane.x[n] ≠ none) → m = .ok v

/-- `l` is the lane in front after a command that raised no fault: FAULT is as before, and so is
STATE unless the lane is DONE. -/
def State.CompletesAs (s : State) (l : Lane) : Prop :=
  l.fault = s.lane.fault ∧ (l.state = s.lane.state ∨ l.state = .done)

/-- `m`, which follows the reads of a command, checks the domain `D`, then raises the
output-protocol fault `c?` if there is one, and completes otherwise (60_exceptions.md R244,
R245, R246). -/
structure State.ChecksAs (s : State) (D : Prop) (c? : Option Cause) (m : Except Cause Lane) :
    Prop where
  outside : ¬ D → m = .error .precond
  protocol : D → ∀ c, c? = some c → m = .error c
  completes : D → c? = none → ∃ l, m = .ok l ∧ s.CompletesAs l

/-- The outcome `o` of a command that reads `rs`, has the domain `D` and the output-protocol fault
`c?` is the first fault in the order of 60_exceptions.md R246, or completes. -/
def State.FaultsInOrder (s : State) (rs : List Reg) (D : Prop) (c? : Option Cause)
    (o : Host.Outcome State Fault Refusal) : Prop :=
  ((∃ n ∈ rs, s.lane.x[n] = none) → o = .next (faulted s .unwrittenReg)) ∧
    ((∀ n ∈ rs, s.lane.x[n] ≠ none) →
      (¬ D → o = .next (faulted s .precond)) ∧
        (D → (∀ c, c? = some c → o = .next (faulted s c)) ∧
          (c? = none → ∃ t, o = .next t ∧ t.lane.fault = s.lane.fault ∧
            (t.lane.state = s.lane.state ∨ t.lane.state = .done))))

section
variable {s : State} {rs : List Reg} {D : Prop} {c? : Option Cause}

/-- A command that reads its operands and then makes its checks shows its faults in order. -/
theorem State.faultsInOrder_commit {α : Type} {m : Except Cause α} {v : α}
    {f : α → Except Cause Lane} (hm : s.ReadsAs rs m v) (hf : s.ChecksAs D c? (f v)) :
    s.FaultsInOrder rs D c? (s.commit (m >>= f)) := by
  refine ⟨fun h => by rw [hm.unwritten h]; rfl, fun h => ?_⟩
  rw [hm.written h, Except.ok_bind_eq]
  refine ⟨fun hD => by rw [hf.outside hD]; rfl,
    fun hD => ⟨fun c hc => by rw [hf.protocol hD c hc]; rfl, fun hc => ?_⟩⟩
  obtain ⟨l, hl, hfault, hstate⟩ := hf.completes hD hc
  exact ⟨_, by rw [hl, State.commit_ok], hfault, hstate⟩

/-! #### The reads -/

theorem State.readsAs_nothing (s : State) : s.ReadsAs [] (.ok ()) () :=
  ⟨fun ⟨_, hn, _⟩ => (List.not_mem_nil hn).elim, fun _ => rfl⟩

/-- A register that holds a value holds `valueOf`. -/
theorem exists_value_of_ne_none {n : Reg} (h : s.lane.x[n] ≠ none) :
    ∃ a, s.lane.x[n] = some a ∧ a.toNat = valueOf s n := by
  obtain ⟨a, ha⟩ := Option.ne_none_iff_exists'.1 h
  exact ⟨a, ha, by rw [valueOf, ha]; rfl⟩

theorem State.readsAs_source (s : State) (rs1 : Reg) :
    s.ReadsAs [rs1] (s.lane.source rs1) (valueOf s rs1) := by
  constructor <;> intro h
  · exact Lane.source_error (by simpa using h)
  · obtain ⟨a, ha, hv⟩ := exists_value_of_ne_none (h rs1 (by simp))
    rw [Lane.source_ok ha, hv]

theorem State.readsAs_sources (s : State) (rs1 rs2 : Reg) :
    s.ReadsAs [rs1, rs2] (s.lane.sources rs1 rs2) (valueOf s rs1, valueOf s rs2) := by
  constructor <;> intro h
  · exact Lane.sources_error (by simpa using h)
  · obtain ⟨a, ha, hv⟩ := exists_value_of_ne_none (h rs1 (by simp))
    obtain ⟨b, hb, hw⟩ := exists_value_of_ne_none (h rs2 (by simp))
    rw [Lane.sources_ok ha hb, hv, hw]

theorem State.readsAs_sourcePair (s : State) (n : Reg) :
    s.ReadsAs [n, Reg.high n] (s.lane.sourcePair n)
      (valueOf s n + 2 ^ 256 * valueOf s (Reg.high n)) := by
  constructor <;> intro h
  · exact Lane.sourcePair_error (by simpa using h)
  · obtain ⟨a, ha, hv⟩ := exists_value_of_ne_none (h n (by simp))
    obtain ⟨b, hb, hw⟩ := exists_value_of_ne_none (h (Reg.high n) (by simp))
    rw [Lane.sourcePair_ok ha hb, hv, hw]

/-! #### The checks -/

/-- A command without a domain and without a protocol fault. -/
theorem State.checksAs_ok {l : Lane} (h : s.CompletesAs l) : s.ChecksAs True none (.ok l) :=
  ⟨fun hD => (hD trivial).elim, fun _ _ => nofun, fun _ _ => ⟨l, rfl, h⟩⟩

/-- The domain check of a field command. -/
theorem State.checksAs_domain [Decidable D] {l : Lane} (h : s.CompletesAs l) :
    s.ChecksAs D none (domain (decide D) >>= fun _ => .ok l) where
  outside hD := by rw [decide_eq_false hD]; rfl
  protocol _ _ := nofun
  completes hD _ := ⟨l, by rw [decide_eq_true hD]; rfl, h⟩

/-- The check of STOUT or HALT, which raises `c` unless `ok` holds. -/
theorem State.checksAs_require {ok : Bool} {c : Cause} {l : Lane}
    (hc? : c? = if ok then none else some c) (h : s.CompletesAs l) :
    s.ChecksAs True c? (require ok c >>= fun _ => .ok l) := by
  subst hc?
  cases ok with
  | true => exact State.checksAs_ok h
  | false =>
    refine ⟨fun hD => (hD trivial).elim, ?_, nofun⟩
    rintro _ _ ⟨⟩
    rfl

end

/-! ### The commands -/

theorem exists_rom_of_le_three : ∀ {n : Nat}, n ≤ 3 → ∃ c, Config.rom n = some c
  | 0, _ | 1, _ | 2, _ | 3, _ => ⟨_, rfl⟩

section
variable (s : State)

/-- A command that reads no register. -/
theorem State.faultsInOrder_of_checksAs {D : Prop} {c? : Option Cause} {m : Except Cause Lane}
    (hm : s.ChecksAs D c? m) : s.FaultsInOrder [] D c? (s.commit m) :=
  State.faultsInOrder_commit (f := fun _ => m) s.readsAs_nothing hm

/-- A command that reads no register and has no check. -/
theorem State.faultsInOrder_ok {l : Lane} (h : s.CompletesAs l) :
    s.FaultsInOrder [] True none (s.commit (.ok l)) :=
  s.faultsInOrder_of_checksAs (State.checksAs_ok h)

/-- A field command over the operands that `hm` names. -/
theorem State.faultsInOrder_fieldCommand {α : Type} {rs : List Reg} {m : Except Cause α} {v : α}
    (hm : s.ReadsAs rs m v) (rd : Reg) (D : α → Prop) [DecidablePred D] (g : α → Nat) :
    s.FaultsInOrder rs (D v) none (s.fieldCommand rd m D g) :=
  State.faultsInOrder_commit hm (State.checksAs_domain ⟨rfl, .inl rfl⟩)

/-- A command over one source that has no check of its own. -/
theorem State.faultsInOrder_source (rs1 : Reg) {f : Nat → Lane} (hf : ∀ v, s.CompletesAs (f v)) :
    s.FaultsInOrder [rs1] True none (s.commit (s.lane.source rs1 >>= fun v => .ok (f v))) :=
  State.faultsInOrder_commit (s.readsAs_source rs1) (State.checksAs_ok (hf _))

/-- A command over two sources that has no check of its own. -/
theorem State.faultsInOrder_sources (rs1 rs2 : Reg) {f : Nat × Nat → Lane}
    (hf : ∀ v, s.CompletesAs (f v)) :
    s.FaultsInOrder [rs1, rs2] True none
      (s.commit (s.lane.sources rs1 rs2 >>= fun v => .ok (f v))) :=
  State.faultsInOrder_commit (s.readsAs_sources rs1 rs2) (State.checksAs_ok (hf _))

/-- Every command reads what `readsOf` lists, then checks `inDomain`, then `protocolFault`. -/
theorem exec_faultsInOrder (i : Instr) (hwf : i.wellFormed = true) :
    s.FaultsInOrder (readsOf i) (inDomain i s) (protocolFault i s) (exec i s) := by
  cases i with
  | cmp rs1 rs2 | add _ rs1 rs2 | sub _ rs1 rs2 | xor _ rs1 rs2 | mul32 _ rs1 rs2 =>
    exact s.faultsInOrder_sources rs1 rs2 fun _ => ⟨rfl, .inl rfl⟩
  | mulw rd rs1 rs2 =>
    rw [exec_mulw_of_isPair hwf]
    exact s.faultsInOrder_sources rs1 rs2 fun _ => ⟨rfl, .inl rfl⟩
  | sqrw rd rs1 =>
    rw [exec_sqrw_of_isPair hwf]
    exact s.faultsInOrder_source rs1 fun _ => ⟨rfl, .inl rfl⟩
  | mov _ rs1 | lowb _ rs1 | zguard _ rs1 | xfold _ rs1 =>
    exact s.faultsInOrder_source rs1 fun _ => ⟨rfl, .inl rfl⟩
  | fred rd rs1 | fneg rd rs1 | fsqr rd rs1 | tomont rd rs1 | frommont rd rs1 | mred rd rs1 =>
    exact s.faultsInOrder_fieldCommand (s.readsAs_source rs1) rd (· < _) _
  | fadd rd rs1 rs2 | fsub rd rs1 rs2 | fmul rd rs1 rs2 =>
    exact s.faultsInOrder_fieldCommand (s.readsAs_sources rs1 rs2) rd BothBelowP _
  | madd rd rs1 rs2 | mmul rd rs1 rs2 =>
    exact s.faultsInOrder_fieldCommand (s.readsAs_sources rs1 rs2) rd BothBelowQ31 _
  | fmred rd rs1 =>
    rw [exec_fmred s rd hwf]
    exact s.faultsInOrder_fieldCommand (s.readsAs_sourcePair rs1) rd (· < p * r) _
  | ldk rd k4 =>
    obtain ⟨c, hc⟩ := exists_rom_of_le_three (of_decide_eq_true hwf)
    rw [exec_ldk_of_rom s rd hc]
    exact s.faultsInOrder_ok (l := s.lane.result rd c) ⟨rfl, .inl rfl⟩
  | lcbz off16 =>
    refine s.faultsInOrder_ok ?_
    split <;> exact ⟨rfl, .inl rfl⟩
  | rdf | ldi | ldin | ldtid | ldseed | ldlc | jmp =>
    exact s.faultsInOrder_ok ⟨rfl, .inl rfl⟩
  | stout rs1 =>
    refine State.faultsInOrder_commit (s.readsAs_source rs1)
      (State.checksAs_require ?_ ⟨rfl, .inl rfl⟩)
    rw [protocolFault]
    cases s.lane.outw <;> rfl
  | halt =>
    exact s.faultsInOrder_of_checksAs (State.checksAs_require rfl ⟨rfl, .inr rfl⟩)

end

end Sys2Proof.Machine

open Sys2Proof Sys2Proof.Machine Sys2Proof.Claims

/-- Settles O9: the order of the checks is the order of a command's meaning, reads first. -/
theorem commandFaultsInOrder : Obligations.CommandFaultsInOrder :=
  fun i s hwf => exec_faultsInOrder s i hwf

/-- Settles O8: the lane that moves was in RUN, so only a fault can leave it FAULTED; and a FAULTED
lane is not in RUN, so no step moves it. -/
theorem faultIsPreciseAndFinal : Obligations.FaultIsPreciseAndFinal := by
  refine ⟨fun s t u hselect h hu => ?_,
    fun s u k l h hk hfaulted => onlyRunningLanesMove s u k l h hk ?_⟩
  · obtain ⟨-, -, -, hrun, -⟩ := State.select_spec hselect
    rw [step_of_select hselect] at h
    exact State.stepFront_faulted ((Lane.running_iff _).1 hrun) h hu
  · rw [hfaulted]
    decide

/-- Settles O6: the fetch answers the fault, and the step raises it before any command runs. -/
theorem fetchAndDecodeFaults : Obligations.FetchAndDecodeFaults := by
  refine ⟨fun s t hselect hpc => ?_, fun s t w e hselect hpc hw he => ?_⟩
  · rw [step_of_select hselect, State.stepFront_of_fetch_error (State.fetchInstr_of_no_word hpc)]
  · subst hw
    rw [step_of_select hselect, State.stepFront_of_fetch_error (State.fetchInstr_of_illegal hpc he)]

end

section
/-! Reset, launch and the choice of the lane that steps (70_reset_and_hazards.md R270 to R273, R280):
reset is a launch over empty shared spaces, a launch asks for the end of a run and R9's bounds, and the
lane in front stays there while it is in RUN and no schedule names another. -/

namespace Sys2Proof.Machine

/-! ### Reset and launch -/

/-- IMEM_WORDS is R9's upper bound, and an IMEM that lists no byte is canonical and within it. -/
theorem Shared.reset_consistent : Shared.reset.Consistent := by
  refine ⟨by decide, le_refl Config.maxImemWords, by decide, ?_⟩
  intro c hc
  exact absurd hc List.not_mem_nil

section
variable {s : State} {n : Nat} (sched : List Nat)

theorem State.hostLaunch_of_runEnded (hend : s.runEnded = true) (hn : 1 ≤ n)
    (hmax : n ≤ Config.maxLanes) :
    s.hostLaunch n sched = some (State.launch n s.shared sched) :=
  if_pos ⟨hend, hn, hmax⟩

theorem State.hostLaunch_of_not_runEnded (hend : s.runEnded = false) :
    s.hostLaunch n sched = none :=
  if_neg fun ⟨h, _, _⟩ => Bool.eq_false_iff.1 hend h

end

theorem State.runEnded_eq_false_iff (s : State) :
    s.runEnded = false ↔ ∃ l ∈ s.lanes, l.state = .run := by
  simp [← Bool.not_eq_true, State.runEnded_iff]

theorem State.mem_launch_lanes {n : Nat} (hn : 1 ≤ n) {sh : Shared} {sched : List Nat} {l : Lane} :
    l ∈ (State.launch n sh sched).lanes ↔ ∃ k < n, l = Lane.launch (BitVec.ofNat 32 k) := by
  simp [State.launch_lanes hn, eq_comm]

/-! ### The lane in front -/

section
variable {s : State}

/-- The lane in front is already where it would be brought. -/
theorem State.focus_front (s : State) : s.focus s.before.length = some s := by
  simp [State.focus, State.lanes]

theorem State.select_front (hsched : s.sched = []) (hrun : s.lane.running = true) :
    s.select = some s := by
  have hnext : s.nextLane = some s.before.length := by
    simp [State.nextLane, State.defaultLane, hsched, hrun]
  have hkeep : ({ s with sched := s.sched.tail } : State) = s := by
    rw [hsched, List.tail_nil, ← hsched]
  simp only [State.select, hnext, hkeep]
  exact s.focus_front

theorem State.fetchInstr_of_decode {w : Word32} {i : Instr}
    (hw : s.shared.imemWord s.lane.pc.toNat = some w) (hi : decode w = .ok i) :
    s.fetchInstr = .ok i := by
  simp only [State.fetchInstr, hw, hi]

theorem State.stepFront_of_fetch {i : Instr} (h : s.fetchInstr = .ok i) :
    s.stepFront = exec i s := by
  rw [State.stepFront, h]

end

end Sys2Proof.Machine

open Sys2Proof.Machine

/-- Settles O19: the host's launch is the machine's launch over the shared spaces as they stand, and it
is refused while a lane is in RUN. -/
theorem relaunchKeepsOnlySharedSpaces : Obligations.RelaunchKeepsOnlySharedSpaces := by
  intro s n sched hn hmax
  refine ⟨fun hend => ?_, fun hrun =>
    State.hostLaunch_of_not_runEnded sched ((State.runEnded_eq_false_iff s).2 hrun)⟩
  refine ⟨_, State.hostLaunch_of_runEnded sched ((State.runEnded_iff s).2 hend) hn hmax, rfl, ?_,
    fun l => (State.mem_launch_lanes hn).1⟩
  rw [State.launch_lanes_length, max_eq_left hn]

/-- Settles O5: the step is that of the lane brought to the front, whose fetch gives `i`; and a lane in
front that is in RUN is the default choice. -/
theorem stepRunsDecoded : Obligations.StepRunsDecoded := by
  refine ⟨fun s t w i hselect hw hi => ?_, fun s => State.select_front⟩
  rw [step_of_select hselect, State.stepFront_of_fetch (State.fetchInstr_of_decode hw hi)]

/-- Settles O15: reset is a launch of one lane over consistent shared spaces. -/
theorem resetMeetsInvariant : Obligations.ResetMeetsInvariant :=
  launchMeetsInvariant 1 Shared.reset [] le_rfl (by decide) Shared.reset_consistent

end
